-- ==== Sys2Proof/Word.lean ====
section
/-! DEFINITION. The word types of the GorbaDisplay core (spec 00_scope.md R8): a byte is 8 bits, a port number 16 bits.
Naturals and integers of any size stand for themselves. -/

namespace Sys2Proof

/-- A byte, `u8` of R8. -/
abbrev Byte := BitVec 8

/-- A `u16` of R8: a UDP port number. -/
abbrev Port := BitVec 16

end Sys2Proof
end

