-- ==== Sys2Proof/Syntax.lean ====
section
/-! DEFINITION. The operations of the GorbaDisplay core as syntax: one constructor of `Instr` per row of spec/opcode_table.json.
R5: an instruction is a wire record (one pixel's worth of bytes of a datagram, R90) or a host command (R107). -/

namespace Sys2Proof

/-- The rendering strategy (R31), the operand of SE_INIT. -/
inductive Mode where
  | binary
  | dithered
  deriving DecidableEq, Repr

/-- A real number as plain data, the operand `gamma: real` of FB_INIT (R107, R172). A rational number is given whole. An irrational one is
given by the greatest integer below it and a name: any irrational number above that integer and below the next can bear the name, so
every real number has an operand. What FB_INIT does with an exponent is the same for all that can bear a name: whether it is above 0
and whether it is 1 or more follow from the integer, and its gamma table is free but for R173's properties (U11). -/
inductive Exponent where
  | rational (q : Rat)
  | irrational (floor : Int) (name : Nat)
  deriving DecidableEq, Repr

/-- The real numbers that an exponent can stand for. -/
def Exponent.Denotes (e : Exponent) (x : ℝ) : Prop :=
  match e with
  | .rational q => x = q
  | .irrational floor _ => Irrational x ∧ floor < x ∧ x < floor + 1

/-- Whether the real number is above 0 (R172). -/
def Exponent.positive (e : Exponent) : Bool :=
  match e with
  | .rational q => decide (0 < q)
  | .irrational floor _ => decide (0 ≤ floor)

/-- One line of the text format, cut into the fields of R91 after its literal prefix `PX `: what stands where each field is looked
for. A line that keeps the format has digits, a space, digits, a space, six colour bytes and a line feed; the steps of R133 test
each of these in turn, so a line that does not keep it is an instruction too (its effect is to end the datagram). -/
structure TextLine where
  /-- The digits of x: the longest run of ASCII digits after the prefix (R92). -/
  xDigits : List Byte
  /-- The byte after x, if the datagram has one. -/
  sep1 : Option Byte
  /-- The digits of y. -/
  yDigits : List Byte
  /-- The byte after y, if the datagram has one. -/
  sep2 : Option Byte
  /-- The up to six bytes of the colour field (R93). -/
  colour : List Byte
  /-- The byte after the colour field, if the datagram has one. -/
  term : Option Byte
  deriving DecidableEq, Repr

/-- The operations: eight wire records and twelve host commands. -/
inductive Instr where
  /-- TXT_PX, one text record (R133). -/
  | txtPx (line : TextLine)
  /-- BIN0 (R147). -/
  | bin0 (x y : BitVec 16) (r g b : Byte)
  /-- BIN0A (R148); `a` is carried and discarded. -/
  | bin0a (x y : BitVec 16) (r g b a : Byte)
  /-- BIN1 (R149). -/
  | bin1 (x y : BitVec 12) (r g b : Byte)
  /-- BIN1A (R150); `a` is carried and discarded. -/
  | bin1a (x y : BitVec 12) (r g b a : Byte)
  /-- BIN2 (R151); `c` is a 3-3-2 colour. -/
  | bin2 (x y : BitVec 12) (c : Byte)
  /-- BIN2A (R152); `c` is a 2-2-2-2 colour. -/
  | bin2a (x y : BitVec 12) (c : Byte)
  /-- BIN3 (R153); `col` is the colour byte its datagram shares. -/
  | bin3 (col : Byte) (x y : BitVec 12)
  /-- FB_INIT (R172). -/
  | fbInit (width height : Nat) (gamma : Exponent)
  /-- FB_ORIENT (R174). -/
  | fbOrient (h v : Bool)
  /-- FB_CLEAR (R175). -/
  | fbClear
  /-- FB_WRITE (R178). -/
  | fbWrite (x y : Int) (i : Byte)
  /-- FB_TEXT (R182). -/
  | fbText (text : List Byte) (x y : Int) (i : Byte)
  /-- PD_INIT (R131). -/
  | pdInit (textPort binPort : Port)
  /-- PD_RXTEXT (R132); `len` is the number of bytes. -/
  | pdRxtext (bytes : List Byte)
  /-- PD_RXBIN (R143); `len` is the number of bytes. -/
  | pdRxbin (bytes : List Byte)
  /-- SE_INIT (R201). -/
  | seInit (mode : Mode)
  /-- SE_ENABLE (R220). -/
  | seEnable
  /-- SE_DISABLE (R221). -/
  | seDisable
  /-- SE_TICK (R210), issued by TIMER. -/
  | seTick
  deriving DecidableEq, Repr

/-- Where an operation's words come from (R90): a datagram of the text channel, a datagram of the binary channel, or a command word. -/
inductive Source where
  | text
  | binary
  | command
  deriving DecidableEq, Repr

/-- The source of each operation (R90, R107). -/
def Instr.source : Instr → Source
  | .txtPx _ => .text
  | .bin0 _ _ _ _ _ | .bin0a _ _ _ _ _ _ | .bin1 _ _ _ _ _ | .bin1a _ _ _ _ _ _ | .bin2 _ _ _ | .bin2a _ _ _ | .bin3 _ _ _ => .binary
  | .fbInit _ _ _ | .fbOrient _ _ | .fbClear | .fbWrite _ _ _ | .fbText _ _ _ _ | .pdInit _ _ | .pdRxtext _ | .pdRxbin _
  | .seInit _ | .seEnable | .seDisable | .seTick => .command

end Sys2Proof
end

