-- ==== Sys2Proof/Machine/State.lean ====
section
/-! DEFINITION. The state of the GorbaDisplay core (10_state.md R20 to R52) as plain data, the reasons a step can stop, and the state
after reset (70_reset_and_hazards.md R280, R281). INVENTORY.md lists every field with its rule and its reset value. -/

namespace Sys2Proof.Machine

/-! ## Parts of the state -/

/-- The PixelPlane's written cells: pairs of cell index and byte, indices strictly rising. A cell that nothing has written is not
listed; what it reads as is the free byte `Config.unwrittenCell` (R26, R66, U2). -/
abbrev Memory := List Host.Cell

/-- The six logical output pin roles (R40). -/
structure Pins where
  /-- ROW_EN: the selected row group is driven. -/
  rowEn : Bool
  /-- ROW_SEL: the number of the row group to drive. -/
  rowSel : BitVec 2
  /-- COL_DATA: the bit presented to the column shift register. -/
  colData : Bool
  /-- COL_CLK: the shift clock. -/
  colClk : Bool
  /-- COL_LATCH: the latch pulse. -/
  colLatch : Bool
  /-- COL_PWR: the column driver is powered. -/
  colPwr : Bool
  deriving DecidableEq, Repr

/-- All six pins 0: blanked and powered off (R40, "Value after SE_INIT"). -/
def Pins.zero : Pins := ⟨false, 0, false, false, false, false⟩

/-- The output events (R45). -/
inductive Event where
  /-- BLANK: ROW_EN <- 0. -/
  | blank
  /-- SHIFT(b): COL_DATA <- b, then one pulse of COL_CLK. -/
  | shift (b : Bool)
  /-- LATCH: one pulse of COL_LATCH. -/
  | latch
  /-- SELECT(p): ROW_SEL <- p, then ROW_EN <- 1. -/
  | select (p : BitVec 2)
  /-- POWER(v): COL_PWR <- v. -/
  | power (v : Bool)
  /-- ATTACH: the timer interrupt is attached. -/
  | attach
  /-- DETACH: the timer interrupt is detached. -/
  | detach
  /-- FRAME(n): the frame-boundary callback is invoked with n. -/
  | frame (n : Nat)
  deriving DecidableEq, Repr

/-- The twelve cause labels of R240. They exist only in a model (R241): no claim about the hardware may depend on one. -/
inductive StopCause where
  | endOfData
  | shortHeader
  | unknownFormat
  | badPrefix
  | badNumber
  | badSeparator
  | shortColour
  | noTerminator
  | outOfBounds
  | writeDropped
  | initConflict
  /-- DEADLINE_MISS: not detected, never raised (R255). -/
  | deadlineMiss
  deriving DecidableEq, Repr

/-- The number of each label (R240). -/
def StopCause.number : StopCause → Nat
  | .endOfData => 0
  | .shortHeader => 1
  | .unknownFormat => 2
  | .badPrefix => 3
  | .badNumber => 4
  | .badSeparator => 5
  | .shortColour => 6
  | .noTerminator => 7
  | .outOfBounds => 8
  | .writeDropped => 9
  | .initConflict => 10
  | .deadlineMiss => 11

/-- PD's working registers (R28), live only while a datagram is being parsed. -/
structure PdRegs where
  /-- The datagram length. -/
  len : Nat
  /-- The cursor: the byte offset of the next unread byte. -/
  pos : Nat
  /-- The first header byte. -/
  fmt : Byte
  /-- Bit 0 of the second header byte. -/
  alpha : Bool
  /-- `rec`, the record size in bytes for this datagram. -/
  recSize : Nat
  /-- The shared colour byte of variant 3. -/
  col : Byte
  deriving DecidableEq, Repr

/-- The two listening channels (R90). -/
inductive Channel where
  | text
  | binary
  deriving DecidableEq, Repr

/-- What an operation delivers to HOST: nothing, a boolean (FB_WRITE, PD_INIT) or an integer (FB_TEXT) (R241). -/
inductive Result where
  | none
  | bool (b : Bool)
  | int (n : Int)
  deriving DecidableEq, Repr

/-- What HOST's last operation ended with: its result, and the model's label of why (R240, R241). -/
structure Report where
  result : Result
  cause : Option StopCause
  deriving DecidableEq, Repr

/-- The report of an operation that delivers nothing and raises nothing. -/
def Report.done : Report := ⟨.none, none⟩

/-- What HOST is in the middle of: "every host command is a HOST step or a sequence of HOST steps" (R6). -/
inductive HostActivity where
  /-- Between two operations. -/
  | idle
  /-- An operation whose plane stores are not all made: those still to make, in order, and what it reports at its end (FB_CLEAR, FB_TEXT). -/
  | storing (todo : List Host.Cell) (report : Report)
  /-- A datagram is being parsed; its bytes are the datagram buffer DG (R62), which nothing writes. -/
  | parsing (channel : Channel) (bytes : List Byte)
  deriving DecidableEq, Repr

/-- The two agents (R6). -/
inductive Agent where
  | host
  | timer
  deriving DecidableEq, Repr

/-- How far an agent that begins an operation goes in one step: to its end, with no action of the other agent between, or only to its
first plane access (R70: the other agent may act between any two). -/
inductive Grain where
  | whole
  | split
  deriving DecidableEq, Repr

/-- One entry of the schedule that interleaves the agents (R20, R70). -/
structure Turn where
  agent : Agent
  grain : Grain
  deriving DecidableEq, Repr

/-! ## The state -/

/-- The whole state. The fields up to `trace` are the spec's (R20); the rest are the model's own: what the agents are in the middle of,
the inputs not yet taken, the count of draws, the last report. -/
structure State where
  /-- FB_READY (R21). -/
  fbReady : Bool
  /-- FB_W (R22). -/
  fbW : Nat
  /-- FB_H (R22). -/
  fbH : Nat
  /-- HFLIP (R23). -/
  hflip : Bool
  /-- VFLIP (R24). -/
  vflip : Bool
  /-- GT, the GammaTable (R25). -/
  gt : Vector Byte 256
  /-- PP, the PixelPlane (R26). -/
  pp : Memory
  /-- PD_READY (R27). -/
  pdReady : Bool
  /-- TEXT_PORT (R27). -/
  textPort : Port
  /-- BIN_PORT (R27). -/
  binPort : Port
  /-- The parser's working registers (R28). -/
  pd : PdRegs
  /-- SE_READY (R30). -/
  seReady : Bool
  /-- MODE (R31). -/
  mode : Mode
  /-- EN (R32). -/
  en : Bool
  /-- PHASE (R33). -/
  phase : BitVec 2
  /-- FRAMECNT (R34). -/
  frameCnt : Nat
  /-- ACC, the DitherAccumulator, entry by cell index (R35). -/
  acc : List Byte
  /-- The output pins (R40). -/
  pins : Pins
  /-- The output trace, oldest event first (R45). -/
  trace : List Event
  /-- What HOST is in the middle of; the datagram buffer DG while a datagram is being parsed (R6, R62). -/
  host : HostActivity
  /-- The cells that the phase step in progress has yet to read, in order; none between phase steps (R210, R254). -/
  tick : Option (List Nat)
  /-- The command words that HOST has yet to issue, first one first (R73, R107). -/
  inbox : List (List Byte)
  /-- The turns still scheduled; when none is left HOST goes on, operation by operation (R20, R70). -/
  sched : List Turn
  /-- How many draws have been made (R9). -/
  draws : Nat
  /-- What HOST's last operation ended with (R241). -/
  report : Report
  deriving DecidableEq, Repr

/-! ## Why a step stops -/

/-- Faults. The spec's hardware raises none: R61 says that no operation forms an index outside the plane and R62 that no offset
outside the datagram is read. These three stop a state that no run reaches, in which that would happen. -/
inductive Fault where
  /-- A PixelPlane access at an index that is not below W * H (R60, R61); raised by a plane store or read. Safe. -/
  | noSuchCell (a : Nat)
  /-- An accumulator access at an index that ACC does not have (R35, R60); raised by the read of a phase step. Safe. -/
  | noSuchAccumulator (a : Nat)
  /-- A read of the datagram buffer at an offset that it does not have (R62); raised by PD. Safe. -/
  | noSuchByte
  deriving DecidableEq, Repr

/-- Refusals: what the spec gives no meaning (`refuse`, R9, R247; a model gives it no step). All are safe. -/
inductive Refusal where
  /-- Raised by exec's arm of an operation that has no meaning yet. -/
  | notModelled (mnemonic : String)
  /-- An FB operation, or SE_INIT, before FB_INIT (R174, R175, R178, R182, R201); a phase step without a framebuffer (R21). -/
  | fbNotReady
  /-- A second FB_INIT (R172). -/
  | fbAlreadyReady
  /-- FB_INIT with a dimension below 1 or an exponent not above 0 (R172). -/
  | badFbOperand
  /-- A datagram, or a record of one, before PD_INIT has succeeded or before FB_INIT (R132, R143). -/
  | pdNotReady
  /-- PD_INIT after a successful PD_INIT (R131). -/
  | pdAlreadyReady
  /-- SE_ENABLE or SE_DISABLE before SE_INIT (R220, R221). -/
  | seNotReady
  /-- A second SE_INIT (R201). -/
  | seAlreadyReady
  /-- SE_TICK while the interrupt is not attached: TIMER has no step (R210). -/
  | timerNotAttached
  /-- SE_TICK while a phase step is still running: the missed deadline, outside the model (R254, R255, U5). -/
  | phaseStepRunning
  /-- SE_TICK issued by HOST; it is issued by TIMER, never by HOST (R107). -/
  | tickFromHost
  /-- A command word whose opcode R107 does not list (R106 (i), U8). -/
  | reservedOpcode
  /-- A command word whose operands cannot be read (the model's own packing; no source gives one). -/
  | badCommandWord
  deriving DecidableEq, Repr

/-- The outcome of a step or of an operation. -/
abbrev Out := Host.Outcome State Fault Refusal

/-! ## Reset -/

/-- R280, R281: power has been applied and HOST has issued no command. READY flags and EN false, PHASE and FRAMECNT 0, the trace empty;
the plane lists no cell. The spec gives every other register no value; it is 0 here (DESIGN CHOICE, notes/assumptions/1.md, unsafe). -/
def State.reset : State where
  fbReady := false
  fbW := 0
  fbH := 0
  hflip := false
  vflip := false
  gt := Vector.replicate 256 0
  pp := []
  pdReady := false
  textPort := 0
  binPort := 0
  pd := ⟨0, 0, 0, false, 0, 0⟩
  seReady := false
  mode := .binary
  en := false
  phase := 0
  frameCnt := 0
  acc := []
  pins := Pins.zero
  trace := []
  host := .idle
  tick := none
  inbox := []
  sched := []
  draws := 0
  report := Report.done

end Sys2Proof.Machine
end

