-- ==== Sys2Proof/Machine/Flags.lean ====
section
/-! DEFINITION. The one-bit results of the spec (R48): whether a write is accepted, the shifted-out bit in both modes, whether two ports
conflict. No operation keeps a flag. -/

namespace Sys2Proof.Machine

/-- R176: a write is accepted exactly when 0 <= x < W and 0 <= y < H, on the coordinates as the caller gave them. The result of FB_WRITE. -/
def State.accepts (s : State) (x y : Int) : Bool := decide (0 ≤ x ∧ x < s.fbW ∧ 0 ≤ y ∧ y < s.fbH)

/-- R213: the shifted-out bit in BINARY mode. -/
def binaryBit (i : Byte) : Bool := decide (0 < i.toNat)

/-- R214: the shifted-out bit in DITHERED mode, the carry out of the 8-bit sum of accumulator and intensity. -/
def ditherBit (a i : Byte) : Bool := decide (255 < a.toNat + i.toNat)

/-- R214: the accumulator after the sum, its low 8 bits. -/
def ditherRest (a i : Byte) : Byte := a + i

/-- R131: the result of PD_INIT, the literal comparison of the two port numbers. -/
def portsDiffer (textPort binPort : Port) : Bool := textPort != binPort

end Sys2Proof.Machine
end

