-- ==== Sys2Proof/Config.lean ====
section
/-! DEFINITION. What the spec leaves to configuration or to the platform (00_scope.md R7, 92_eei_decisions.md "Open parameters"),
and the free values of the model (93_implementation_defined.md, treatments "any value" and "parameter").

Where each parameter of R7 lives: P_W, P_H, P_GAMMA are the operands of FB_INIT, P_MODE that of SE_INIT, P_HFLIP0 and P_VFLIP0
those of a following FB_ORIENT, P_TEXT_PORT and P_BIN_PORT those of PD_INIT; P_GT, RGB_TO_GRAY, P_FONT, P_BLANK_ADVANCE, P_SEED
and P_PINMAP stand below; P_MAXLEN is any finite length, P_FRAMECNT_BITS is unbounded, P_TICK_PERIOD and P_DISCOVERY have no
effect on a model without time (R300) and without the network (R4). An `opaque` constant has no body: no proof can see its value,
so a claim about the model holds for every choice of it. -/

namespace Sys2Proof.Config

/-- NPHASE, the number of scan phases, fixed (R7). -/
def nphase : Nat := 4

/-- PORT_DISABLED, the sentinel that disables a channel, 0 by decision D31 (R7, R158). -/
def portDisabled : Port := 0

/-- RGB_TO_GRAY (R7, R139, decision D34): the injected colour conversion, total, depending on (r, g, b) alone, otherwise free. -/
opaque rgbToGray : Byte → Byte → Byte → Byte

/-- P_FONT (R7, R182): column `k` of glyph `ch`, bit `j` being the pixel in glyph row `j` counted from the top. Free. -/
opaque font : Fin 128 → Fin 5 → BitVec 7

/-- P_BLANK_ADVANCE (R7, R183): the cursor advance of a glyph with no lit pixel. Free. -/
opaque blankAdvance : Nat

/-- `draw(0..255)` (R9, U1, U3): the n-th draw of a run; the machine counts its draws and uses each number once. Free. -/
opaque draw : Nat → Byte

/-- What a PixelPlane cell that nothing has written holds (R26, R66, U2): one draw per cell, the same for every read until the first
write to it. Free. -/
opaque unwrittenCell : Nat → Byte

/-- P_PINMAP (R7, R40): the physical pin id of each of the seven output wires (ROW_SEL has two), and whether a logical 1 is a high
level there. Free; invisible at event level. -/
opaque pinMap : Fin 7 → Nat × Bool

/-- Where the values of a gamma table other than those the spec prints come from (U11). Free. -/
opaque gammaRaw : Exponent → Nat → Byte

end Sys2Proof.Config
end

