-- ==== Sys2Proof/WellFormed.lean ====
section
/-! DEFINITION. Which terms of `Instr` are operations as the spec's encodings and operand tables admit them (R91, R92, R107, R172). The
widths of the binary fields are in their types. -/

namespace Sys2Proof

/-- An ASCII decimal digit, 0x30 to 0x39 (R10, R92). -/
def isDigit (b : Byte) : Bool := 0x30 ≤ b.toNat && b.toNat ≤ 0x39

/-- A number field: one digit or more (R91, R92). -/
def wellFormedNumber (ds : List Byte) : Bool := !ds.isEmpty && ds.all isDigit

/-- A text record in the printed format (R91): both numbers, the two single spaces, six colour bytes, the line feed. The colour bytes
may be any bytes (R93: a non-hexadecimal one is accepted). -/
def TextLine.wellFormed (t : TextLine) : Bool :=
  wellFormedNumber t.xDigits && t.sep1 == some 0x20 && wellFormedNumber t.yDigits && t.sep2 == some 0x20
    && t.colour.length == 6 && t.term == some 0x0A

/-- The operand ranges of spec/opcode_table.json: FB_INIT's dimensions are at least 1 and its exponent positive; every other operand
range is the operand's type. -/
def Instr.wellFormed : Instr → Bool
  | .txtPx line => line.wellFormed
  | .fbInit width height gamma => 1 ≤ width && 1 ≤ height && gamma.positive
  | .bin0 _ _ _ _ _ | .bin0a _ _ _ _ _ _ | .bin1 _ _ _ _ _ | .bin1a _ _ _ _ _ _ | .bin2 _ _ _ | .bin2a _ _ _ | .bin3 _ _ _
  | .fbOrient _ _ | .fbClear | .fbWrite _ _ _ | .fbText _ _ _ _ | .pdInit _ _ | .pdRxtext _ | .pdRxbin _
  | .seInit _ | .seEnable | .seDisable | .seTick => true

end Sys2Proof
end

