-- ==== Sys2Proof/Decode.lean ====
section
/-! DEFINITION. The decoder of the three encoded things of R90 (text lines, binary datagrams, command words), total on any bytes and
rejecting by name, and after it the encoder, written from the same tables (30_encoding.md R91 to R101, R107).

The spec fixes the opcode byte of a command word and no packing of its operands (R107, decision D2); the packing below is the
model's own (DESIGN CHOICE, notes/assumptions/2.md, exact: the packing is observed by nothing). -/

namespace Sys2Proof

/-- Why bytes are no operation. Each is the decoder's refusal of them; what the hardware does then is said where the machine meets it. -/
inductive DecodeError where
  /-- A text record not beginning with `PX ` (R134). -/
  | badPrefix
  /-- A binary datagram shorter than its header (R106 (c)). -/
  | shortHeader
  /-- A binary format byte outside 0..3 (R106 (a)). -/
  | unknownFormat
  /-- Fewer bytes than one record (R106 (d)). -/
  | shortRecord
  /-- No byte at all where a command word is looked for. -/
  | emptyCommand
  /-- A command opcode that the table of R107 does not list (R106 (i)). -/
  | reservedOpcode
  /-- A command word that ends inside its operands (the model's own packing). -/
  | shortOperand
  /-- An operand byte that stands for no value: a boolean, a sign or a mode other than 0 and 1 (the model's own packing). -/
  | badOperand
  /-- Bytes after the last operand of a command word (the model's own packing). -/
  | trailingBytes
  deriving DecidableEq, Repr

/-- What reading one thing off the front of a byte list gives: the thing and the bytes after it, or why there is none. -/
abbrev Parsed (α : Type) := Except DecodeError (α × List Byte)

/-! ## Text records -/

/-- The literal prefix `PX ` (R91, R10). -/
def textPrefix : List Byte := [0x50, 0x58, 0x20]

/-- The next byte, where there is one, and the bytes after it. -/
def nextByte : List Byte → Option Byte × List Byte
  | [] => (none, [])
  | b :: bs => (some b, bs)

/-- Cuts the bytes after the prefix into the fields of R91. -/
def splitLine (bs : List Byte) : TextLine × List Byte :=
  let xs := bs.takeWhile isDigit
  let s1 := nextByte (bs.dropWhile isDigit)
  let ys := s1.2.takeWhile isDigit
  let s2 := nextByte (s1.2.dropWhile isDigit)
  let t := nextByte (s2.2.drop 6)
  (⟨xs, s1.1, ys, s2.1, s2.2.take 6, t.1⟩, t.2)

/-- One record of the text channel (R110: every one must match the row TXT_PX, whose first three bytes are the prefix). -/
def decodeText (bs : List Byte) : Parsed Instr :=
  if bs.take 3 = textPrefix then
    let p := splitLine (bs.drop 3)
    .ok (.txtPx p.1, p.2)
  else .error .badPrefix

/-! ## Binary datagrams -/

/-- The seven record layouts of R95. -/
inductive Layout where
  | bin0
  | bin0a
  | bin1
  | bin1a
  | bin2
  | bin2a
  | bin3
  deriving DecidableEq, Repr

/-- R95: the layout the header's format byte and alpha bit choose; none for a format outside 0..3. -/
def layoutOf (fmt : Byte) (alpha : Bool) : Option Layout :=
  if fmt = 0 then some (if alpha then .bin0a else .bin0)
  else if fmt = 1 then some (if alpha then .bin1a else .bin1)
  else if fmt = 2 then some (if alpha then .bin2a else .bin2)
  else if fmt = 3 then some .bin3
  else none

/-- R95: the record size `rec` in bytes. -/
def Layout.recordSize : Layout → Nat
  | .bin0 => 7
  | .bin0a => 8
  | .bin1 => 6
  | .bin1a => 7
  | .bin2 => 4
  | .bin2a => 4
  | .bin3 => 3

/-- R95: the datagram offset of the first record. -/
def Layout.firstOffset : Layout → Nat
  | .bin3 => 3
  | .bin0 | .bin0a | .bin1 | .bin1a | .bin2 | .bin2a => 2

/-- R94: bit 0 of the second header byte; its other bits are read and ignored. -/
def alphaBit (flags : Byte) : Bool := flags.getLsbD 0

/-- R100: a 16-bit coordinate, the byte at the lower offset the less significant. -/
def le16 (lo hi : Byte) : BitVec 16 := hi ++ lo

/-- R101: the packed x, byte 0 and the low nibble of byte 1. -/
def packedX (b0 b1 : Byte) : BitVec 12 := b1.extractLsb' 0 4 ++ b0

/-- R101: the packed y, the high nibble of byte 1 and byte 2. -/
def packedY (b1 b2 : Byte) : BitVec 12 := b2 ++ b1.extractLsb' 4 4

/-- One record of the layout at the front of the bytes (R96 to R99); `col` is the colour byte that a BIN3 datagram shares. -/
def decodeRecord (col : Byte) : Layout → List Byte → Parsed Instr
  | .bin0, x0 :: x1 :: y0 :: y1 :: r :: g :: b :: rest => .ok (.bin0 (le16 x0 x1) (le16 y0 y1) r g b, rest)
  | .bin0a, x0 :: x1 :: y0 :: y1 :: r :: g :: b :: a :: rest => .ok (.bin0a (le16 x0 x1) (le16 y0 y1) r g b a, rest)
  | .bin1, b0 :: b1 :: b2 :: r :: g :: b :: rest => .ok (.bin1 (packedX b0 b1) (packedY b1 b2) r g b, rest)
  | .bin1a, b0 :: b1 :: b2 :: r :: g :: b :: a :: rest => .ok (.bin1a (packedX b0 b1) (packedY b1 b2) r g b a, rest)
  | .bin2, b0 :: b1 :: b2 :: c :: rest => .ok (.bin2 (packedX b0 b1) (packedY b1 b2) c, rest)
  | .bin2a, b0 :: b1 :: b2 :: c :: rest => .ok (.bin2a (packedX b0 b1) (packedY b1 b2) c, rest)
  | .bin3, b0 :: b1 :: b2 :: rest => .ok (.bin3 col (packedX b0 b1) (packedY b1 b2), rest)
  | _, _ => .error .shortRecord

/-- The header of a binary datagram (R94, R99): its layout and the shared colour byte (0, unused, for a layout that has none). -/
def decodeHeader : List Byte → Parsed (Layout × Byte)
  | fmt :: flags :: rest =>
    match layoutOf fmt (alphaBit flags), rest with
    | none, _ => .error .unknownFormat
    | some .bin3, [] => .error .shortHeader
    | some .bin3, col :: rest' => .ok ((.bin3, col), rest')
    | some l, rest' => .ok ((l, 0), rest')
  | _ => .error .shortHeader

/-- The first record of a binary datagram: header, then one record of the layout it chooses (R110). -/
def decodeBinary (bs : List Byte) : Parsed Instr :=
  match decodeHeader bs with
  | .error e => .error e
  | .ok ((l, col), rest) => decodeRecord col l rest

/-! ## Command words -/

/-- The opcodes of R107's table. -/
inductive Opcode where
  | fbInit
  | fbOrient
  | fbClear
  | fbWrite
  | fbText
  | pdInit
  | pdRxtext
  | pdRxbin
  | seInit
  | seEnable
  | seDisable
  | seTick
  deriving DecidableEq, Repr

/-- R107: the opcode byte of each command. -/
def commandTable : List (Byte × Opcode) :=
  [(0x01, .fbInit), (0x02, .fbOrient), (0x03, .fbClear), (0x04, .fbWrite), (0x05, .fbText), (0x10, .pdInit), (0x11, .pdRxtext),
    (0x12, .pdRxbin), (0x20, .seInit), (0x21, .seEnable), (0x22, .seDisable), (0x23, .seTick)]

/-- A natural operand: base 128, the least significant group first, bit 7 set on every byte but the last. -/
def takeNat : List Byte → Parsed Nat
  | [] => .error .shortOperand
  | b :: bs =>
    if b.toNat < 128 then .ok (b.toNat, bs)
    else
      match takeNat bs with
      | .ok (n, rest) => .ok (b.toNat - 128 + 128 * n, rest)
      | .error e => .error e

/-- A byte operand. -/
def takeByte : List Byte → Parsed Byte
  | [] => .error .shortOperand
  | b :: bs => .ok (b, bs)

/-- A boolean operand: 0 false, 1 true. -/
def takeBool : List Byte → Parsed Bool
  | [] => .error .shortOperand
  | b :: bs => if b = 0 then .ok (false, bs) else if b = 1 then .ok (true, bs) else .error .badOperand

/-- An integer operand: a boolean n, then a natural m; the integer is m, or -(m + 1) where n. -/
def takeInt (bs : List Byte) : Parsed Int :=
  match takeBool bs with
  | .error e => .error e
  | .ok (neg, bs) =>
    match takeNat bs with
    | .error e => .error e
    | .ok (m, bs) => .ok (if neg then Int.negSucc m else Int.ofNat m, bs)

/-- A rational operand: the numerator, then the denominator less one. -/
def takeRat (bs : List Byte) : Parsed Rat :=
  match takeInt bs with
  | .error e => .error e
  | .ok (num, bs) =>
    match takeNat bs with
    | .error e => .error e
    | .ok (d, bs) => .ok (mkRat num (d + 1), bs)

/-- A real operand: a boolean; a rational number where it is 0; the integer below and the name of an irrational one where it is 1. -/
def takeExponent (bs : List Byte) : Parsed Exponent :=
  match takeBool bs with
  | .error e => .error e
  | .ok (false, bs) =>
    match takeRat bs with
    | .error e => .error e
    | .ok (q, bs) => .ok (.rational q, bs)
  | .ok (true, bs) =>
    match takeInt bs with
    | .error e => .error e
    | .ok (floor, bs) =>
      match takeNat bs with
      | .error e => .error e
      | .ok (name, bs) => .ok (.irrational floor name, bs)

/-- A `u16` operand, the less significant byte first. -/
def takePort : List Byte → Parsed Port
  | lo :: hi :: bs => .ok (le16 lo hi, bs)
  | _ => .error .shortOperand

/-- A byte list operand: its length, then its bytes. -/
def takeBytes (bs : List Byte) : Parsed (List Byte) :=
  match takeNat bs with
  | .error e => .error e
  | .ok (n, bs) => if n ≤ bs.length then .ok (bs.take n, bs.drop n) else .error .shortOperand

/-- One operand, then the rest of the word. -/
def withOperand {α β : Type} (p : Parsed α) (k : α → List Byte → Parsed β) : Parsed β :=
  match p with
  | .ok (a, bs) => k a bs
  | .error e => .error e

/-- The operands of a command in the order of R107's table. -/
def decodeOperands (op : Opcode) (bs : List Byte) : Parsed Instr :=
  match op with
  | .fbInit => withOperand (takeNat bs) fun w bs => withOperand (takeNat bs) fun h bs => withOperand (takeExponent bs) fun g bs =>
      .ok (.fbInit w h g, bs)
  | .fbOrient => withOperand (takeBool bs) fun h bs => withOperand (takeBool bs) fun v bs => .ok (.fbOrient h v, bs)
  | .fbClear => .ok (.fbClear, bs)
  | .fbWrite => withOperand (takeInt bs) fun x bs => withOperand (takeInt bs) fun y bs => withOperand (takeByte bs) fun i bs =>
      .ok (.fbWrite x y i, bs)
  | .fbText => withOperand (takeBytes bs) fun t bs => withOperand (takeInt bs) fun x bs => withOperand (takeInt bs) fun y bs =>
      withOperand (takeByte bs) fun i bs => .ok (.fbText t x y i, bs)
  | .pdInit => withOperand (takePort bs) fun t bs => withOperand (takePort bs) fun b bs => .ok (.pdInit t b, bs)
  | .pdRxtext => withOperand (takeBytes bs) fun d bs => .ok (.pdRxtext d, bs)
  | .pdRxbin => withOperand (takeBytes bs) fun d bs => .ok (.pdRxbin d, bs)
  | .seInit => withOperand (takeBool bs) fun d bs => .ok (.seInit (if d then .dithered else .binary), bs)
  | .seEnable => .ok (.seEnable, bs)
  | .seDisable => .ok (.seDisable, bs)
  | .seTick => .ok (.seTick, bs)

/-- A command at the front of the bytes: one opcode byte, then its operands (R107). -/
def decodeCommandPrefix : List Byte → Parsed Instr
  | [] => .error .emptyCommand
  | b :: bs =>
    match commandTable.lookup b with
    | none => .error .reservedOpcode
    | some op => decodeOperands op bs

/-- The bytes as exactly one thing: nothing may follow it. -/
def whole {α : Type} (p : Parsed α) : Except DecodeError α :=
  match p with
  | .ok (a, []) => .ok a
  | .ok (_, _ :: _) => .error .trailingBytes
  | .error e => .error e

/-- One command word. -/
def decodeCommand (bs : List Byte) : Except DecodeError Instr := whole (decodeCommandPrefix bs)

/-- The decoder of each source, reading one operation off the front of the bytes. -/
def decodePrefix : Source → List Byte → Parsed Instr
  | .text => decodeText
  | .binary => decodeBinary
  | .command => decodeCommandPrefix

/-- The decoder of each source on the bytes of exactly one operation. -/
def decode (src : Source) (bs : List Byte) : Except DecodeError Instr := whole (decodePrefix src bs)

/-! ## Words numbered as spec/opcode_table.json numbers them -/

/-- The `n` bytes of a number, the least significant first. -/
def bytesLE : Nat → Nat → List Byte
  | 0, _ => []
  | n + 1, w => BitVec.ofNat 8 w :: bytesLE n (w / 256)

/-- Which source a table row of so many bits belongs to (R110): an opcode byte, a 16-bit header word, a 24-bit text prefix. -/
def sourceOfWidth (nbits : Nat) : Option Source :=
  if nbits = 8 then some .command
  else if nbits = 16 then some .binary
  else if nbits = 24 then some .text
  else none

/-- The bytes of a table word: its own, and zero bytes above them, as many as the longest operation with zero operands has. -/
def tableBytes (nbits w : Nat) : List Byte := bytesLE (nbits / 8) w ++ List.replicate 12 0

/-- The operation the decoder reads from an instruction whose bits are `w`, numbered as spec/opcode_table.json numbers them, every
bit above `nbits` zero. -/
def decodeTableWord (nbits w : Nat) : Option Instr :=
  match sourceOfWidth nbits with
  | none => none
  | some src =>
    match decodePrefix src (tableBytes nbits w) with
    | .ok (i, _) => some i
    | .error _ => none

/-- The bytes of that one operation, without the zero bytes after it (all of them where the decoder refuses). -/
def tableWordBytes (nbits w : Nat) : List Byte :=
  match sourceOfWidth nbits with
  | none => tableBytes nbits w
  | some src =>
    match decodePrefix src (tableBytes nbits w) with
    | .ok (_, rest) => (tableBytes nbits w).take ((tableBytes nbits w).length - rest.length)
    | .error _ => tableBytes nbits w

/-! ## The encoder -/

/-- A natural operand, with fuel. -/
def natBytesAux : Nat → Nat → List Byte
  | 0, n => [BitVec.ofNat 8 n]
  | fuel + 1, n => if n < 128 then [BitVec.ofNat 8 n] else BitVec.ofNat 8 (n % 128 + 128) :: natBytesAux fuel (n / 128)

/-- A natural operand (see `takeNat`). -/
def natBytes (n : Nat) : List Byte := natBytesAux n n

/-- A boolean operand. -/
def boolBytes (b : Bool) : List Byte := [if b then 1 else 0]

/-- An integer operand (see `takeInt`). -/
def intBytes : Int → List Byte
  | .ofNat m => boolBytes false ++ natBytes m
  | .negSucc m => boolBytes true ++ natBytes m

/-- A rational operand (see `takeRat`). -/
def ratBytes (q : Rat) : List Byte := intBytes q.num ++ natBytes (q.den - 1)

/-- A real operand (see `takeExponent`). -/
def exponentBytes : Exponent → List Byte
  | .rational q => boolBytes false ++ ratBytes q
  | .irrational floor name => boolBytes true ++ intBytes floor ++ natBytes name

/-- A 16-bit value, the less significant byte first (R100). -/
def le16Bytes (x : BitVec 16) : List Byte := [x.extractLsb' 0 8, x.extractLsb' 8 8]

/-- A byte list operand. -/
def listBytes (bs : List Byte) : List Byte := natBytes bs.length ++ bs

/-- R101: the three bytes of a packed coordinate pair. -/
def packedBytes (x y : BitVec 12) : List Byte :=
  [x.extractLsb' 0 8, y.extractLsb' 0 4 ++ x.extractLsb' 8 4, y.extractLsb' 4 8]

/-- The fields of a text line after the prefix, in order (R91). -/
def TextLine.bytes (t : TextLine) : List Byte :=
  t.xDigits ++ t.sep1.toList ++ t.yDigits ++ t.sep2.toList ++ t.colour ++ t.term.toList

/-- The bytes of an operation: a text record; a binary datagram of one record, with the unused flag bits 0 (R94, R96 to R99); a command
word (R107). -/
def encode : Instr → List Byte
  | .txtPx t => textPrefix ++ t.bytes
  | .bin0 x y r g b => [0, 0] ++ le16Bytes x ++ le16Bytes y ++ [r, g, b]
  | .bin0a x y r g b a => [0, 1] ++ le16Bytes x ++ le16Bytes y ++ [r, g, b, a]
  | .bin1 x y r g b => [1, 0] ++ packedBytes x y ++ [r, g, b]
  | .bin1a x y r g b a => [1, 1] ++ packedBytes x y ++ [r, g, b, a]
  | .bin2 x y c => [2, 0] ++ packedBytes x y ++ [c]
  | .bin2a x y c => [2, 1] ++ packedBytes x y ++ [c]
  | .bin3 col x y => [3, 0, col] ++ packedBytes x y
  | .fbInit w h g => [0x01] ++ natBytes w ++ natBytes h ++ exponentBytes g
  | .fbOrient h v => [0x02] ++ boolBytes h ++ boolBytes v
  | .fbClear => [0x03]
  | .fbWrite x y i => [0x04] ++ intBytes x ++ intBytes y ++ [i]
  | .fbText t x y i => [0x05] ++ listBytes t ++ intBytes x ++ intBytes y ++ [i]
  | .pdInit t b => [0x10] ++ le16Bytes t ++ le16Bytes b
  | .pdRxtext d => [0x11] ++ listBytes d
  | .pdRxbin d => [0x12] ++ listBytes d
  | .seInit m => [0x20] ++ boolBytes (m == .dithered)
  | .seEnable => [0x21]
  | .seDisable => [0x22]
  | .seTick => [0x23]

end Sys2Proof
end

