-- ==== Sys2Proof/Machine/Operands.lean ====
section
/-! DEFINITION. Every operand computation of the spec: numbers and colours of a wire record (R92, R93, R102, R103), the gamma table
(R171, R173), the coordinate a write is stored at (R61, R177), the pixels of a text (R182 to R184), the cells of a phase (R203, R212). -/

namespace Sys2Proof.Machine

/-! ## Numbers and colours of a wire record -/

/-- R92: the value of a run of ASCII digits, most significant first, of any size. -/
def decimalValue (ds : List Byte) : Nat := ds.foldl (fun n d => 10 * n + (d.toNat - 0x30)) 0

/-- R93: the value of a hexadecimal digit, in either case; none for any other byte. -/
def hexValue (b : Byte) : Option (BitVec 4) :=
  if 0x30 ≤ b.toNat ∧ b.toNat ≤ 0x39 then some (BitVec.ofNat 4 (b.toNat - 0x30))
  else if 0x41 ≤ b.toNat ∧ b.toNat ≤ 0x46 then some (BitVec.ofNat 4 (b.toNat - 0x41 + 10))
  else if 0x61 ≤ b.toNat ∧ b.toNat ≤ 0x66 then some (BitVec.ofNat 4 (b.toNat - 0x61 + 10))
  else none

/-- R93, R141: one colour byte from its two characters, the first the high nibble, and the count of draws after it. A pair that holds
a character that is no hexadecimal digit is the next draw, the whole byte of it. -/
def hexPair (hi lo : Byte) (draws : Nat) : Byte × Nat :=
  match hexValue hi, hexValue lo with
  | some h, some l => (h ++ l, draws)
  | _, _ => (Config.draw draws, draws + 1)

/-- A colour as the conversion takes it. -/
structure Rgb where
  r : Byte
  g : Byte
  b : Byte
  deriving DecidableEq, Repr

/-- RGB_TO_GRAY of a colour (R139). -/
def Rgb.gray (c : Rgb) : Byte := Config.rgbToGray c.r c.g c.b

/-- R93: the colour of the six characters of a text record, red, green, blue, and the count of draws after it. None where there are not
six characters (R138). -/
def textColour (cs : List Byte) (draws : Nat) : Option (Rgb × Nat) :=
  match cs with
  | [c0, c1, c2, c3, c4, c5] =>
    let r := hexPair c0 c1 draws
    let g := hexPair c2 c3 r.2
    let b := hexPair c4 c5 g.2
    some (⟨r.1, g.1, b.1⟩, b.2)
  | _ => none

/-- R102: 3-3-2 expansion, each field at the most significant end of its channel. -/
def expand332 (c : Byte) : Rgb := ⟨c &&& 0xE0, (c &&& 0x1C) <<< 3, (c &&& 0x03) <<< 6⟩

/-- R103: 2-2-2-2 expansion; the two low bits are the alpha field and are discarded. -/
def expand2222 (c : Byte) : Rgb := ⟨c &&& 0xC0, (c &&& 0x30) <<< 2, (c &&& 0x0C) <<< 4⟩

/-! ## The gamma table -/

/-- Whether an exponent is 1 or more (R173). -/
def atLeastOne (gamma : Exponent) : Bool :=
  match gamma with
  | .rational q => decide (1 ≤ q)
  | .irrational floor _ => decide (1 ≤ floor)

/-- The largest free value up to entry `i`, none above its own index for an exponent of 1 or more, and 0 at entry 0: every table that
the properties of R173 admit comes from some choice of the free values, and no other. -/
def gammaFree (gamma : Exponent) : Nat → Nat
  | 0 => 0
  | i + 1 =>
    let v := (Config.gammaRaw gamma (i + 1)).toNat
    max (gammaFree gamma i) (if atLeastOne gamma then min v (i + 1) else v)

/-- P_GT: entry `i` of the table (R171, R173, U11). Exact for the exponents 1 and 2, whose tables the spec prints; for any other, free
but for the properties of R173. -/
def gammaEntry (gamma : Exponent) (i : Nat) : Nat :=
  if gamma = .rational 1 then i
  else if gamma = .rational 2 then (2 * i * i + 255) / 510
  else if i = 255 then 255
  else gammaFree gamma i

/-- The whole table. -/
def gammaTable (gamma : Exponent) : Vector Byte 256 := Vector.ofFn fun i => BitVec.ofNat 8 (gammaEntry gamma i.val)

/-- GT[i]. -/
def State.gamma (s : State) (i : Byte) : Byte := s.gt[i.toNat]

/-! ## Where a write is stored -/

/-- R52, R60: the number of PixelPlane cells, and of accumulators, W * H. -/
def State.cells (s : State) : Nat := s.fbW * s.fbH

/-- R177: one stored coordinate, mirrored about the centre of its axis where the axis is flipped. -/
def flipCoord (flip : Bool) (size x : Nat) : Nat := if flip then size - 1 - x else x

/-- R61, R177, R186: the PixelPlane index of an accepted coordinate, ys * W + xs. -/
def State.cellIndex (s : State) (x y : Nat) : Nat := flipCoord s.vflip s.fbH y * s.fbW + flipCoord s.hflip s.fbW x

/-! ## The pixels of a text -/

/-- R182, R183: a glyph's content, its columns from the first that is not blank to the last that is not blank. -/
def glyphContent (cols : List (BitVec 7)) : List (BitVec 7) :=
  ((cols.dropWhile (· == 0)).reverse.dropWhile (· == 0)).reverse

/-- R182: the lit pixels of one glyph column at x = `cx`, from the top. -/
def columnPixels (cx y : Int) (bits : BitVec 7) : List (Int × Int) :=
  ((List.range 7).filter fun j => bits.getLsbD j).map fun j => (cx, y + j)

/-- R182: the lit pixels of a run of columns, the first at x = `cx`. -/
def columnsPixels (y : Int) : Int → List (BitVec 7) → List (Int × Int)
  | _, [] => []
  | cx, bits :: cols => columnPixels cx y bits ++ columnsPixels y (cx + 1) cols

/-- R182 to R184: the pixels of a text in the order they are written, and the cursor after it. A byte above 127 is a zero-width no-op; a
glyph with no lit pixel only advances the cursor. -/
def textLayout (font : Fin 128 → Fin 5 → BitVec 7) (blankAdvance : Nat) (y : Int) : Int → List Byte → List (Int × Int) × Int
  | cx, [] => ([], cx)
  | cx, ch :: text =>
    if h : ch.toNat < 128 then
      let glyph := font ⟨ch.toNat, h⟩
      match glyphContent [glyph 0, glyph 1, glyph 2, glyph 3, glyph 4] with
      | [] => textLayout font blankAdvance y (cx + blankAdvance) text
      | cols =>
        let rest := textLayout font blankAdvance y (cx + cols.length + 1) text
        (columnsPixels y cx cols ++ rest.1, rest.2)
    else textLayout font blankAdvance y cx text

/-! ## The cells of a phase -/

/-- R203: the rows of a phase, in increasing order. -/
def rowsOf (p height : Nat) : List Nat := (List.range height).filter fun r => r % Config.nphase == p

/-- R212: the cells of one row, in increasing column order. -/
def rowCells (width r : Nat) : List Nat := (List.range width).map fun c => r * width + c

/-- R210, R212: the cells a phase step reads, rows ascending and columns ascending. -/
def phaseCells (width height p : Nat) : List Nat := (rowsOf p height).flatMap (rowCells width)

end Sys2Proof.Machine
end

