-- ==== Sys2Proof/Machine/Ops.lean ====
section
/-! DEFINITION. The operations every meaning is built from: sequencing, the PixelPlane (R60 to R67), the output events (R40, R45), the
pixel write (R178), the entry into and the end of a parser stop and of a phase step (R252 to R254, R210). -/

namespace Sys2Proof.Machine

/-- One action after another; the first stop ends both. -/
def andThen (o : Out) (k : State → Out) : Out :=
  match o with
  | .next s => k s
  | .fault r => .fault r
  | .refused r => .refused r

/-! ## PixelPlane memory -/

/-- The byte written last at an address; none where nothing has been written. -/
def Memory.read? : Memory → Nat → Option Byte
  | [], _ => none
  | (a, v) :: m, b => if b = a then some v else Memory.read? m b

/-- R65: the cell takes the value; no other cell changes. The list keeps its canonical form. -/
def Memory.write : Memory → Nat → Byte → Memory
  | [], b, w => [(b, w)]
  | (a, v) :: m, b, w =>
    if b < a then (b, w) :: (a, v) :: m
    else if b = a then (a, w) :: m
    else (a, v) :: Memory.write m b w

/-- Every listed address is above `lo`, and they rise strictly. -/
def Memory.risingFrom : Nat → Memory → Bool
  | _, [] => true
  | lo, (a, _) :: m => decide (lo < a) && Memory.risingFrom a m

/-- The canonical form: addresses strictly rising. (No entry equals what an unlisted address reads as in the sense of `read?`: an
unlisted address reads as none, a listed one never does.) -/
def Memory.wf : Memory → Bool
  | [] => true
  | (a, _) :: m => Memory.risingFrom a m

/-- R66: what a read of one PixelPlane cell returns: the value left by the last write to it, or, before the first, a byte that nothing
constrains (U2). -/
def State.readCell (s : State) (a : Nat) : Byte := (s.pp.read? a).getD (Config.unwrittenCell a)

/-! ## Field updates -/

/-- The state with another PixelPlane. -/
def State.withPp (s : State) (m : Memory) : State := { s with pp := m }

/-- The state with other accumulators. -/
def State.withAcc (s : State) (acc : List Byte) : State := { s with acc := acc }

/-- The state with other parser registers. -/
def State.withPd (s : State) (pd : PdRegs) : State := { s with pd := pd }

/-- The state with another HOST activity. -/
def State.withHost (s : State) (h : HostActivity) : State := { s with host := h }

/-- The state with another phase step in progress. -/
def State.withTick (s : State) (t : Option (List Nat)) : State := { s with tick := t }

/-- The state with another count of draws. -/
def State.withDraws (s : State) (n : Nat) : State := { s with draws := n }

/-- The state with another report. -/
def State.withReport (s : State) (r : Report) : State := { s with report := r }

/-- The state with another EN (R32). -/
def State.withEn (s : State) (en : Bool) : State := { s with en := en }

/-- The state with other orientation flags (R23, R24). -/
def State.withFlips (s : State) (h v : Bool) : State := { s with hflip := h, vflip := v }

/-- The state with an initialised FB, unflipped (R21, R22, R25, R172). -/
def State.withFramebuffer (s : State) (width height : Nat) (gt : Vector Byte 256) : State :=
  { s with fbW := width, fbH := height, gt := gt, hflip := false, vflip := false, fbReady := true }

/-- The state with an initialised PD (R27, R131). -/
def State.withPorts (s : State) (textPort binPort : Port) : State :=
  { s with textPort := textPort, binPort := binPort, pdReady := true }

/-- The state with an initialised SE, disabled, all six pins 0 (R30 to R35, R40, R201). -/
def State.withEngine (s : State) (mode : Mode) (acc : List Byte) : State :=
  { s with mode := mode, acc := acc, phase := 0, frameCnt := 0, en := false, pins := Pins.zero, seReady := true }

/-- The state with another inbox. -/
def State.withInbox (s : State) (ws : List (List Byte)) : State := { s with inbox := ws }

/-- The state with another schedule. -/
def State.withSched (s : State) (ts : List Turn) : State := { s with sched := ts }

/-! ## Output events -/

/-- R40, R45: what an event does to the pins. A pulse goes 0-1-0, so its pin is 0 after it. -/
def Pins.apply (p : Pins) : Event → Pins
  | .blank => { p with rowEn := false }
  | .shift b => { p with colData := b, colClk := false }
  | .latch => { p with colLatch := false }
  | .select q => { p with rowSel := q, rowEn := true }
  | .power v => { p with colPwr := v }
  | .attach => p
  | .detach => p
  | .frame _ => p

/-- `emit` (R9, R45): the event is appended to the trace and does to the pins what it does. -/
def State.emit (s : State) (e : Event) : State := { s with pins := s.pins.apply e, trace := s.trace ++ [e] }

/-! ## HOST operations -/

/-- The end of a HOST operation: HOST is idle and the operation's result is delivered (`return`, R9). -/
def State.endHostOp (s : State) (r : Report) : State := (s.withHost .idle).withReport r

/-- `stop CAUSE` (R9, R253): saves nothing, restores nothing, transfers control nowhere; the PD operation ends, nothing already written is
undone. -/
def State.stopDatagram (s : State) (c : StopCause) : State := s.endHostOp ⟨.none, some c⟩

/-- R65: one atomic PixelPlane store. -/
def storeCell (a : Nat) (v : Byte) (s : State) : Out :=
  if a < s.cells then .next (s.withPp (s.pp.write a v)) else .fault (.noSuchCell a)

/-- R178: the store an FB_WRITE makes, its index and its gamma-corrected byte; none for a write that is dropped. -/
def State.pixelStore (s : State) (x y : Int) (i : Byte) : Option Host.Cell :=
  if s.accepts x y then some (s.cellIndex x.toNat y.toNat, s.gamma i) else none

/-- R178: the pixel write as PD issues it, its result ignored. -/
def writePixel (x y : Int) (i : Byte) (s : State) : Out :=
  match s.pixelStore x y i with
  | some c => storeCell c.1 c.2 s
  | none => .next s

/-- The rest of a HOST operation: the stores still to make, in order, then its end. -/
def finishStores : List Host.Cell → Report → State → Out
  | [], r, s => .next (s.endHostOp r)
  | c :: cs, r, s => andThen (storeCell c.1 c.2 (s.withHost (.storing cs r))) (finishStores cs r)

/-- R6, R70: one HOST action of an operation that is making its stores: the next store, or the end. -/
def storeAction (todo : List Host.Cell) (r : Report) (s : State) : Out :=
  match todo with
  | [] => .next (s.endHostOp r)
  | c :: cs => storeCell c.1 c.2 (s.withHost (.storing cs r))

/-! ## The phase step -/

/-- R210, R252: entry into a tick: nothing is saved, no mode changes; BLANK, and the cells of the current phase are to be read. -/
def State.beginPhaseStep (s : State) : State :=
  (s.emit .blank).withTick (some (phaseCells s.fbW s.fbH s.phase.toNat))

/-- R210, R212: one cell of a phase step: read it once, form its bit, shift it out. -/
def scanCell (a : Nat) (s : State) : Out :=
  if a < s.cells then
    match s.mode with
    | .binary => .next (s.emit (.shift (binaryBit (s.readCell a))))
    | .dithered =>
      match s.acc[a]? with
      | some v => .next ((s.withAcc (s.acc.set a (ditherRest v (s.readCell a)))).emit (.shift (ditherBit v (s.readCell a))))
      | none => .fault (.noSuchAccumulator a)
  else .fault (.noSuchCell a)

/-- R215, R216, R254: the end of a phase step: LATCH, SELECT, the advance of PHASE and, on its wrap to 0, FRAME. There is nothing to
restore. -/
def State.endPhaseStep (s : State) : State :=
  let t := (s.emit .latch).emit (.select s.phase)
  let u := { t with phase := s.phase + 1, tick := none }
  if s.phase + 1 = 0 then { u.emit (.frame s.frameCnt) with frameCnt := s.frameCnt + 1 } else u

/-- The rest of a phase step whose cells still to read are `todo`. -/
def scanAll : List Nat → State → Out
  | [], s => .next s.endPhaseStep
  | a :: as, s => andThen (scanCell a (s.withTick (some as))) (scanAll as)

/-- R6, R70: one TIMER action of a phase step in progress: the next cell, or the end. -/
def scanAction (todo : List Nat) (s : State) : Out :=
  match todo with
  | [] => .next s.endPhaseStep
  | a :: as => scanCell a (s.withTick (some as))

/-- R254: a phase step in progress runs to its end; between phase steps, nothing. -/
def finishPhaseStep (s : State) : Out :=
  match s.tick with
  | some todo => scanAll todo s
  | none => .next s

end Sys2Proof.Machine
end

