-- ==== Sys2Proof/Machine/Framebuffer.lean ====
section
/-! DEFINITION. FB, the framebuffer gamma/clip writer: FB_INIT, FB_ORIENT, FB_CLEAR, FB_WRITE, FB_TEXT (41_framebuffer_sink.md). -/

namespace Sys2Proof.Machine

/-- FB_INIT (R172). PP is not cleared. -/
def execFbInit (width height : Nat) (gamma : Exponent) (s : State) : Out :=
  if s.fbReady then .refused .fbAlreadyReady
  else if width < 1 ∨ height < 1 ∨ ¬ gamma.positive then .refused .badFbOperand
  else .next ((s.withFramebuffer width height (gammaTable gamma)).endHostOp Report.done)

/-- FB_ORIENT (R174, R180). -/
def execFbOrient (h v : Bool) (s : State) : Out :=
  if s.fbReady then .next ((s.withFlips h v).endHostOp Report.done) else .refused .fbNotReady

/-- R175: the stores of FB_CLEAR: 0 in every cell, ascending. -/
def State.clearStores (s : State) : List Host.Cell := (List.range s.cells).map fun a => (a, 0)

/-- FB_CLEAR (R175). -/
def execFbClear (s : State) : Out :=
  if s.fbReady then finishStores s.clearStores Report.done s else .refused .fbNotReady

/-- R178, R240: what FB_WRITE reports: whether the write was accepted, and the label of a dropped one. -/
def writeReport (accepted : Bool) : Report := ⟨.bool accepted, if accepted then none else some .writeDropped⟩

/-- FB_WRITE (R178). -/
def execFbWrite (x y : Int) (i : Byte) (s : State) : Out :=
  if s.fbReady then finishStores (s.pixelStore x y i).toList (writeReport (s.accepts x y)) s else .refused .fbNotReady

/-- R182: the pixels of a text and the cursor after it, with the device's font. -/
def textPixels (text : List Byte) (x y : Int) : List (Int × Int) × Int := textLayout Config.font Config.blankAdvance y x text

/-- R182: the stores of FB_TEXT: one FB_WRITE for each lit pixel, those outside the plane dropped one by one. -/
def State.textStores (s : State) (text : List Byte) (x y : Int) (i : Byte) : List Host.Cell :=
  (textPixels text x y).1.filterMap fun p => s.pixelStore p.1 p.2 i

/-- R182, R240: what FB_TEXT reports: the cursor after the text, and the label of its dropped pixels where it has any. -/
def State.textReport (s : State) (text : List Byte) (x y : Int) : Report :=
  ⟨.int (textPixels text x y).2, if (textPixels text x y).1.all (fun p => s.accepts p.1 p.2) then none else some .writeDropped⟩

/-- FB_TEXT (R182 to R184). -/
def execFbText (text : List Byte) (x y : Int) (i : Byte) (s : State) : Out :=
  if s.fbReady then finishStores (s.textStores text x y i) (s.textReport text x y) s else .refused .fbNotReady

end Sys2Proof.Machine
end

