-- ==== Sys2Proof/Machine/ProtocolDecoder.lean ====
section
/-! DEFINITION. PD, the pixelflood protocol frame parser: PD_INIT, PD_RXTEXT, PD_RXBIN and the eight wire records
(40_protocol_decoder.md). The parser's cursor is its program counter (R50, R159): a datagram is fetched and executed record by
record, and a stop ends it. -/

namespace Sys2Proof.Machine

/-- PD_INIT (R131, R245). Equal ports: false, and nothing else changes. -/
def execPdInit (textPort binPort : Port) (s : State) : Out :=
  if s.pdReady then .refused .pdAlreadyReady
  else if portsDiffer textPort binPort then .next ((s.withPorts textPort binPort).endHostOp ⟨.bool true, none⟩)
  else .next (s.endHostOp ⟨.bool false, some .initConflict⟩)

/-! ## Wire records -/

/-- R132, R143: a datagram is parsed only when both PD and FB are initialised. -/
def State.canParse (s : State) : Bool := s.pdReady && s.fbReady

/-- R159: the cursor moves forward by the record's length. -/
def State.advance (s : State) (n : Nat) : State := s.withPd { s.pd with pos := s.pd.pos + n }

/-- R146, R137: whether a decoded coordinate lies outside the panel. -/
def State.outside (s : State) (x y : Nat) : Bool := decide (s.fbW ≤ x ∨ s.fbH ≤ y)

/-- R143: the common tail of a binary record of `size` bytes: the bounds test, the write, the cursor. -/
def binaryRecord (x y : Nat) (c : Rgb) (size : Nat) (s : State) : Out :=
  if s.canParse then
    if s.outside x y then .next (s.stopDatagram .outOfBounds)
    else andThen (writePixel x y c.gray s) fun t => .next (t.advance size)
  else .refused .pdNotReady

/-- BIN0 (R147). -/
def execBin0 (x y : BitVec 16) (r g b : Byte) (s : State) : Out := binaryRecord x.toNat y.toNat ⟨r, g, b⟩ Layout.bin0.recordSize s

/-- BIN0A (R148, R104): the alpha byte has no effect. -/
def execBin0a (x y : BitVec 16) (r g b _a : Byte) (s : State) : Out :=
  binaryRecord x.toNat y.toNat ⟨r, g, b⟩ Layout.bin0a.recordSize s

/-- BIN1 (R149). -/
def execBin1 (x y : BitVec 12) (r g b : Byte) (s : State) : Out := binaryRecord x.toNat y.toNat ⟨r, g, b⟩ Layout.bin1.recordSize s

/-- BIN1A (R150, R104): the alpha byte has no effect. -/
def execBin1a (x y : BitVec 12) (r g b _a : Byte) (s : State) : Out :=
  binaryRecord x.toNat y.toNat ⟨r, g, b⟩ Layout.bin1a.recordSize s

/-- BIN2 (R151). -/
def execBin2 (x y : BitVec 12) (c : Byte) (s : State) : Out := binaryRecord x.toNat y.toNat (expand332 c) Layout.bin2.recordSize s

/-- BIN2A (R152). -/
def execBin2a (x y : BitVec 12) (c : Byte) (s : State) : Out := binaryRecord x.toNat y.toNat (expand2222 c) Layout.bin2a.recordSize s

/-- BIN3 (R153). -/
def execBin3 (col : Byte) (x y : BitVec 12) (s : State) : Out :=
  binaryRecord x.toNat y.toNat (expand332 col) Layout.bin3.recordSize s

/-- R133 steps 7 to 9: the colour, the write, and only then the terminator. -/
def textTail (t : TextLine) (x y : Nat) (s : State) : Out :=
  match textColour t.colour s.draws with
  | none => .next (s.stopDatagram .shortColour)
  | some (c, draws) =>
    andThen (writePixel x y c.gray (s.withDraws draws)) fun u =>
      if t.term = some 0x0A then .next (u.advance (textPrefix.length + t.bytes.length)) else .next (u.stopDatagram .noTerminator)

/-- TXT_PX (R133), from step 2 on: step 1, the prefix, is what makes the bytes this record (R110, R134). -/
def execTxtPx (t : TextLine) (s : State) : Out :=
  if s.canParse then
    if t.xDigits = [] then .next (s.stopDatagram .badNumber)
    else if t.sep1 ≠ some 0x20 then .next (s.stopDatagram .badSeparator)
    else if t.yDigits = [] then .next (s.stopDatagram .badNumber)
    else if t.sep2 ≠ some 0x20 then .next (s.stopDatagram .badSeparator)
    else if s.outside (decimalValue t.xDigits) (decimalValue t.yDigits) then .next (s.stopDatagram .outOfBounds)
    else textTail t (decimalValue t.xDigits) (decimalValue t.yDigits) s
  else .refused .pdNotReady

/-! ## Fetching a record -/

/-- What stands at the parser's cursor. -/
inductive RecordFetch where
  /-- The datagram ends here, with this cause. -/
  | stop (c : StopCause)
  /-- A record. -/
  | record (i : Instr)
  /-- The length register reaches past the buffer's last byte (in no state that a run reaches, R62). -/
  | overrun
  deriving DecidableEq, Repr

/-- R132, R133 step 1, R143, R145: the record at the cursor of the datagram. -/
def fetchRecord (channel : Channel) (bytes : List Byte) (pd : PdRegs) : RecordFetch :=
  match channel with
  | .text =>
    if pd.len ≤ pd.pos then .stop .endOfData
    else
      match decodeText ((bytes.take pd.len).drop pd.pos) with
      | .ok (i, _) => .record i
      | .error _ => .stop .badPrefix
  | .binary =>
    if pd.len - pd.pos < pd.recSize then .stop .endOfData
    else
      match layoutOf pd.fmt pd.alpha with
      | none => .stop .unknownFormat
      | some l =>
        match decodeRecord pd.col l (bytes.drop pd.pos) with
        | .ok (i, _) => .record i
        | .error _ => .overrun

/-- A wire record executed. The other operations are no records and `fetchRecord` gives none of them. -/
def runRecord (i : Instr) (s : State) : Out :=
  match i with
  | .txtPx t => execTxtPx t s
  | .bin0 x y r g b => execBin0 x y r g b s
  | .bin0a x y r g b a => execBin0a x y r g b a s
  | .bin1 x y r g b => execBin1 x y r g b s
  | .bin1a x y r g b a => execBin1a x y r g b a s
  | .bin2 x y c => execBin2 x y c s
  | .bin2a x y c => execBin2a x y c s
  | .bin3 col x y => execBin3 col x y s
  | .fbInit _ _ _ | .fbOrient _ _ | .fbClear | .fbWrite _ _ _ | .fbText _ _ _ _ | .pdInit _ _ | .pdRxtext _ | .pdRxbin _
  | .seInit _ | .seEnable | .seDisable | .seTick => .refused .badCommandWord

/-- One pass of the `repeat` of R132 and R143. -/
def parseStep (channel : Channel) (bytes : List Byte) (s : State) : Out :=
  match fetchRecord channel bytes s.pd with
  | .stop c => .next (s.stopDatagram c)
  | .record i => runRecord i s
  | .overrun => .fault .noSuchByte

/-- The `repeat` of R132 and R143, at most so many passes of it. Every pass consumes a byte or stops, so one more pass than the datagram
has bytes is never short. -/
def parseAll : Nat → State → Out
  | 0, s => .next s
  | n + 1, s =>
    match s.host with
    | .parsing channel bytes => andThen (parseStep channel bytes s) (parseAll n)
    | .idle | .storing _ _ => .next s

/-! ## Receiving a datagram -/

/-- R132: a text datagram is taken into the buffer and the cursor set to its first byte. -/
def beginText (bytes : List Byte) (s : State) : Out :=
  if s.canParse then
    .next ((s.withPd { s.pd with len := bytes.length, pos := 0 }).withHost (.parsing .text bytes))
  else .refused .pdNotReady

/-- R143: the parser registers after a binary datagram's header, and why the datagram stops there, if it does. -/
def headerRegs (pd : PdRegs) (bytes : List Byte) : PdRegs × Option StopCause :=
  match bytes with
  | fmt :: flags :: rest =>
    let pd := { pd with len := bytes.length, fmt := fmt, alpha := alphaBit flags }
    match layoutOf fmt (alphaBit flags) with
    | none => (pd, some .unknownFormat)
    | some .bin3 =>
      match rest with
      | [] => (pd, some .shortHeader)
      | col :: _ => ({ pd with col := col, recSize := Layout.bin3.recordSize, pos := Layout.bin3.firstOffset }, none)
    | some l => ({ pd with recSize := l.recordSize, pos := l.firstOffset }, none)
  | _ => ({ pd with len := bytes.length }, some .shortHeader)

/-- R143: a binary datagram is taken into the buffer and its header read. -/
def State.loadBinary (s : State) (bytes : List Byte) : State :=
  match headerRegs s.pd bytes with
  | (pd, none) => (s.withPd pd).withHost (.parsing .binary bytes)
  | (pd, some c) => (s.withPd pd).stopDatagram c

/-- R143, before its loop. -/
def beginBinary (bytes : List Byte) (s : State) : Out :=
  if s.canParse then .next (s.loadBinary bytes) else .refused .pdNotReady

/-- PD_RXTEXT (R132). -/
def execPdRxtext (bytes : List Byte) (s : State) : Out := andThen (beginText bytes s) (parseAll (bytes.length + 1))

/-- PD_RXBIN (R143). -/
def execPdRxbin (bytes : List Byte) (s : State) : Out := andThen (beginBinary bytes s) (parseAll (bytes.length + 1))

end Sys2Proof.Machine
end

