-- ==== Sys2Proof/Machine/ScanEngine.lean ====
section
/-! DEFINITION. SE, the LED matrix multiplexer and dithering engine: SE_INIT, SE_TICK, SE_ENABLE, SE_DISABLE (42_scan_engine.md). -/

namespace Sys2Proof.Machine

/-- R202: one draw for each accumulator, in index order. -/
def seeds (first n : Nat) : List Byte := (List.range n).map fun a => Config.draw (first + a)

/-- SE_INIT (R201, R202). Its pin writes are not events. -/
def execSeInit (mode : Mode) (s : State) : Out :=
  if s.seReady then .refused .seAlreadyReady
  else if s.fbReady then
    .next (((s.withEngine mode (seeds s.draws s.cells)).withDraws (s.draws + s.cells)).endHostOp Report.done)
  else .refused .fbNotReady

/-- R210, R21, R254: whether a tick can begin, and what it begins with. -/
def beginTick (s : State) : Out :=
  if s.seReady && s.en then
    if s.fbReady then
      match s.tick with
      | none => .next s.beginPhaseStep
      | some _ => .refused .phaseStepRunning
    else .refused .fbNotReady
  else .refused .timerNotAttached

/-- SE_TICK (R210 to R216). -/
def execSeTick (s : State) : Out := andThen (beginTick s) finishPhaseStep

/-- SE_ENABLE (R220). It takes effect between phase steps (R254). -/
def execSeEnable (s : State) : Out :=
  if s.seReady then
    if s.en then .next (s.endHostOp Report.done)
    else andThen (finishPhaseStep s) fun t => .next ((((t.emit (.power true)).emit .attach).withEn true).endHostOp Report.done)
  else .refused .seNotReady

/-- SE_DISABLE (R221). A phase step in progress completes first (R254). -/
def execSeDisable (s : State) : Out :=
  if s.seReady then
    andThen (finishPhaseStep s) fun t =>
      .next (((((t.emit .blank).emit .detach).emit (.power false)).withEn false).endHostOp Report.done)
  else .refused .seNotReady

end Sys2Proof.Machine
end

