-- ==== Sys2Proof/Machine/Dispatch.lean ====
section
/-! DEFINITION. The one dispatch from operations to their meanings. -/

namespace Sys2Proof.Machine

def exec (i : Instr) (s : State) : Host.Outcome State Fault Refusal :=
  match i with
  -- wire records
  | .txtPx line => Sys2Proof.Machine.execTxtPx line s
  | .bin0 x y r g b => Sys2Proof.Machine.execBin0 x y r g b s
  | .bin0a x y r g b a => Sys2Proof.Machine.execBin0a x y r g b a s
  | .bin1 x y r g b => Sys2Proof.Machine.execBin1 x y r g b s
  | .bin1a x y r g b a => Sys2Proof.Machine.execBin1a x y r g b a s
  | .bin2 x y c => Sys2Proof.Machine.execBin2 x y c s
  | .bin2a x y c => Sys2Proof.Machine.execBin2a x y c s
  | .bin3 col x y => Sys2Proof.Machine.execBin3 col x y s
  -- FB
  | .fbInit width height gamma => Sys2Proof.Machine.execFbInit width height gamma s
  | .fbOrient h v => Sys2Proof.Machine.execFbOrient h v s
  | .fbClear => Sys2Proof.Machine.execFbClear s
  | .fbWrite x y k => Sys2Proof.Machine.execFbWrite x y k s
  | .fbText text x y k => Sys2Proof.Machine.execFbText text x y k s
  -- PD
  | .pdInit textPort binPort => Sys2Proof.Machine.execPdInit textPort binPort s
  | .pdRxtext bytes => Sys2Proof.Machine.execPdRxtext bytes s
  | .pdRxbin bytes => Sys2Proof.Machine.execPdRxbin bytes s
  -- SE
  | .seInit mode => Sys2Proof.Machine.execSeInit mode s
  | .seEnable => Sys2Proof.Machine.execSeEnable s
  | .seDisable => Sys2Proof.Machine.execSeDisable s
  | .seTick => Sys2Proof.Machine.execSeTick s

end Sys2Proof.Machine
end

