-- ==== Sys2Proof/Machine/Fetch.lean ====
section
/-! DEFINITION. Which action comes next (R6, R20, R70, R73): whose turn it is, and what that agent does. HOST goes on with the operation
it is in, a plane store or a record at a time, and otherwise issues the next command word; TIMER goes on with the phase step in
progress, a cell at a time, and otherwise fires. -/

namespace Sys2Proof.Machine

/-- What a step does. -/
inductive Action where
  /-- The machine executes this operation from this state. -/
  | run (i : Instr) (s : State)
  /-- The machine has this outcome: one action of an operation in progress, or none. -/
  | act (o : Out)

/-- A HOST operation begun only as far as its first plane access; none for an operation that makes at most one. -/
def beginSplit (i : Instr) (s : State) : Option Out :=
  match i with
  | .fbClear => some (if s.fbReady then .next (s.withHost (.storing s.clearStores Report.done)) else .refused .fbNotReady)
  | .fbText text x y k =>
    some (if s.fbReady then .next (s.withHost (.storing (s.textStores text x y k) (s.textReport text x y))) else .refused .fbNotReady)
  | .pdRxtext bytes => some (beginText bytes s)
  | .pdRxbin bytes => some (beginBinary bytes s)
  | .txtPx _ | .bin0 _ _ _ _ _ | .bin0a _ _ _ _ _ _ | .bin1 _ _ _ _ _ | .bin1a _ _ _ _ _ _ | .bin2 _ _ _ | .bin2a _ _ _ | .bin3 _ _ _
  | .fbInit _ _ _ | .fbOrient _ _ | .fbWrite _ _ _ | .pdInit _ _ | .seInit _ | .seEnable | .seDisable | .seTick => none

/-- HOST issues a command. SE_TICK is issued by TIMER, never by HOST (R107). -/
def issue (grain : Grain) (i : Instr) (s : State) : Action :=
  if i = .seTick then .act (.refused .tickFromHost)
  else
    match grain with
    | .whole => .run i s
    | .split =>
      match beginSplit i s with
      | some o => .act o
      | none => .run i s

/-- R106 (i), R247: the refusal of bytes that are no command word. -/
def commandRefusal (e : DecodeError) : Refusal :=
  match e with
  | .reservedOpcode => .reservedOpcode
  | .badPrefix | .shortHeader | .unknownFormat | .shortRecord | .emptyCommand | .shortOperand | .badOperand | .trailingBytes =>
    .badCommandWord

/-- HOST between operations: the next command word, in order (R73); with none waiting, polling changes nothing (R157). -/
def hostFetch (grain : Grain) (s : State) : Action :=
  match s.inbox with
  | [] => .act (.next s)
  | w :: ws =>
    match decodeCommand w with
    | .ok i => issue grain i (s.withInbox ws)
    | .error e => .act (.refused (commandRefusal e))

/-- HOST's turn. -/
def hostTurn (grain : Grain) (s : State) : Action :=
  match s.host with
  | .storing todo r => .act (storeAction todo r s)
  | .parsing channel bytes =>
    match fetchRecord channel bytes s.pd with
    | .record i => .run i s
    | .stop c => .act (.next (s.stopDatagram c))
    | .overrun => .act (.fault .noSuchByte)
  | .idle => hostFetch grain s

/-- TIMER's turn. -/
def timerTurn (grain : Grain) (s : State) : Action :=
  match s.tick with
  | some todo => .act (scanAction todo s)
  | none =>
    match grain with
    | .whole => .run .seTick s
    | .split => .act (beginTick s)

/-- The turn an agent takes. -/
def takeTurn (t : Turn) (s : State) : Action :=
  match t.agent with
  | .host => hostTurn t.grain s
  | .timer => timerTurn t.grain s

/-- The next action: the next turn of the schedule, or HOST's where no turn is scheduled. -/
def nextAction (s : State) : Action :=
  match s.sched with
  | [] => hostTurn .whole s
  | t :: ts => takeTurn t (s.withSched ts)

/-! ## Placing one operation where the next step fetches -/

/-- HOST takes the next turn. -/
def State.hostNext (s : State) : State := s.withSched (⟨.host, .whole⟩ :: s.sched)

/-- The state in which the next step runs the operation of the table word: a command word at the head of HOST's inbox; a text or binary
datagram of that one record in the datagram buffer, the cursor at the record; for SE_TICK, TIMER's turn. -/
def State.placeWord (s : State) (nbits w : Nat) : State :=
  match sourceOfWidth nbits with
  | some .text =>
    ((s.withPd { s.pd with len := (tableWordBytes nbits w).length, pos := 0 }).withHost (.parsing .text (tableWordBytes nbits w))).hostNext
  | some .binary => (s.loadBinary (tableWordBytes nbits w)).hostNext
  | some .command | none =>
    if decodeTableWord nbits w = some .seTick then (s.withTick none).withSched (⟨.timer, .whole⟩ :: s.sched)
    else ((s.withHost .idle).withInbox (tableWordBytes nbits w :: s.inbox)).hostNext

end Sys2Proof.Machine
end

