-- ==== Sys2Proof/Machine/Discovery.lean ====
section
/-! DEFINITION. The wire layout of the discovery datagram of the surrounding software (60_exceptions.md R262), a function of the state
that no operation of the three units uses (R4 (4) leaves the broadcast itself out). -/

namespace Sys2Proof.Machine

/-- The decimal digits of a number in ASCII, with fuel, put before `acc`. -/
def decimalAux : Nat → Nat → List Byte → List Byte
  | 0, _, acc => acc
  | fuel + 1, n, acc =>
    if n < 10 then BitVec.ofNat 8 (0x30 + n) :: acc
    else decimalAux fuel (n / 10) (BitVec.ofNat 8 (0x30 + n % 10) :: acc)

/-- A number in decimal (R262: "written in decimal", from general knowledge). -/
def decimalBytes (n : Nat) : List Byte := decimalAux (n + 1) n []

/-- The literal `pixelvloed:0.00 ` in ASCII. -/
def discoveryPrefix : List Byte :=
  [0x70, 0x69, 0x78, 0x65, 0x6C, 0x76, 0x6C, 0x6F, 0x65, 0x64, 0x3A, 0x30, 0x2E, 0x30, 0x30, 0x20]

/-- R262: `pixelvloed:0.00 <ip>:<binary-port> <width>*<height>`, the address given as its text. -/
def discoveryDatagram (ip : List Byte) (s : State) : List Byte :=
  discoveryPrefix ++ ip ++ [0x3A] ++ decimalBytes s.binPort.toNat ++ [0x20] ++ decimalBytes s.fbW ++ [0x2A] ++ decimalBytes s.fbH

end Sys2Proof.Machine
end

