-- ==== Sys2Proof/Machine/Panel.lean ====
section
/-! DEFINITION. The outside of the core: the reference panel that turns a trace into an image (60_exceptions.md R266, with the hidden
state (a) and (b) of 10_state.md R47), and the physical pins (R40, R263). Both are functions of the trace and of the pins; no
operation reads them. -/

namespace Sys2Proof.Machine

/-- What the panel holds after a trace. -/
structure PanelView where
  /-- The logical pins, each what the last event that writes it left there (R45). -/
  pins : Pins
  /-- The bits shifted in since the last LATCH, oldest first (R47 (a)); R266 takes the chain to be exactly as long as a phase step's bits. -/
  chain : List Bool
  /-- The latched column outputs (R47 (b)). -/
  latched : List Bool
  deriving DecidableEq, Repr

/-- R45, R47: what one event does to the panel. -/
def PanelView.apply (v : PanelView) (e : Event) : PanelView :=
  let w := { v with pins := v.pins.apply e }
  match e with
  | .shift b => { w with chain := v.chain ++ [b] }
  | .latch => { w with chain := [], latched := v.chain }
  | .blank | .select _ | .power _ | .attach | .detach | .frame _ => w

/-- The panel after a trace that begins where SE_INIT leaves the pins (R40). -/
def panelOf (trace : List Event) : PanelView := trace.foldl PanelView.apply ⟨Pins.zero, [], []⟩

/-- R266: whether the LED in row `r`, column `c` of a panel `width` wide is lit: the column driver powered, its row group driven, and its
bit, number k * W + c of the group's step for row p + 4k, 1. -/
def PanelView.lit (v : PanelView) (width r c : Nat) : Bool :=
  v.pins.colPwr && v.pins.rowEn && r % Config.nphase == v.pins.rowSel.toNat && v.latched.getD (r / Config.nphase * width + c) false

/-- The seven output wires: ROW_EN, the two of ROW_SEL, COL_DATA, COL_CLK, COL_LATCH, COL_PWR (R40). -/
def Pins.wire (p : Pins) (k : Fin 7) : Bool :=
  match k with
  | 0 => p.rowEn
  | 1 => p.rowSel.getLsbD 0
  | 2 => p.rowSel.getLsbD 1
  | 3 => p.colData
  | 4 => p.colClk
  | 5 => p.colLatch
  | 6 => p.colPwr

/-- R40, R263: the physical pin of a wire and its level: P_PINMAP gives the id and whether a logical 1 is high. -/
def Pins.physical (p : Pins) (k : Fin 7) : Nat × Bool := ((Config.pinMap k).1, p.wire k == (Config.pinMap k).2)

end Sys2Proof.Machine
end

