-- ==== Sys2Proof/Safety.lean ====
section
/-! DEFINITION. The terms that claims about the machine use: what a step changes, what a trace and a datagram mean, and the invariant
that every step keeps. -/

namespace Sys2Proof.Machine

/-! ## What an operation changes -/

/-- Reading a cell after gives the same as before: what was written there last, or that nothing was. -/
def SameCell (s t : State) (a : Nat) : Prop := t.pp.read? a = s.pp.read? a

/-- The one store: cell `a` reads `v`, every other cell as before. -/
def StoresOnly (s t : State) (a : Nat) (v : Byte) : Prop := t.pp.read? a = some v ∧ ∀ b, b ≠ a → SameCell s t b

/-- SE's own state: nothing but SE's operations changes any of it (R200, R256). -/
def SameEngine (s t : State) : Prop :=
  t.seReady = s.seReady ∧ t.mode = s.mode ∧ t.en = s.en ∧ t.phase = s.phase ∧ t.frameCnt = s.frameCnt ∧ t.acc = s.acc ∧ t.pins = s.pins ∧
    t.trace = s.trace ∧ t.tick = s.tick

/-- FB's registers and table (R170), the plane apart. -/
def SameFramebuffer (s t : State) : Prop :=
  t.fbReady = s.fbReady ∧ t.fbW = s.fbW ∧ t.fbH = s.fbH ∧ t.hflip = s.hflip ∧ t.vflip = s.vflip ∧ t.gt = s.gt

/-- PD's registers that outlive a datagram (R27). -/
def SamePorts (s t : State) : Prop := t.pdReady = s.pdReady ∧ t.textPort = s.textPort ∧ t.binPort = s.binPort

/-- The inputs not yet taken. -/
def SameInputs (s t : State) : Prop := t.inbox = s.inbox ∧ t.sched = s.sched

/-! ## Wire records -/

/-- The coordinate of a wire record (R92, R100, R101); (0, 0) for an operation that is none. -/
def recordCoords : Instr → Nat × Nat
  | .txtPx t => (decimalValue t.xDigits, decimalValue t.yDigits)
  | .bin0 x y _ _ _ | .bin0a x y _ _ _ _ => (x.toNat, y.toNat)
  | .bin1 x y _ _ _ | .bin1a x y _ _ _ _ | .bin2 x y _ | .bin2a x y _ | .bin3 _ x y => (x.toNat, y.toNat)
  | .fbInit _ _ _ | .fbOrient _ _ | .fbClear | .fbWrite _ _ _ | .fbText _ _ _ _ | .pdInit _ _ | .pdRxtext _ | .pdRxbin _
  | .seInit _ | .seEnable | .seDisable | .seTick => (0, 0)

/-- The colour of a binary record (R96 to R99, R102, R103); black for any other operation. -/
def binaryColour : Instr → Rgb
  | .bin0 _ _ r g b | .bin0a _ _ r g b _ => ⟨r, g, b⟩
  | .bin1 _ _ r g b | .bin1a _ _ r g b _ => ⟨r, g, b⟩
  | .bin2 _ _ c => expand332 c
  | .bin2a _ _ c => expand2222 c
  | .bin3 col _ _ => expand332 col
  | .txtPx _ | .fbInit _ _ _ | .fbOrient _ _ | .fbClear | .fbWrite _ _ _ | .fbText _ _ _ _ | .pdInit _ _ | .pdRxtext _ | .pdRxbin _
  | .seInit _ | .seEnable | .seDisable | .seTick => ⟨0, 0, 0⟩

/-- The layout of a binary record (R95). -/
def recordLayout : Instr → Option Layout
  | .bin0 _ _ _ _ _ => some .bin0
  | .bin0a _ _ _ _ _ _ => some .bin0a
  | .bin1 _ _ _ _ _ => some .bin1
  | .bin1a _ _ _ _ _ _ => some .bin1a
  | .bin2 _ _ _ => some .bin2
  | .bin2a _ _ _ => some .bin2a
  | .bin3 _ _ _ => some .bin3
  | .txtPx _ | .fbInit _ _ _ | .fbOrient _ _ | .fbClear | .fbWrite _ _ _ | .fbText _ _ _ _ | .pdInit _ _ | .pdRxtext _ | .pdRxbin _
  | .seInit _ | .seEnable | .seDisable | .seTick => none

/-- The colour byte that a BIN3 record shares with its datagram. -/
def sharedColour : Instr → Option Byte
  | .bin3 col _ _ => some col
  | .txtPx _ | .bin0 _ _ _ _ _ | .bin0a _ _ _ _ _ _ | .bin1 _ _ _ _ _ | .bin1a _ _ _ _ _ _ | .bin2 _ _ _ | .bin2a _ _ _ | .fbInit _ _ _
  | .fbOrient _ _ | .fbClear | .fbWrite _ _ _ | .fbText _ _ _ _ | .pdInit _ _ | .pdRxtext _ | .pdRxbin _ | .seInit _ | .seEnable
  | .seDisable | .seTick => none

/-- Whether a wire record's coordinate lies on the panel (R137, R146). -/
def OnPanel (s : State) (i : Instr) : Prop := (recordCoords i).1 < s.fbW ∧ (recordCoords i).2 < s.fbH

/-- Operations executed one after another. -/
def execAll : List Instr → State → Out
  | [], s => .next s
  | i :: is, s => andThen (exec i s) (execAll is)

/-! ## Phase steps -/

/-- The bit that a phase step shifts out for a cell (R213, R214), from the state at its start. -/
def State.bitOf (s : State) (a : Nat) : Bool :=
  match s.mode with
  | .binary => binaryBit (s.readCell a)
  | .dithered => ditherBit (s.acc.getD a 0) (s.readCell a)

/-- The cells of the current phase. -/
def State.currentCells (s : State) : List Nat := phaseCells s.fbW s.fbH s.phase.toNat

/-- Everything a tick needs: SE and FB initialised, the interrupt attached, no phase step running, an accumulator for every cell. -/
def State.CanTick (s : State) : Prop :=
  s.seReady = true ∧ s.en = true ∧ s.fbReady = true ∧ s.tick = none ∧ s.acc.length = s.cells

/-- N scans of one cell with the intensities read, from an accumulator: the bits shifted out and the accumulator after (R214). -/
def scans (a : Byte) : List Byte → List Bool × Byte
  | [] => ([], a)
  | i :: is => (ditherBit a i :: (scans (ditherRest a i) is).1, (scans (ditherRest a i) is).2)

/-- One action of TIMER, so many times. -/
def scanActions : Nat → State → Out
  | 0, s => .next s
  | n + 1, s =>
    match s.tick with
    | some todo => andThen (scanAction todo s) (scanActions n)
    | none => .next s

/-- One action of HOST in an operation that makes its stores, so many times. -/
def storeActions : Nat → State → Out
  | 0, s => .next s
  | n + 1, s =>
    match s.host with
    | .storing todo r => andThen (storeAction todo r s) (storeActions n)
    | .idle | .parsing _ _ => .next s

/-! ## Turns -/

/-- The step is HOST's, taken as far as the grain says, and `u` is the state with that turn taken off the schedule: the turn is scheduled,
or none is and HOST goes on. -/
def HostGoes (s : State) (g : Grain) (u : State) : Prop :=
  (s.sched = [] ∧ g = .whole ∧ u = s) ∨ ∃ ts, s.sched = ⟨.host, g⟩ :: ts ∧ u = { s with sched := ts }

/-- The step is TIMER's, likewise. -/
def TimerGoes (s : State) (g : Grain) (u : State) : Prop := ∃ ts, s.sched = ⟨.timer, g⟩ :: ts ∧ u = { s with sched := ts }

/-- So many steps. -/
def steps : Nat → State → Out
  | 0, s => .next s
  | n + 1, s => andThen (step s) (steps n)

/-! ## Text lines -/

/-- How the bytes after a text record's prefix are cut (R91, R92): each number field is all the digits that stand there; every other field is
the byte, or the six bytes, that stand next; a field that the end of the datagram cuts off is empty, and so is all after it. -/
structure CutAsFormat (t : TextLine) (rest : List Byte) : Prop where
  xDigits : ∀ b ∈ t.xDigits, 0x30 ≤ b.toNat ∧ b.toNat ≤ 0x39
  sep1 : ∀ b, t.sep1 = some b → ¬(0x30 ≤ b.toNat ∧ b.toNat ≤ 0x39)
  sep1Missing : t.sep1 = none → t.yDigits = [] ∧ t.sep2 = none ∧ t.colour = [] ∧ t.term = none ∧ rest = []
  yDigits : ∀ b ∈ t.yDigits, 0x30 ≤ b.toNat ∧ b.toNat ≤ 0x39
  sep2 : ∀ b, t.sep2 = some b → ¬(0x30 ≤ b.toNat ∧ b.toNat ≤ 0x39)
  sep2Missing : t.sep2 = none → t.colour = [] ∧ t.term = none ∧ rest = []
  colour : t.colour.length ≤ 6
  colourShort : t.colour.length < 6 → t.term = none ∧ rest = []
  termMissing : t.term = none → rest = []

/-! ## Traces -/

/-- The numbers of the FRAME events of a trace, in order (R216). -/
def frameNumbers : List Event → List Nat
  | [] => []
  | .frame n :: es => n :: frameNumbers es
  | .blank :: es | .shift _ :: es | .latch :: es | .select _ :: es | .power _ :: es | .attach :: es | .detach :: es => frameNumbers es

/-- R74, R211, R290: every SHIFT and every LATCH comes while the rows are blanked. -/
def bleedFree : Pins → List Event → Bool
  | _, [] => true
  | p, .shift b :: es => !p.rowEn && bleedFree (p.apply (.shift b)) es
  | p, .latch :: es => !p.rowEn && bleedFree (p.apply .latch) es
  | p, .blank :: es => bleedFree (p.apply .blank) es
  | p, .select q :: es => bleedFree (p.apply (.select q)) es
  | p, .power v :: es => bleedFree (p.apply (.power v)) es
  | p, .attach :: es | p, .detach :: es | p, .frame _ :: es => bleedFree p es

/-! ## Channels -/

/-- R158: whether a datagram can be delivered on a channel at all. -/
def State.channelEnabled (s : State) : Channel → Bool
  | .text => s.textPort != Config.portDisabled
  | .binary => s.binPort != Config.portDisabled

/-! ## The invariant -/

/-- What every step keeps. -/
structure State.Inv (s : State) : Prop where
  /-- The PixelPlane keeps its canonical form. -/
  planeCanonical : s.pp.wf = true
  /-- R60, R61: only cells of the plane are ever written. -/
  planeInRange : ∀ a v, s.pp.read? a = some v → a < s.cells
  /-- R26: nothing is written before FB_INIT. -/
  planeUntouched : s.fbReady = false → s.pp = []
  /-- R22: the established dimensions are at least 1. -/
  dimensions : s.fbReady = true → 1 ≤ s.fbW ∧ 1 ≤ s.fbH
  /-- R173: the gamma table has the properties the source states. -/
  gammaEnds : s.fbReady = true → s.gamma 0 = 0 ∧ s.gamma 255 = 255
  gammaMonotone : s.fbReady = true → ∀ i j : Byte, i.toNat ≤ j.toNat → (s.gamma i).toNat ≤ (s.gamma j).toNat
  /-- R131, R295: an initialised PD has two different ports. -/
  portsDistinct : s.pdReady = true → s.textPort ≠ s.binPort
  /-- R285: SE_INIT comes after FB_INIT, SE_ENABLE after SE_INIT. -/
  engineAfterFramebuffer : s.seReady = true → s.fbReady = true
  enabledAfterInit : s.en = true → s.seReady = true
  /-- R35: there is one accumulator for each cell. -/
  accumulators : s.seReady = true → s.acc.length = s.cells
  /-- R280: nothing comes out before SE_INIT. -/
  silentBeforeInit : s.seReady = false → s.trace = [] ∧ s.pins = Pins.zero ∧ s.frameCnt = 0
  /-- R45: each pin holds what the last event that writes it left there. -/
  pinsFollowTrace : s.pins = s.trace.foldl Pins.apply Pins.zero
  /-- R216: the FRAME events so far are numbered 0, 1, 2, ... without a gap, and FRAMECNT is the next number. -/
  framesNumbered : frameNumbers s.trace = List.range s.frameCnt
  /-- R211, R290: no SHIFT and no LATCH while a row is lit. -/
  noBleed : bleedFree Pins.zero s.trace = true
  /-- R32, R269: the column driver is powered exactly while enabled, and a disabled panel is blanked. -/
  poweredWhileEnabled : s.pins.colPwr = s.en
  darkWhileDisabled : s.en = false → s.pins.rowEn = false
  /-- R210, R254: a phase step in progress has the rows blanked and has read its cells in order. -/
  phaseStep : ∀ todo, s.tick = some todo → s.en = true ∧ s.pins.rowEn = false ∧ todo <:+ s.currentCells
  /-- R266: between phase steps nothing stands shifted and not latched; during one, a bit for each cell read so far. -/
  chainBetween : s.tick = none → (panelOf s.trace).chain = []
  chainDuring : ∀ todo, s.tick = some todo → (panelOf s.trace).chain.length + todo.length = s.currentCells.length
  /-- R60, R61: an operation in progress has only cells of the plane still to write. -/
  pendingStores : ∀ todo r, s.host = .storing todo r → s.fbReady = true ∧ ∀ c ∈ todo, c.1 < s.cells
  /-- R28, R62, R132, R143: a datagram being parsed. -/
  parser : ∀ channel bytes, s.host = .parsing channel bytes → s.pdReady = true ∧ s.fbReady = true ∧ s.pd.len = bytes.length ∧
    s.pd.pos ≤ s.pd.len ∧ (channel = .binary → ∃ l, layoutOf s.pd.fmt s.pd.alpha = some l ∧ s.pd.recSize = l.recordSize)

end Sys2Proof.Machine
end

