-- ==== Sys2Proof/Certificates/Slice0/Obligations.lean ====
section
/-! DEFINITION. The statements for the provers, from the numbered rules of spec/. A host activity, an input queue, a draw count and a
report are the model's own fields (notes/assumptions/3.md); where a statement names them it says what the model does with them and
formalises no rule by it. Where a rule carries one of the spec's own decisions (92_eei_decisions.md, D1 to D40) or a passage that it
marks as derived or from general knowledge, the docstring names it. -/

open Sys2Proof Sys2Proof.Machine

/-! ## FB -/

/-- R172, R107, R7. FB_INIT, for every real exponent: each real number has an operand that stands for it. It is refused when FB is initialised,
when a dimension is below 1, when the exponent is not above 0; otherwise it sets the dimensions, the whole gamma table and the
unflipped orientation, and leaves the PixelPlane and all else as it was. (The refusals and the uncleared plane are the spec's
decisions D20 and D19; the form of the operand: notes/assumptions/6.md.) -/
def Obligations.FbInitEstablishesFramebuffer : Prop :=
  ∀ x : ℝ, (∃ gamma : Exponent, gamma.Denotes x) ∧
    ∀ (width height : Nat) (gamma : Exponent) (s : State), gamma.Denotes x →
      (s.fbReady = true → exec (.fbInit width height gamma) s = .refused .fbAlreadyReady) ∧
      (s.fbReady = false → ¬(1 ≤ width ∧ 1 ≤ height ∧ 0 < x) → exec (.fbInit width height gamma) s = .refused .badFbOperand) ∧
      (s.fbReady = false → 1 ≤ width → 1 ≤ height → 0 < x →
        exec (.fbInit width height gamma) s = .next { s with
          fbW := width, fbH := height, gt := gammaTable gamma, hflip := false, vflip := false, fbReady := true,
          host := .idle, report := Report.done })

/-- R173. The gamma table: 0 at 0, 255 at 255, monotone for every real exponent above 0; below the diagonal for exponents of 1 or more; the
identity for 1; the integer formula for 2. (All but the ends, and monotony for exponents of 1 or more, the spec derives from R171.) -/
def Obligations.GammaTableProperties : Prop :=
  ∀ (x : ℝ) (gamma : Exponent), 0 < x → gamma.Denotes x →
    (gammaTable gamma)[0] = 0 ∧ (gammaTable gamma)[255] = 255 ∧
    (∀ i j : Fin 256, i ≤ j → (gammaTable gamma)[i].toNat ≤ (gammaTable gamma)[j].toNat) ∧
    (1 ≤ x → ∀ i : Fin 256, (gammaTable gamma)[i].toNat ≤ i.val) ∧
    (x = 1 → ∀ i : Fin 256, (gammaTable gamma)[i].toNat = i.val) ∧
    (x = 2 → ∀ i : Fin 256, (gammaTable gamma)[i].toNat = (2 * i.val * i.val + 255) / 510)

/-- R174 (and R180). FB_ORIENT sets the two flags and nothing else: no cell of the PixelPlane moves or changes. -/
def Obligations.FbOrientSetsFlipsOnly : Prop :=
  ∀ (h v : Bool) (s : State),
    (s.fbReady = false → exec (.fbOrient h v) s = .refused .fbNotReady) ∧
    (s.fbReady = true → exec (.fbOrient h v) s = .next { s with hflip := h, vflip := v, host := .idle, report := Report.done })

/-- R175. FB_CLEAR: every cell of the plane reads 0 after it; nothing else changes, the accumulators among it. Its stores are separate
actions: after any number of them some cells are cleared and every other cell is as it was. (Which cells come first is the spec's own
choice, decision D19, and the statement does not say.) -/
def Obligations.FbClearZeroesEveryCell : Prop :=
  ∀ s : State,
    (s.fbReady = false → exec .fbClear s = .refused .fbNotReady) ∧
    (s.fbReady = true → ∃ t, exec .fbClear s = .next t ∧
      (∀ a, a < s.cells → t.pp.read? a = some 0) ∧ (∀ a, s.cells ≤ a → SameCell s t a) ∧
      t = { s with pp := t.pp, host := .idle, report := Report.done }) ∧
    (s.fbReady = true → ∃ u, beginSplit .fbClear s = some (.next u) ∧ ∀ n, n ≤ s.cells → ∃ (v : State) (cleared : List Nat),
      storeActions n u = .next v ∧ cleared.length = n ∧ cleared.Nodup ∧ (∀ a ∈ cleared, a < s.cells ∧ v.pp.read? a = some 0) ∧
      (∀ a, a ∉ cleared → SameCell s v a) ∧ v = { s with pp := v.pp, host := v.host })

/-- R176. FB_WRITE is accepted exactly inside the plane, on the coordinates as given, whatever the flips; outside it the result is false and
no cell and nothing else changes. -/
def Obligations.FbWriteClips : Prop :=
  ∀ (x y : Int) (i : Byte) (s : State), s.fbReady = true →
    (0 ≤ x → x < s.fbW → 0 ≤ y → y < s.fbH → ∃ t, exec (.fbWrite x y i) s = .next t ∧ t.report.result = .bool true) ∧
    (¬(0 ≤ x ∧ x < s.fbW ∧ 0 ≤ y ∧ y < s.fbH) →
      exec (.fbWrite x y i) s = .next { s with host := .idle, report := ⟨.bool false, some .writeDropped⟩ })

/-- R177 to R179. FB_WRITE inside the plane: exactly one cell changes, the one at the flipped coordinate, row-major, which then reads the
gamma table's entry for the intensity. (The mirror formula and the index formula are the spec's general knowledge, D6 and D5; the
operand types D21; the refusal D20.) -/
def Obligations.FbWriteStoresGammaAtFlippedCell : Prop :=
  ∀ (x y : Int) (i : Byte) (s : State),
    (s.fbReady = false → exec (.fbWrite x y i) s = .refused .fbNotReady) ∧
    (s.fbReady = true → 0 ≤ x → x < s.fbW → 0 ≤ y → y < s.fbH → ∃ (t : State) (a : Nat),
      exec (.fbWrite x y i) s = .next t ∧
      (a : Int) = (if s.vflip then (s.fbH : Int) - 1 - y else y) * s.fbW + (if s.hflip then (s.fbW : Int) - 1 - x else x) ∧
      a < s.fbW * s.fbH ∧ StoresOnly s t a s.gt[i.toNat] ∧
      t = { s with pp := t.pp, host := .idle, report := ⟨.bool true, none⟩ })

/-- R65, R66. A plane store changes one cell; a read returns what the last store to that cell left, and, where none has been made, the
cell's unspecified byte. -/
def Obligations.PlaneStoreThenRead : Prop :=
  ∀ (s : State) (a : Nat) (v : Byte), a < s.fbW * s.fbH → ∃ t, storeCell a v s = .next t ∧
    t.readCell a = v ∧ (∀ b, b ≠ a → t.readCell b = s.readCell b) ∧ t = { s with pp := t.pp } ∧
    ∀ b, s.pp.read? b = none → s.readCell b = Config.unwrittenCell b

/-- R182. FB_TEXT is the FB_WRITEs of its lit pixels, in order, and returns the cursor after the text; unlit pixels keep what the plane
held, and nothing but the plane changes. (The algorithm is the spec's reading, D22.) -/
def Obligations.FbTextIsItsPixelWrites : Prop :=
  ∀ (text : List Byte) (x y : Int) (i : Byte) (s : State),
    (s.fbReady = false → exec (.fbText text x y i) s = .refused .fbNotReady) ∧
    (s.fbReady = true → ∃ t u, exec (.fbText text x y i) s = .next t ∧
      execAll ((textPixels text x y).1.map fun p => .fbWrite p.1 p.2 i) s = .next u ∧ t.pp = u.pp ∧
      t.report.result = .int (textPixels text x y).2 ∧
      t = { s with pp := t.pp, host := .idle, report := t.report })

/-- R184. A byte above 127 in a text is as if it were not there: FB_TEXT does what it does without such bytes; a text of nothing else writes
nothing and returns its x. -/
def Obligations.FbTextSkipsNonAscii : Prop :=
  ∀ (text : List Byte) (x y : Int) (i : Byte) (s : State),
    exec (.fbText text x y i) s = exec (.fbText (text.filter fun ch => decide (ch.toNat ≤ 127)) x y i) s ∧
    (s.fbReady = true → (∀ ch ∈ text, 127 < ch.toNat) →
      exec (.fbText text x y i) s = .next { s with host := .idle, report := ⟨.int x, none⟩ })

/-- R182 to R184. The pixels and the cursor of a text, byte by byte, for any font: a byte above 127 is a zero-width no-op; a glyph with no
lit pixel advances by P_BLANK_ADVANCE; any other draws its columns from the first to the last that is not blank, the first at the
cursor, and advances by their number plus one. (The spec's reading, D22.) -/
def Obligations.TextLayoutByGlyph : Prop :=
  ∀ (font : Fin 128 → Fin 5 → BitVec 7) (blank : Nat) (y cx : Int) (text : List Byte),
    textLayout font blank y cx [] = ([], cx) ∧
    (∀ ch : Byte, 127 < ch.toNat → textLayout font blank y cx (ch :: text) = textLayout font blank y cx text) ∧
    (∀ (ch : Byte) (h : ch.toNat < 128), (∀ k, font ⟨ch.toNat, h⟩ k = 0) →
      textLayout font blank y cx (ch :: text) = textLayout font blank y (cx + blank) text) ∧
    (∀ (ch : Byte) (h : ch.toNat < 128) (first last : Fin 5), font ⟨ch.toNat, h⟩ first ≠ 0 → font ⟨ch.toNat, h⟩ last ≠ 0 →
      (∀ k, k < first → font ⟨ch.toNat, h⟩ k = 0) → (∀ k, last < k → font ⟨ch.toNat, h⟩ k = 0) →
      textLayout font blank y cx (ch :: text) =
        (((List.finRange 5).filter fun k => decide (first ≤ k ∧ k ≤ last)).flatMap (fun k =>
            ((List.range 7).filter fun j => (font ⟨ch.toNat, h⟩ k).getLsbD j).map fun j =>
              (cx + (k.val - first.val : Int), y + (j : Int))) ++
          (textLayout font blank y (cx + (last.val - first.val + 1 : Int) + 1) text).1,
        (textLayout font blank y (cx + (last.val - first.val + 1 : Int) + 1) text).2))

/-! ## PD -/

/-- R131, R245. PD_INIT: refused after a success; equal ports give false and change nothing else, and every datagram is refused as before;
different ports are set, and the result is true. (The refusal after a success is the spec's decision D20; that two equal disabled ports
are equal ports D31.) -/
def Obligations.PdInitNeedsDistinctPorts : Prop :=
  ∀ (textPort binPort : Port) (s : State),
    (s.pdReady = true → exec (.pdInit textPort binPort) s = .refused .pdAlreadyReady) ∧
    (s.pdReady = false → textPort = binPort → ∃ t, exec (.pdInit textPort binPort) s = .next t ∧
      t = { s with host := .idle, report := ⟨.bool false, some .initConflict⟩ } ∧
      ∀ bytes, exec (.pdRxtext bytes) t = .refused .pdNotReady ∧ exec (.pdRxbin bytes) t = .refused .pdNotReady) ∧
    (s.pdReady = false → textPort ≠ binPort →
      exec (.pdInit textPort binPort) s = .next { s with
        textPort := textPort, binPort := binPort, pdReady := true, host := .idle, report := ⟨.bool true, none⟩ })

/-- R92. A decimal field: the longest run of digits at the cursor, and its value, most significant digit first, of any size. (D8.) -/
def Obligations.DecimalFieldValue : Prop :=
  (∀ ds : List Byte, decimalValue ds = ∑ k : Fin ds.length, (ds[k].toNat - 0x30) * 10 ^ (ds.length - 1 - k.val)) ∧
  (∀ ds rest : List Byte, (∀ d ∈ ds, 0x30 ≤ d.toNat ∧ d.toNat ≤ 0x39) →
    (∀ b, rest.head? = some b → ¬(0x30 ≤ b.toNat ∧ b.toNat ≤ 0x39)) → (splitLine (ds ++ rest)).1.xDigits = ds)

/-- R91 to R93, R110, R134. How the decoder cuts any text record, whether or not it keeps the format: exactly when the bytes are the prefix, the
line's fields in order and the bytes left over, each number field is all the digits that stand there, the colour is the six bytes that
stand there, and only the end of the datagram cuts a field off. (D8, D10; that a line that does not keep the format is a record too:
notes/assumptions/13.md.) -/
def Obligations.TextLineFields : Prop :=
  ∀ (bytes rest : List Byte) (t : TextLine),
    decodeText bytes = .ok (.txtPx t, rest) ↔
      bytes = [0x50, 0x58, 0x20] ++ t.xDigits ++ t.sep1.toList ++ t.yDigits ++ t.sep2.toList ++ t.colour ++ t.term.toList ++ rest ∧
        CutAsFormat t rest

/-- R93, R141. A pair of hexadecimal characters, in either case, is the byte with the first as its high nibble; a pair with any other
character is the next draw, and the pairs after it take later draws. (Nibble order and the width of the draw: D11; the digits' values:
general knowledge; the numbering of draws: notes/assumptions/5.md.) -/
def Obligations.HexColourField : Prop :=
  (∀ n : Nat, n < 10 → hexValue (BitVec.ofNat 8 (0x30 + n)) = some (BitVec.ofNat 4 n)) ∧
  (∀ n : Nat, n < 6 → hexValue (BitVec.ofNat 8 (0x41 + n)) = some (BitVec.ofNat 4 (10 + n)) ∧
    hexValue (BitVec.ofNat 8 (0x61 + n)) = some (BitVec.ofNat 4 (10 + n))) ∧
  (∀ b : Byte, (hexValue b).isSome ↔
    (0x30 ≤ b.toNat ∧ b.toNat ≤ 0x39) ∨ (0x41 ≤ b.toNat ∧ b.toNat ≤ 0x46) ∨ (0x61 ≤ b.toNat ∧ b.toNat ≤ 0x66)) ∧
  (∀ (hi lo : Byte) (h l : BitVec 4) (d : Nat), hexValue hi = some h → hexValue lo = some l →
    (hexPair hi lo d).1.toNat = 16 * h.toNat + l.toNat ∧ (hexPair hi lo d).2 = d) ∧
  (∀ (hi lo : Byte) (d : Nat), hexValue hi = none ∨ hexValue lo = none → hexPair hi lo d = (Config.draw d, d + 1)) ∧
  (∀ (c0 c1 c2 c3 c4 c5 : Byte) (d : Nat), ∃ c d', textColour [c0, c1, c2, c3, c4, c5] d = some (c, d') ∧
    c.r = (hexPair c0 c1 d).1 ∧ c.g = (hexPair c2 c3 (hexPair c0 c1 d).2).1 ∧
    c.b = (hexPair c4 c5 (hexPair c2 c3 (hexPair c0 c1 d).2).2).1 ∧ d' = (hexPair c4 c5 (hexPair c2 c3 (hexPair c0 c1 d).2).2).2)

/-- R133 steps 7 to 9 (R139, R140). A text record that passes its tests up to the bounds and has six colour bytes writes its pixel, exactly
one cell; then a line feed moves the cursor past it, and anything else ends the datagram. (D7, D8, D9. That a stop leaves the cursor at
the record, where R133 has moved it past the colour, is the model's choice for a register that R253 calls dead:
notes/assumptions/12.md.) -/
def Obligations.TextRecordWritesItsPixel : Prop :=
  ∀ (t : TextLine) (c : Rgb) (d : Nat) (s : State), s.canParse = true →
    t.xDigits ≠ [] → t.sep1 = some 0x20 → t.yDigits ≠ [] → t.sep2 = some 0x20 →
    decimalValue t.xDigits < s.fbW → decimalValue t.yDigits < s.fbH → textColour t.colour s.draws = some (c, d) →
    ∃ u, exec (.txtPx t) s = .next u ∧
      StoresOnly s u (s.cellIndex (decimalValue t.xDigits) (decimalValue t.yDigits)) (s.gamma (Config.rgbToGray c.r c.g c.b)) ∧
      (t.term = some 0x0A →
        u = { s with pp := u.pp, draws := d, pd := { s.pd with pos := s.pd.pos + 3 + t.bytes.length } }) ∧
      (t.term ≠ some 0x0A → u = { s with pp := u.pp, draws := d, host := .idle, report := ⟨.none, some .noTerminator⟩ })

/-- R133 steps 2 to 7 (R135 to R138). A text record that fails a test before its write ends the datagram with the cause of the first test
that fails, and writes nothing. (D7, D8, D10; the labels D32. That a stop leaves the cursor at the record, where R133 has moved it past
the fields read, is the model's choice for a register that R253 calls dead: notes/assumptions/12.md.) -/
def Obligations.TextRecordStopsBeforeWriting : Prop :=
  ∀ (t : TextLine) (s : State), s.canParse = true →
    (t.xDigits = [] → exec (.txtPx t) s = .next { s with host := .idle, report := ⟨.none, some .badNumber⟩ }) ∧
    (t.xDigits ≠ [] → t.sep1 ≠ some 0x20 →
      exec (.txtPx t) s = .next { s with host := .idle, report := ⟨.none, some .badSeparator⟩ }) ∧
    (t.xDigits ≠ [] → t.sep1 = some 0x20 → t.yDigits = [] →
      exec (.txtPx t) s = .next { s with host := .idle, report := ⟨.none, some .badNumber⟩ }) ∧
    (t.xDigits ≠ [] → t.sep1 = some 0x20 → t.yDigits ≠ [] → t.sep2 ≠ some 0x20 →
      exec (.txtPx t) s = .next { s with host := .idle, report := ⟨.none, some .badSeparator⟩ }) ∧
    (t.xDigits ≠ [] → t.sep1 = some 0x20 → t.yDigits ≠ [] → t.sep2 = some 0x20 →
      s.fbW ≤ decimalValue t.xDigits ∨ s.fbH ≤ decimalValue t.yDigits →
      exec (.txtPx t) s = .next { s with host := .idle, report := ⟨.none, some .outOfBounds⟩ }) ∧
    (t.xDigits ≠ [] → t.sep1 = some 0x20 → t.yDigits ≠ [] → t.sep2 = some 0x20 →
      decimalValue t.xDigits < s.fbW → decimalValue t.yDigits < s.fbH → t.colour.length < 6 →
      exec (.txtPx t) s = .next { s with host := .idle, report := ⟨.none, some .shortColour⟩ })

/-- R143 tail, R147 to R153. A binary record of any of the seven layouts, its coordinate on the panel, writes exactly one cell, that of its
coordinate, with the gamma-corrected grey of its colour, and moves the cursor by its record size; nothing else changes. (D13 to D17.) -/
def Obligations.BinaryRecordWritesItsPixel : Prop :=
  ∀ (i : Instr) (l : Layout) (s : State), recordLayout i = some l → s.canParse = true → OnPanel s i →
    ∃ t, exec i s = .next t ∧
      StoresOnly s t (s.cellIndex (recordCoords i).1 (recordCoords i).2)
        (s.gamma (Config.rgbToGray (binaryColour i).r (binaryColour i).g (binaryColour i).b)) ∧
      t = { s with pp := t.pp, pd := { s.pd with pos := s.pd.pos + l.recordSize } }

/-- R146. A binary record whose x or y lies outside the panel ends the datagram and writes nothing. (The half-open bounds: D7.) -/
def Obligations.BinaryRecordOutsideStops : Prop :=
  ∀ (i : Instr) (l : Layout) (s : State), recordLayout i = some l → s.canParse = true →
    s.fbW ≤ (recordCoords i).1 ∨ s.fbH ≤ (recordCoords i).2 →
    exec i s = .next { s with host := .idle, report := ⟨.none, some .outOfBounds⟩ }

/-- R96, R97, R100, R101. The fields of one record of each layout, byte by byte: coordinates of 16 bits little-endian, or of 12 bits, the two
halves of a 24-bit little-endian word, x low; the bytes after the record are left over. (D13, D14, D16.) -/
def Obligations.BinaryRecordFields : Prop :=
  ∀ (col b0 b1 b2 b3 b4 b5 b6 b7 : Byte) (rest : List Byte),
    (∃ x y : BitVec 16, x.toNat = b0.toNat + 256 * b1.toNat ∧ y.toNat = b2.toNat + 256 * b3.toNat ∧
      decodeRecord col .bin0 (b0 :: b1 :: b2 :: b3 :: b4 :: b5 :: b6 :: rest) = .ok (.bin0 x y b4 b5 b6, rest) ∧
      decodeRecord col .bin0a (b0 :: b1 :: b2 :: b3 :: b4 :: b5 :: b6 :: b7 :: rest) = .ok (.bin0a x y b4 b5 b6 b7, rest)) ∧
    (∃ x y : BitVec 12, x.toNat = b0.toNat + 256 * (b1 &&& 0x0F).toNat ∧ y.toNat = (b1 >>> 4).toNat + 16 * b2.toNat ∧
      x.toNat = (b0.toNat + 256 * b1.toNat + 65536 * b2.toNat) % 4096 ∧
      y.toNat = (b0.toNat + 256 * b1.toNat + 65536 * b2.toNat) / 4096 ∧
      decodeRecord col .bin1 (b0 :: b1 :: b2 :: b3 :: b4 :: b5 :: rest) = .ok (.bin1 x y b3 b4 b5, rest) ∧
      decodeRecord col .bin1a (b0 :: b1 :: b2 :: b3 :: b4 :: b5 :: b6 :: rest) = .ok (.bin1a x y b3 b4 b5 b6, rest) ∧
      decodeRecord col .bin2 (b0 :: b1 :: b2 :: b3 :: rest) = .ok (.bin2 x y b3, rest) ∧
      decodeRecord col .bin2a (b0 :: b1 :: b2 :: b3 :: rest) = .ok (.bin2a x y b3, rest) ∧
      decodeRecord col .bin3 (b0 :: b1 :: b2 :: rest) = .ok (.bin3 col x y, rest))

/-- R102, R103. The colour byte's fields, each at the top of its channel, the low bits zero. (D15.) -/
def Obligations.ColourByteExpansion : Prop :=
  ∀ c : Byte,
    (expand332 c).r.toNat = c.toNat / 32 * 32 ∧ (expand332 c).g.toNat = c.toNat / 4 % 8 * 32 ∧
    (expand332 c).b.toNat = c.toNat % 4 * 64 ∧
    (expand2222 c).r.toNat = c.toNat / 64 * 64 ∧ (expand2222 c).g.toNat = c.toNat / 16 % 4 * 64 ∧
    (expand2222 c).b.toNat = c.toNat / 4 % 4 * 64

/-- R154. A binary datagram with a format byte above 3 writes nothing, whatever follows its header. -/
def Obligations.UnknownFormatDrawsNothing : Prop :=
  ∀ (fmt flags : Byte) (rest : List Byte) (s : State), s.canParse = true → 3 < fmt.toNat →
    ∃ t, exec (.pdRxbin (fmt :: flags :: rest)) s = .next t ∧
      t = { s with pd := t.pd, host := .idle, report := ⟨.none, some .unknownFormat⟩ }

/-- R106 (c), R143. A binary datagram too short for its header writes nothing. (D12.) -/
def Obligations.ShortHeaderDrawsNothing : Prop :=
  ∀ (bytes : List Byte) (s : State), s.canParse = true → bytes.length < 2 ∨ bytes.length = 2 ∧ bytes.head? = some 3 →
    ∃ t, exec (.pdRxbin bytes) s = .next t ∧ t = { s with pd := t.pd, host := .idle, report := ⟨.none, some .shortHeader⟩ }

/-- R145. While a binary datagram is parsed: with fewer bytes than one record left, none included, parsing ends and the left-over bytes do
nothing; with that many left, the record is decoded and executed. -/
def Obligations.BinaryRecordNeedsItsBytes : Prop :=
  ∀ (s u : State) (g : Grain) (bytes : List Byte), HostGoes s g u → s.host = .parsing .binary bytes →
    (s.pd.len - s.pd.pos < s.pd.recSize →
      step s = .next { u with host := .idle, report := ⟨.none, some .endOfData⟩ }) ∧
    ∀ l, layoutOf s.pd.fmt s.pd.alpha = some l → s.pd.recSize = l.recordSize → s.pd.len = bytes.length →
      s.pd.recSize ≤ s.pd.len - s.pd.pos →
      ∃ i rest, decodeRecord s.pd.col l (bytes.drop s.pd.pos) = .ok (i, rest) ∧ step s = exec i u

/-- R134. While a text datagram is parsed: bytes at the cursor that are not exactly `P`, `X` and a space end it, whatever stands after them, and
the records already processed keep their effect; the three bytes begin a record, the one that the decoder reads there, which is
executed. -/
def Obligations.TextPrefixTest : Prop :=
  ∀ (s u : State) (g : Grain) (bytes : List Byte), HostGoes s g u → s.host = .parsing .text bytes → s.pd.len = bytes.length →
    s.pd.pos < s.pd.len →
    ((bytes.drop s.pd.pos).take 3 ≠ [0x50, 0x58, 0x20] →
      step s = .next { u with host := .idle, report := ⟨.none, some .badPrefix⟩ }) ∧
    ((bytes.drop s.pd.pos).take 3 = [0x50, 0x58, 0x20] →
      ∃ (line : TextLine) (rest : List Byte), decodeText (bytes.drop s.pd.pos) = .ok (.txtPx line, rest) ∧
        bytes.drop s.pd.pos = [0x50, 0x58, 0x20] ++ line.bytes ++ rest ∧ step s = exec (.txtPx line) u)

/-- R132, R143, R156, R62. Any bytes at all, on either channel: the operation ends, with one of the causes 0 to 8, never with a fault, and
only the PixelPlane, the parser's dead registers and the count of draws have changed. (Never reading past the end: D33.) -/
def Obligations.EveryDatagramEnds : Prop :=
  ∀ (bytes : List Byte) (s : State), s.canParse = true → ∀ i, i = .pdRxtext bytes ∨ i = .pdRxbin bytes →
    ∃ t c, exec i s = .next t ∧ t.report = ⟨.none, some c⟩ ∧ c.number ≤ 8 ∧
      (∀ a, s.cells ≤ a → SameCell s t a) ∧
      t = { s with pp := t.pp, pd := t.pd, draws := t.draws, host := .idle, report := t.report }

/-- R29, R156. What a datagram does depends on no parser register as an earlier datagram left it: begun with any other contents of them, it ends
in the same state but for those dead registers. (D33.) -/
def Obligations.DatagramForgetsParserState : Prop :=
  ∀ (bytes : List Byte) (s : State) (pd : PdRegs), s.canParse = true → ∀ i, i = .pdRxtext bytes ∨ i = .pdRxbin bytes →
    ∃ t u, exec i s = .next t ∧ exec i { s with pd := pd } = .next u ∧ u = { t with pd := u.pd }

/-- R132, R134. A text datagram of whole records in the printed format, all on the panel, and bytes after them that do not begin with the
prefix, runs as its records one after another; it ends with END_OF_DATA where nothing is left and with BAD_PREFIX otherwise. -/
def Obligations.TextDatagramRunsItsRecords : Prop :=
  ∀ (is : List Instr) (tail : List Byte) (s : State), s.canParse = true →
    (∀ i ∈ is, i.source = .text ∧ i.wellFormed = true ∧ OnPanel s i) → tail.take 3 ≠ textPrefix →
    exec (.pdRxtext (is.flatMap encode ++ tail)) s =
      andThen (beginText (is.flatMap encode ++ tail) s) fun u =>
        andThen (execAll is u) fun v => .next (v.stopDatagram (if tail = [] then .endOfData else .badPrefix))

/-- R143, R145. A binary datagram whose header selects a layout, with records of that layout, all on the panel, and fewer bytes after them
than one more record needs, runs as its records one after another and ends with END_OF_DATA. -/
def Obligations.BinaryDatagramRunsItsRecords : Prop :=
  ∀ (fmt flags col : Byte) (l : Layout) (is : List Instr) (tail : List Byte) (s : State), s.canParse = true →
    layoutOf fmt (alphaBit flags) = some l →
    (∀ i ∈ is, recordLayout i = some l ∧ OnPanel s i ∧ ∀ c, sharedColour i = some c → c = col) →
    tail.length < l.recordSize →
    ∀ bytes, bytes = fmt :: flags :: ((if l = .bin3 then [col] else []) ++ is.flatMap (fun i => (encode i).drop l.firstOffset) ++ tail) →
      exec (.pdRxbin bytes) s =
        andThen (beginBinary bytes s) fun u => andThen (execAll is u) fun v => .next (v.stopDatagram .endOfData)

/-- R132 to R140. A text datagram in which, after whole records in the printed format on the panel, a record stands that does not keep the format
or lies off the panel: the earlier records are executed, then that one, whose stop ends the datagram; no later record
is executed. One that keeps the format and lies off the panel writes nothing. (D7 to D10. That the stop leaves the cursor at that
record, where R133 has moved it past both separators, is the model's choice for a register that R253 calls dead:
notes/assumptions/12.md.) -/
def Obligations.TextDatagramEndsAtBadRecord : Prop :=
  ∀ (is : List Instr) (i : Instr) (bad rest : List Byte) (s : State), s.canParse = true →
    (∀ j ∈ is, j.source = .text ∧ j.wellFormed = true ∧ OnPanel s j) →
    decodeText bad = .ok (i, rest) → ¬(i.wellFormed = true ∧ OnPanel s i) →
    ∃ u v t, beginText (is.flatMap encode ++ bad) s = .next u ∧ execAll is u = .next v ∧ exec i v = .next t ∧
      exec (.pdRxtext (is.flatMap encode ++ bad)) s = .next t ∧ t.host = .idle ∧
      (i.wellFormed = true → t = { v with host := .idle, report := ⟨.none, some .outOfBounds⟩ })

/-- R143, R146. A binary datagram in which, after records on the panel, a record stands whose coordinate lies off it: the earlier records are
executed and keep their effect, that one writes nothing, and no record after it is executed. (D7, D17.) -/
def Obligations.BinaryDatagramEndsOutsidePanel : Prop :=
  ∀ (fmt flags col : Byte) (l : Layout) (is : List Instr) (i : Instr) (rest : List Byte) (s : State), s.canParse = true →
    layoutOf fmt (alphaBit flags) = some l →
    (∀ j ∈ is ++ [i], recordLayout j = some l ∧ ∀ c, sharedColour j = some c → c = col) →
    (∀ j ∈ is, OnPanel s j) → ¬ OnPanel s i →
    ∀ bytes, bytes = fmt :: flags ::
        ((if l = .bin3 then [col] else []) ++ (is ++ [i]).flatMap (fun j => (encode j).drop l.firstOffset) ++ rest) →
      ∃ u v, beginBinary bytes s = .next u ∧ execAll is u = .next v ∧
        exec (.pdRxbin bytes) s = .next { v with host := .idle, report := ⟨.none, some .outOfBounds⟩ }

/-! ## SE -/

/-- R201, R202. SE_INIT: refused when SE is initialised or FB is not; otherwise the mode, one draw for each accumulator, PHASE and FRAMECNT
0, disabled, all six pins 0, and nothing else. (D20, D29, D30.) -/
def Obligations.SeInitSeedsAndBlanks : Prop :=
  ∀ (m : Mode) (s : State),
    (s.seReady = true → exec (.seInit m) s = .refused .seAlreadyReady) ∧
    (s.seReady = false → s.fbReady = false → exec (.seInit m) s = .refused .fbNotReady) ∧
    (s.seReady = false → s.fbReady = true → ∃ t, exec (.seInit m) s = .next t ∧
      t.acc.length = s.fbW * s.fbH ∧ (∀ a, a < s.fbW * s.fbH → t.acc[a]? = some (Config.draw (s.draws + a))) ∧
      t = { s with
        mode := m, acc := t.acc, phase := 0, frameCnt := 0, en := false, pins := ⟨false, 0, false, false, false, false⟩, seReady := true,
        draws := s.draws + s.fbW * s.fbH, host := .idle, report := Report.done })

/-- R220. SE_ENABLE between phase steps: no event and no change when enabled; otherwise POWER(1), ATTACH, EN. (D26.) -/
def Obligations.SeEnablePowersAndAttaches : Prop :=
  ∀ s : State,
    (s.seReady = false → exec .seEnable s = .refused .seNotReady) ∧
    (s.seReady = true → s.en = true → exec .seEnable s = .next { s with host := .idle, report := Report.done }) ∧
    (s.seReady = true → s.en = false → s.tick = none →
      exec .seEnable s = .next { s with
        trace := s.trace ++ [.power true, .attach], pins := { s.pins with colPwr := true }, en := true,
        host := .idle, report := Report.done })

/-- R221, R254. SE_DISABLE: BLANK, DETACH, POWER(0), in that order; no row is driven, the column driver is off. A phase step in progress
completes first, as TIMER alone would complete it. (The order of DETACH and POWER: D26; the completion: D27.) -/
def Obligations.SeDisableBlanksFirst : Prop :=
  ∀ s : State,
    (s.seReady = false → exec .seDisable s = .refused .seNotReady) ∧
    (s.seReady = true → s.tick = none →
      exec .seDisable s = .next { s with
        trace := s.trace ++ [.blank, .detach, .power false], pins := { s.pins with rowEn := false, colPwr := false }, en := false,
        host := .idle, report := Report.done }) ∧
    (s.seReady = true → ∀ todo, s.tick = some todo →
      exec .seDisable s = andThen (scanActions (todo.length + 1) s) (exec .seDisable))

/-- R210 to R216, R40, R45. SE_TICK: refused unless SE is initialised and enabled; otherwise exactly BLANK, one SHIFT for each cell of the current
phase in order, LATCH, SELECT(PHASE), and FRAME on the wrap; PHASE advances, FRAMECNT after FRAME; in DITHERED mode each accumulator
read keeps its remainder, in BINARY mode none changes; each of the six pins holds what the last of these events that writes it left there,
a pulse leaving 0; nothing else changes. (The pins and events: D3; order of the bits and one LATCH: D23; SELECT's number: D24;
FRAME's number: D25.) -/
def Obligations.SeTickRunsOnePhaseStep : Prop :=
  ∀ s : State,
    (¬(s.seReady = true ∧ s.en = true) → exec .seTick s = .refused .timerNotAttached) ∧
    (s.CanTick → ∃ t, exec .seTick s = .next t ∧
      t.trace = s.trace ++ ([.blank] ++ s.currentCells.map (fun a => Event.shift (s.bitOf a)) ++ [.latch, .select s.phase] ++
        if s.phase = 3 then [.frame s.frameCnt] else []) ∧
      t.phase = s.phase + 1 ∧ t.frameCnt = (if s.phase = 3 then s.frameCnt + 1 else s.frameCnt) ∧
      (s.mode = .binary → t.acc = s.acc) ∧ t.acc.length = s.acc.length ∧
      (∀ a, a ∉ s.currentCells → t.acc[a]? = s.acc[a]?) ∧
      (s.mode = .dithered → ∀ a ∈ s.currentCells, ∃ v, s.acc[a]? = some v ∧ t.acc[a]? = some (ditherRest v (s.readCell a))) ∧
      t.pins.rowEn = true ∧ t.pins.rowSel = s.phase ∧ t.pins.colLatch = false ∧ t.pins.colPwr = s.pins.colPwr ∧
      (∀ a, s.currentCells.getLast? = some a → t.pins.colData = s.bitOf a ∧ t.pins.colClk = false) ∧
      (s.currentCells = [] → t.pins.colData = s.pins.colData ∧ t.pins.colClk = s.pins.colClk) ∧
      t = { s with trace := t.trace, phase := t.phase, frameCnt := t.frameCnt, acc := t.acc, pins := t.pins })

/-- R213, R214. The shifted-out bit: in BINARY mode whether the intensity is not 0; in DITHERED mode the carry out of the 8-bit sum, whose
low 8 bits the accumulator keeps. -/
def Obligations.ShiftedBitArithmetic : Prop :=
  ∀ a i : Byte,
    (binaryBit i = true ↔ 1 ≤ i.toNat) ∧ (ditherBit a i = true ↔ 256 ≤ a.toNat + i.toNat) ∧
    (ditherRest a i).toNat = (a.toNat + i.toNat) % 256

/-- R203. The rows of a phase: exactly those below H that are p mod 4, strictly increasing, (H - p + 3) div 4 of them, or none. -/
def Obligations.RowsOfPhase : Prop :=
  ∀ p h : Nat, p < 4 →
    (∀ r, r ∈ rowsOf p h ↔ r < h ∧ r % 4 = p) ∧ (rowsOf p h).Pairwise (· < ·) ∧
    (rowsOf p h).length = if p < h then (h - p + 3) / 4 else 0

/-- R212. The four phases read every cell of the plane exactly once, and each reads W cells a row, rows and columns ascending. (D23.) -/
def Obligations.EveryCellReadOncePerCycle : Prop :=
  ∀ w h : Nat,
    ((List.range 4).flatMap (phaseCells w h)).Perm (List.range (w * h)) ∧
    ∀ p, (phaseCells w h p).Pairwise (· < ·) ∧ (phaseCells w h p).length = w * (rowsOf p h).length

/-- R217, R218. Over any run of scans the lit bits are the sum of accumulator and intensities div 256, the accumulator after it mod 256;
for a constant intensity I, any 256 scans light exactly I bits, N scans come within one bit of N * I / 256, the lit fraction tends to
I / 256, and two consecutive lit scans are floor(256 / I) or ceil(256 / I) apart; for 128 the bits alternate. (The spec derives
all of it from R214; I / 256 where the source says I / 255: D39.) -/
def Obligations.DitherDutyCycle : Prop :=
  (∀ (a : Byte) (is : List Byte),
    (scans a is).1.count true = (a.toNat + (is.map BitVec.toNat).sum) / 256 ∧
    (scans a is).2.toNat = (a.toNat + (is.map BitVec.toNat).sum) % 256) ∧
  (∀ a i : Byte, (scans a (List.replicate 256 i)).1.count true = i.toNat) ∧
  (∀ (a i : Byte) (n : Nat), ((scans a (List.replicate n i)).1.count true * 256 : Int) - n * i.toNat < 256 ∧
    -256 < ((scans a (List.replicate n i)).1.count true * 256 : Int) - n * i.toNat) ∧
  (∀ a i : Byte, Filter.Tendsto (fun n : ℕ => ((scans a (List.replicate n i)).1.count true : ℝ) / n) Filter.atTop
    (nhds ((i.toNat : ℝ) / 256))) ∧
  (∀ (a i : Byte) (n j k : Nat), 1 ≤ i.toNat → j < k → (scans a (List.replicate n i)).1[j]? = some true →
    (scans a (List.replicate n i)).1[k]? = some true → (∀ m, j < m → m < k → (scans a (List.replicate n i)).1[m]? = some false) →
    k - j = 256 / i.toNat ∨ k - j = (256 + i.toNat - 1) / i.toNat) ∧
  (∀ (a : Byte) (n j : Nat) (b c : Bool), (scans a (List.replicate n 128)).1[j]? = some b →
    (scans a (List.replicate n 128)).1[j + 1]? = some c → c = !b)

/-- R216 (and the source's property E7). Four consecutive ticks bring PHASE back, report exactly one frame boundary, with the number that
FRAMECNT held, and add 1 to it. (D25.) -/
def Obligations.FourTicksOneFrame : Prop :=
  ∀ s : State, s.CanTick → ∃ t, execAll [.seTick, .seTick, .seTick, .seTick] s = .next t ∧
    t.phase = s.phase ∧ t.frameCnt = s.frameCnt + 1 ∧ frameNumbers t.trace = frameNumbers s.trace ++ [s.frameCnt] ∧ t.CanTick

/-- R266. After a tick the reference panel shows the phase: an LED is lit exactly when its row belongs to the phase and its bit is 1. While a
phase step is in progress, and while the engine is disabled, no LED is lit. (The panel is the spec's own, D3 and D23; its empty chain and latch at the start are the model's, notes/assumptions/15.md;
the invariant says that the pins are 0 before SE_INIT, notes/assumptions/1.md.) -/
def Obligations.PanelShowsThePhase : Prop :=
  (∀ s t : State, s.Inv → s.CanTick → exec .seTick s = .next t →
    ∀ r c, r < s.fbH → c < s.fbW →
      (panelOf t.trace).lit s.fbW r c = (decide (r % 4 = s.phase.toNat) && s.bitOf (r * s.fbW + c))) ∧
  (∀ s : State, s.Inv → s.tick ≠ none ∨ s.en = false → ∀ w r c, (panelOf s.trace).lit w r c = false)

/-! ## The whole machine -/

/-- R247. What the spec refuses for want of an initialisation. (D20.) -/
def Obligations.UninitialisedOperationsRefused : Prop :=
  ∀ s : State,
    (s.fbReady = false → ∀ (h v : Bool) (x y : Int) (k : Byte) (text : List Byte),
      exec (.fbOrient h v) s = .refused .fbNotReady ∧ exec .fbClear s = .refused .fbNotReady ∧
      exec (.fbWrite x y k) s = .refused .fbNotReady ∧ exec (.fbText text x y k) s = .refused .fbNotReady) ∧
    (s.pdReady = false ∨ s.fbReady = false → ∀ (bytes : List Byte) (i : Instr),
      exec (.pdRxtext bytes) s = .refused .pdNotReady ∧ exec (.pdRxbin bytes) s = .refused .pdNotReady ∧
      (i.source ≠ .command → exec i s = .refused .pdNotReady)) ∧
    (s.seReady = false → exec .seEnable s = .refused .seNotReady ∧ exec .seDisable s = .refused .seNotReady)

/-- R22, R25, R31. Once FB_INIT has completed no operation changes the dimensions or the gamma table, and FB stays initialised; once SE_INIT
has completed no operation changes the mode, and SE stays initialised; PD's ports likewise. -/
def Obligations.InitialisedOnce : Prop :=
  ∀ (i : Instr) (s t : State), exec i s = .next t →
    (s.fbReady = true → t.fbReady = true ∧ t.fbW = s.fbW ∧ t.fbH = s.fbH ∧ t.gt = s.gt) ∧
    (s.seReady = true → t.seReady = true ∧ t.mode = s.mode ∧ t.acc.length = s.acc.length) ∧
    (s.pdReady = true → t.pdReady = true ∧ t.textPort = s.textPort ∧ t.binPort = s.binPort)

/-- R26, R256. The PixelPlane is written by FB_WRITE, FB_CLEAR, FB_TEXT and the parser only. -/
def Obligations.PlaneHasOneOwner : Prop :=
  ∀ (i : Instr) (s t : State), exec i s = .next t →
    (match i with
      | .fbInit _ _ _ | .fbOrient _ _ | .pdInit _ _ | .seInit _ | .seEnable | .seDisable | .seTick => True
      | _ => False) →
    t.pp = s.pp

/-- R35, R200, R256. No operation of FB or PD changes anything of SE: no accumulator, no phase, no pin, no event. -/
def Obligations.EngineHasOneOwner : Prop :=
  ∀ (i : Instr) (s t : State), exec i s = .next t →
    (match i with
      | .seInit _ | .seEnable | .seDisable | .seTick => False
      | _ => True) →
    SameEngine s t

/-- R224, R252. A step that TIMER takes, whole or in part, changes nothing of FB, PD, the PixelPlane or what HOST is doing. -/
def Obligations.TimerLeavesHostAlone : Prop :=
  ∀ (s t : State) (g : Grain) (ts : List Turn), s.sched = ⟨.timer, g⟩ :: ts → step s = .next t →
    SameFramebuffer s t ∧ SamePorts s t ∧ t.pp = s.pp ∧ t.pd = s.pd ∧ t.host = s.host ∧ t.inbox = s.inbox ∧ t.draws = s.draws ∧
    t.report = s.report ∧ t.sched = ts ∧ t.mode = s.mode ∧ t.en = s.en ∧ t.seReady = s.seReady

/-- R40, R45, R65, R66, R70, R213, R214. HOST's store to a cell and TIMER's read of it, in either order: the read returns the new byte after the store and
the old one before it, nothing between, and the plane ends the same. The bit shifted out, and in DITHERED mode the accumulator, come
from the byte read; COL_DATA holds that bit after it and COL_CLK 0. (The pins D3; D27, D28.) -/
def Obligations.StoreRacesScan : Prop :=
  ∀ (s : State) (a : Nat) (v : Byte) (cs : List Host.Cell) (r : Report) (as : List Nat) (g h : Grain) (ts : List Turn),
    s.host = .storing ((a, v) :: cs) r → s.tick = some (a :: as) → a < s.cells →
    ∀ read, (s.sched = ⟨.host, g⟩ :: ⟨.timer, h⟩ :: ts ∧ read = v) ∨
        (s.sched = ⟨.timer, h⟩ :: ⟨.host, g⟩ :: ts ∧ read = s.readCell a) →
      (s.mode = .binary → ∃ t u, step s = .next t ∧ step t = .next u ∧
        u = { s with
          pp := s.pp.write a v, host := .storing cs r, tick := some as, sched := ts
          pins := { s.pins with colData := binaryBit read, colClk := false }, trace := s.trace ++ [.shift (binaryBit read)] }) ∧
      (s.mode = .dithered → ∀ x, s.acc[a]? = some x → ∃ t u, step s = .next t ∧ step t = .next u ∧
        u = { s with
          pp := s.pp.write a v, host := .storing cs r, tick := some as, sched := ts
          pins := { s.pins with colData := ditherBit x read, colClk := false }
          trace := s.trace ++ [.shift (ditherBit x read)], acc := s.acc.set a (ditherRest x read) })

/-- R70, R132, R143, R175, R182. FB_CLEAR, FB_TEXT, PD_RXTEXT and PD_RXBIN begun and then carried on access by access, or record by record, by
HOST's turns with no turn of TIMER between, do what the whole operation does; the turns of HOST are taken off the schedule. -/
def Obligations.SplitOperationsEqualWhole : Prop :=
  (∀ (i : Instr) (s t : State), (i = .fbClear ∨ ∃ text x y k, i = .fbText text x y k) → beginSplit i s = some (.next t) →
    ∃ n, storeActions n t = exec i s) ∧
  ∀ (i : Instr) (s t : State) (g : Grain), beginSplit i s = some (.next t) →
    ∃ n, steps n { t with sched := List.replicate n ⟨.host, g⟩ ++ s.sched } = exec i s

/-- R70, R210. A tick begun and then carried on cell by cell, with no action of HOST between, does what SE_TICK does; so do the steps of a
schedule whose first turn begins it and whose next turns are TIMER's, one for each cell and one for the end. -/
def Obligations.SplitTickEqualsWhole : Prop :=
  (∀ s t : State, beginTick s = .next t → ∃ n, scanActions n t = exec .seTick s) ∧
  ∀ (s : State) (g : Grain) (ts : List Turn), s.CanTick →
    steps (s.currentCells.length + 2)
        { s with sched := ⟨.timer, .split⟩ :: (List.replicate (s.currentCells.length + 1) ⟨.timer, g⟩ ++ ts) } =
      exec .seTick { s with sched := ts }

/-- A step executes what stands next (R50, R73, R90, R107, R110), whether its turn is scheduled or HOST goes on without one: HOST's next command
word, to its end where the turn is whole or the operation makes at most one plane access; the record at the cursor of the datagram
being parsed; SE_TICK on TIMER's turn. -/
def Obligations.StepRunsWhatStandsNext : Prop :=
  (∀ (s u : State) (g : Grain) (w : List Byte) (ws : List (List Byte)) (i : Instr), HostGoes s g u → s.host = .idle → s.inbox = w :: ws →
    decodeCommand w = .ok i → i ≠ .seTick → g = .whole ∨ beginSplit i { u with inbox := ws } = none →
    step s = exec i { u with inbox := ws }) ∧
  (∀ (s u : State) (g : Grain) (bytes rest : List Byte) (i : Instr), HostGoes s g u → s.host = .parsing .text bytes →
    s.pd.pos < s.pd.len → decodeText ((bytes.take s.pd.len).drop s.pd.pos) = .ok (i, rest) → step s = exec i u) ∧
  (∀ (s u : State) (g : Grain) (bytes rest : List Byte) (l : Layout) (i : Instr), HostGoes s g u → s.host = .parsing .binary bytes →
    s.pd.recSize ≤ s.pd.len - s.pd.pos → layoutOf s.pd.fmt s.pd.alpha = some l →
    decodeRecord s.pd.col l (bytes.drop s.pd.pos) = .ok (i, rest) → step s = exec i u) ∧
  (∀ s u : State, TimerGoes s .whole u → s.tick = none → step s = exec .seTick u)

/-- R40, R45, R70, R210, R213 to R216. What a turn does that is taken in part. HOST begins FB_CLEAR, FB_TEXT or a datagram with no plane access, or makes the next store of
an operation in progress, or ends it. TIMER begins a phase step with BLANK and no read, or reads the next cell, or ends the step with LATCH,
SELECT and, on the wrap of PHASE, FRAME; the pins hold what these events leave there. (D3, D23 to D25.) -/
def Obligations.TurnsTakenInPart : Prop :=
  (∀ (s u : State) (w : List Byte) (ws : List (List Byte)) (i : Instr) (o : Out), HostGoes s .split u → s.host = .idle →
    s.inbox = w :: ws → decodeCommand w = .ok i → beginSplit i { u with inbox := ws } = some o →
    step s = o ∧ ∀ t, o = .next t → t = { u with inbox := ws, host := t.host, pd := t.pd, report := t.report }) ∧
  (∀ (i : Instr) (s : State), beginSplit i s ≠ none ↔
    i = .fbClear ∨ (∃ text x y k, i = .fbText text x y k) ∨ (∃ bytes, i = .pdRxtext bytes) ∨ ∃ bytes, i = .pdRxbin bytes) ∧
  (∀ (s u : State) (g : Grain) (r : Report), HostGoes s g u →
    (s.host = .storing [] r → step s = .next { u with host := .idle, report := r }) ∧
    ∀ c cs, s.host = .storing (c :: cs) r → c.1 < s.cells →
      step s = .next { u with pp := s.pp.write c.1 c.2, host := .storing cs r }) ∧
  (∀ s u : State, TimerGoes s .split u → s.tick = none →
    (¬(s.seReady = true ∧ s.en = true) → step s = .refused .timerNotAttached) ∧
    (s.CanTick → step s = .next { u with
      trace := s.trace ++ [.blank], pins := { s.pins with rowEn := false }, tick := some s.currentCells })) ∧
  (∀ (s u : State) (g : Grain), TimerGoes s g u →
    (s.tick = some [] → step s = .next { u with
      trace := s.trace ++ ([.latch, .select s.phase] ++ if s.phase = 3 then [.frame s.frameCnt] else [])
      pins := { s.pins with colLatch := false, rowSel := s.phase, rowEn := true }, tick := none, phase := s.phase + 1
      frameCnt := if s.phase = 3 then s.frameCnt + 1 else s.frameCnt }) ∧
    ∀ a as, s.tick = some (a :: as) → a < s.cells → (s.mode = .dithered → a < s.acc.length) → ∃ t, step s = .next t ∧
      t = { u with
        trace := s.trace ++ [.shift (s.bitOf a)], pins := { s.pins with colData := s.bitOf a, colClk := false }, acc := t.acc
        tick := some as } ∧
      (s.mode = .binary → t.acc = s.acc) ∧
      (s.mode = .dithered → t.acc = s.acc.set a (ditherRest (s.acc.getD a 0) (s.readCell a))))

/-- HOST with nothing to do changes nothing (R157 calls a poll without a datagram no operation; that it is a step which changes nothing is the
model's choice, notes/assumptions/10.md). A reserved opcode has no step (R106 (i), decision D2). An SE_TICK from HOST has none (R107 says
that HOST never issues it; the refusal is the model's, notes/assumptions/9.md). -/
def Obligations.HostPollsAndRefuses : Prop :=
  ∀ (s u : State) (g : Grain), HostGoes s g u → s.host = .idle →
    (s.inbox = [] → step s = .next u) ∧
    (∀ (b : Byte) (bs : List Byte) (ws : List (List Byte)), s.inbox = (b :: bs) :: ws →
      b ∉ [0x01, 0x02, 0x03, 0x04, 0x05, 0x10, 0x11, 0x12, 0x20, 0x21, 0x22, 0x23] → step s = .refused .reservedOpcode) ∧
    (∀ ws, s.inbox = [0x23] :: ws → step s = .refused .tickFromHost)

/-- R281. What reset leaves: nothing initialised, disabled, PHASE and FRAMECNT 0, an empty trace, no cell written. (D30.) -/
def Obligations.ResetState : Prop :=
  State.reset.fbReady = false ∧ State.reset.pdReady = false ∧ State.reset.seReady = false ∧ State.reset.en = false ∧
  State.reset.phase = 0 ∧ State.reset.frameCnt = 0 ∧ State.reset.trace = [] ∧ ∀ a, State.reset.pp.read? a = none

/-- The invariant holds at reset. That it says the pins are 0 before SE_INIT rests on the model's choice of their reset value
(notes/assumptions/1.md), here and in the statements after it. -/
def Obligations.ResetMeetsInvariant : Prop := State.reset.Inv

/-- Every step keeps the invariant: the plane canonical and in range, the gamma table as R173 states, the order of initialisation of R285,
the pins a function of the trace (R45), the FRAME events numbered 0, 1, 2, ... (R216), no SHIFT or LATCH into a lit row (R211, R290),
power and blanking as R269 states, the parser inside its datagram (R28). -/
def Obligations.StepKeepsInvariant : Prop := ∀ s t : State, s.Inv → step s = .next t → t.Inv

/-- R61, R62. No step from a state that meets the invariant faults: no index outside the plane is formed, no byte outside the datagram
read. -/
def Obligations.InvariantExcludesFaults : Prop := ∀ (s : State) (f : Fault), s.Inv → step s ≠ .fault f

/-! ## Encodings -/

/-- R91 to R101. A wire record encoded and decoded again is that record, with nothing left over. -/
def Obligations.RecordsRoundTrip : Prop :=
  ∀ i : Instr, i.source ≠ .command → i.wellFormed = true → decode i.source (encode i) = .ok i

/-- R107. A command word encoded and decoded again is that command, for all operands. -/
def Obligations.CommandsRoundTrip : Prop := ∀ i : Instr, i.source = .command → decode .command (encode i) = .ok i

/-- R91, R95 to R101. The decoder drops no byte of a record: a text record is its bytes; a binary record, put back in its layout, is its
bytes. -/
def Obligations.DecodingDropsNothing : Prop :=
  (∀ (bs rest : List Byte) (i : Instr), decodeText bs = .ok (i, rest) → encode i ++ rest = bs) ∧
  (∀ (bs rest : List Byte) (col : Byte) (l : Layout) (i : Instr), decodeRecord col l bs = .ok (i, rest) →
    recordLayout i = some l ∧ (encode i).drop l.firstOffset ++ rest = bs ∧ bs.length = l.recordSize + rest.length)

/-- R95, R110. The header word selects the layout whose row matches it under the row's mask, and no two rows match one word. -/
def Obligations.HeaderWordSelectsLayout : Prop :=
  ∀ fmt flags : Byte, ∀ l : Layout, layoutOf fmt (alphaBit flags) = some l ↔
    (l, (fmt.toNat + 256 * flags.toNat) &&& 0x01FF) ∈
      [(Layout.bin0, 0x0000), (.bin0a, 0x0100), (.bin1, 0x0001), (.bin1a, 0x0101), (.bin2, 0x0002), (.bin2a, 0x0102)] ∨
    l = .bin3 ∧ (fmt.toNat + 256 * flags.toNat) &&& 0x00FF = 0x0003

/-- R91, R96 to R99, R107. A few words written out byte by byte decode to the operations they stand for (the bytes are those of the spec's
vectors T1, B1, B2, B5, B8, B9, B10, B11 and of its opcode table). -/
def Obligations.SampleWordsDecode : Prop :=
  decode .text [0x50, 0x58, 0x20, 0x31, 0x30, 0x20, 0x32, 0x30, 0x20, 0x46, 0x46, 0x30, 0x30, 0x30, 0x30, 0x0A] =
    .ok (.txtPx ⟨[0x31, 0x30], some 0x20, [0x32, 0x30], some 0x20, [0x46, 0x46, 0x30, 0x30, 0x30, 0x30], some 0x0A⟩) ∧
  decode .binary [0x00, 0x00, 0x0A, 0x00, 0x14, 0x00, 0xFF, 0x00, 0x00] = .ok (.bin0 10 20 255 0 0) ∧
  decode .binary [0x00, 0x01, 0x0A, 0x00, 0x14, 0x00, 0xFF, 0x00, 0x00, 0x80] = .ok (.bin0a 10 20 255 0 0 0x80) ∧
  decode .binary [0x01, 0x00, 0x0A, 0x40, 0x01, 0xFF, 0x00, 0x00] = .ok (.bin1 10 20 255 0 0) ∧
  decode .binary [0x01, 0x01, 0x0A, 0x40, 0x01, 0xFF, 0x00, 0x00, 0xFF] = .ok (.bin1a 10 20 255 0 0 0xFF) ∧
  decode .binary [0x02, 0x00, 0x0A, 0x40, 0x01, 0xE0] = .ok (.bin2 10 20 0xE0) ∧
  decode .binary [0x02, 0x01, 0x0A, 0x40, 0x01, 0xE7] = .ok (.bin2a 10 20 0xE7) ∧
  decode .binary [0x03, 0x00, 0xFF, 0x01, 0x20, 0x00] = .ok (.bin3 0xFF 1 2) ∧
  decode .command [0x03] = .ok .fbClear ∧ decode .command [0x21] = .ok .seEnable ∧ decode .command [0x22] = .ok .seDisable ∧
  decode .command [0x23] = .ok .seTick
end

