-- ==== Sys2Proof/Laws/Decode.lean ====
section
/-! SUPPORT. Each operand and each field read back as it was written, and what each reader takes off the front of the bytes. -/

namespace Sys2Proof

/-! ## Operands of command words -/

theorem takeNat_natBytesAux (fuel n : Nat) (h : n ≤ fuel) (rest : List Byte) :
    takeNat (natBytesAux fuel n ++ rest) = .ok (n, rest) := by
  induction fuel generalizing n with
  | zero =>
    obtain rfl : n = 0 := by omega
    rfl
  | succ fuel ih =>
    rw [natBytesAux]
    split
    · rename_i hn
      have : (BitVec.ofNat 8 n).toNat = n := by rw [BitVec.toNat_ofNat]; omega
      simp only [List.cons_append, List.nil_append, takeNat]
      rw [if_pos (by omega), this]
    · rename_i hn
      have : (BitVec.ofNat 8 (n % 128 + 128)).toNat = n % 128 + 128 := by rw [BitVec.toNat_ofNat]; omega
      simp only [List.cons_append, takeNat]
      rw [if_neg (by omega), ih (n / 128) (by omega), this]
      simp only [Except.ok.injEq, Prod.mk.injEq, and_true]
      omega

theorem takeNat_natBytes (n : Nat) (rest : List Byte) : takeNat (natBytes n ++ rest) = .ok (n, rest) :=
  takeNat_natBytesAux n n (Nat.le_refl n) rest

theorem takeBool_boolBytes (b : Bool) (rest : List Byte) : takeBool (boolBytes b ++ rest) = .ok (b, rest) := by
  cases b <;> rfl

theorem takeInt_intBytes (x : Int) (rest : List Byte) : takeInt (intBytes x ++ rest) = .ok (x, rest) := by
  cases x <;> simp [takeInt, intBytes, List.append_assoc, takeBool_boolBytes, takeNat_natBytes]

theorem takeRat_ratBytes (q : Rat) (rest : List Byte) : takeRat (ratBytes q ++ rest) = .ok (q, rest) := by
  have : q.den - 1 + 1 = q.den := Nat.succ_pred_eq_of_pos q.den_pos
  simp [takeRat, ratBytes, List.append_assoc, takeInt_intBytes, takeNat_natBytes, this, Rat.mkRat_self]

theorem takeExponent_exponentBytes (e : Exponent) (rest : List Byte) : takeExponent (exponentBytes e ++ rest) = .ok (e, rest) := by
  cases e <;>
    simp [takeExponent, exponentBytes, List.append_assoc, takeBool_boolBytes, takeRat_ratBytes, takeInt_intBytes, takeNat_natBytes]

theorem le16_le16Bytes (x : BitVec 16) : le16 (x.extractLsb' 0 8) (x.extractLsb' 8 8) = x := by
  unfold le16
  apply BitVec.eq_of_getLsbD_eq
  intro i hi
  simp only [BitVec.getLsbD_append, BitVec.getLsbD_extractLsb']
  split
  · simp [*]
  · have : i - 8 < 8 := by omega
    have e : 8 + (i - 8) = i := by omega
    simp [this, e]

theorem takePort_le16Bytes (x : Port) (rest : List Byte) : takePort (le16Bytes x ++ rest) = .ok (x, rest) := by
  simp [takePort, le16Bytes, le16_le16Bytes]

theorem takeBytes_listBytes (bs rest : List Byte) : takeBytes (listBytes bs ++ rest) = .ok (bs, rest) := by
  simp [takeBytes, listBytes, List.append_assoc, takeNat_natBytes]

/-! ## Fields of binary records -/

theorem packedX_packedBytes (x y : BitVec 12) :
    packedX (x.extractLsb' 0 8) (y.extractLsb' 0 4 ++ x.extractLsb' 8 4) = x := by
  unfold packedX
  apply BitVec.eq_of_getLsbD_eq
  intro i hi
  simp only [BitVec.getLsbD_append, BitVec.getLsbD_extractLsb']
  by_cases h : i < 8
  · simp [h]
  · have h1 : i - 8 < 4 := by omega
    have e : 8 + (i - 8) = i := by omega
    simp [h, h1, e]

theorem packedY_packedBytes (x y : BitVec 12) :
    packedY (y.extractLsb' 0 4 ++ x.extractLsb' 8 4) (y.extractLsb' 4 8) = y := by
  unfold packedY
  apply BitVec.eq_of_getLsbD_eq
  intro i hi
  simp only [BitVec.getLsbD_append, BitVec.getLsbD_extractLsb']
  by_cases h : i < 4
  · simp [h]
  · have h1 : i - 4 < 8 := by omega
    have e : 4 + (i - 4) = i := by omega
    simp [h, h1, e]

theorem append_low {m n : Nat} (x : BitVec m) (y : BitVec n) : BitVec.extractLsb' 0 n (x ++ y) = y := by
  apply BitVec.eq_of_getLsbD_eq
  intro i h
  simp only [BitVec.getLsbD_extractLsb', BitVec.getLsbD_append, Nat.zero_add, h, decide_true, Bool.true_and, if_true]

theorem append_high {m n : Nat} (x : BitVec m) (y : BitVec n) : BitVec.extractLsb' n m (x ++ y) = x := by
  apply BitVec.eq_of_getLsbD_eq
  intro i h
  have e : ¬ n + i < n := by omega
  simp only [BitVec.getLsbD_extractLsb', BitVec.getLsbD_append, h, decide_true, Bool.true_and, e, if_false, Nat.add_sub_cancel_left]

/-- A 16-bit value is made of its two bytes. -/
theorem le16Bytes_le16 (lo hi : Byte) : le16Bytes (le16 lo hi) = [lo, hi] := by
  have h1 : BitVec.extractLsb' 0 8 (le16 lo hi) = lo := append_low hi lo
  have h2 : BitVec.extractLsb' 8 8 (le16 lo hi) = hi := append_high hi lo
  rw [le16Bytes, h1, h2]

/-- A packed coordinate pair is made of its three bytes. -/
theorem packedBytes_packed (b0 b1 b2 : Byte) : packedBytes (packedX b0 b1) (packedY b1 b2) = [b0, b1, b2] := by
  have h0 : BitVec.extractLsb' 0 8 (packedX b0 b1) = b0 := append_low (BitVec.extractLsb' 0 4 b1) b0
  have h1 : BitVec.extractLsb' 8 4 (packedX b0 b1) = BitVec.extractLsb' 0 4 b1 := append_high (BitVec.extractLsb' 0 4 b1) b0
  have h2 : BitVec.extractLsb' 0 4 (packedY b1 b2) = BitVec.extractLsb' 4 4 b1 := append_low b2 (BitVec.extractLsb' 4 4 b1)
  have h3 : BitVec.extractLsb' 4 8 (packedY b1 b2) = b2 := append_high b2 (BitVec.extractLsb' 4 4 b1)
  have h4 : (BitVec.extractLsb' 4 4 b1 ++ BitVec.extractLsb' 0 4 b1 : BitVec 8) = b1 := by
    apply BitVec.eq_of_getLsbD_eq
    intro i hi
    simp only [BitVec.getLsbD_append, BitVec.getLsbD_extractLsb']
    by_cases h : i < 4
    · simp [h]
    · have k : i - 4 < 4 := by omega
      have e : 4 + (i - 4) = i := by omega
      simp [h, k, e]
  rw [packedBytes, h0, h1, h2, h3, h4]

/-- A record read off the front of the bytes has the layout's size. -/
theorem decodeRecord_length {col : Byte} {l : Layout} {bs rest : List Byte} {i : Instr} (h : decodeRecord col l bs = .ok (i, rest)) :
    bs.length = l.recordSize + rest.length := by
  unfold decodeRecord at h
  split at h <;> first | cases h; simp [Layout.recordSize]; omega | cases h

/-- Enough bytes for the layout are a record of it. -/
theorem decodeRecord_of_length {l : Layout} {bs : List Byte} (col : Byte) (h : l.recordSize ≤ bs.length) :
    ∃ i rest, decodeRecord col l bs = .ok (i, rest) := by
  cases l <;> simp only [Layout.recordSize] at h
  all_goals
    rcases bs with _ | ⟨b0, _ | ⟨b1, _ | ⟨b2, bs⟩⟩⟩ <;> simp only [List.length_cons, List.length_nil] at h <;> try omega
  case bin3 => exact ⟨_, _, rfl⟩
  all_goals
    rcases bs with _ | ⟨b3, bs⟩ <;> simp only [List.length_cons, List.length_nil] at h <;> try omega
  case bin2 => exact ⟨_, _, rfl⟩
  case bin2a => exact ⟨_, _, rfl⟩
  all_goals
    rcases bs with _ | ⟨b4, _ | ⟨b5, bs⟩⟩ <;> simp only [List.length_cons, List.length_nil] at h <;> try omega
  case bin1 => exact ⟨_, _, rfl⟩
  all_goals
    rcases bs with _ | ⟨b6, bs⟩ <;> simp only [List.length_cons, List.length_nil] at h <;> try omega
  case bin0 => exact ⟨_, _, rfl⟩
  case bin1a => exact ⟨_, _, rfl⟩
  all_goals
    rcases bs with _ | ⟨b7, bs⟩ <;> simp only [List.length_cons, List.length_nil] at h <;> try omega
  exact ⟨_, _, rfl⟩

/-! ## Text lines -/

theorem nextByte_append (bs : List Byte) : (nextByte bs).1.toList ++ (nextByte bs).2 = bs := by cases bs <;> rfl

/-- The fields of a line and the bytes after it are the bytes it was cut from. -/
theorem splitLine_append (bs : List Byte) : (splitLine bs).1.bytes ++ (splitLine bs).2 = bs := by
  unfold splitLine TextLine.bytes
  simp only [List.append_assoc]
  rw [nextByte_append, List.take_append_drop, nextByte_append, List.takeWhile_append_dropWhile, nextByte_append,
    List.takeWhile_append_dropWhile]

theorem takeWhile_digits {ds : List Byte} (h : ds.all isDigit = true) {rest : List Byte}
    (hr : ∀ b, rest.head? = some b → isDigit b = false) :
    (ds ++ rest).takeWhile isDigit = ds ∧ (ds ++ rest).dropWhile isDigit = rest := by
  induction ds with
  | nil => cases rest with
    | nil => exact ⟨rfl, rfl⟩
    | cons b bs => simp [hr b rfl]
  | cons d ds ih =>
    simp only [List.all_cons, Bool.and_eq_true] at h
    simp [h.1, ih h.2]

/-- A line in the printed format is cut into its own fields, whatever follows it. -/
theorem splitLine_bytes {t : TextLine} (h : t.wellFormed = true) (rest : List Byte) : splitLine (t.bytes ++ rest) = (t, rest) := by
  obtain ⟨xs, s1, ys, s2, cs, tm⟩ := t
  simp only [TextLine.wellFormed, wellFormedNumber, Bool.and_eq_true, beq_iff_eq] at h
  obtain ⟨⟨⟨⟨⟨⟨-, hx⟩, rfl⟩, ⟨-, hy⟩⟩, rfl⟩, hc⟩, rfl⟩ := h
  have hsp : isDigit (0x20 : Byte) = false := by decide
  have e : (TextLine.mk xs (some 0x20) ys (some 0x20) cs (some 0x0A)).bytes ++ rest =
      xs ++ (0x20 :: (ys ++ (0x20 :: (cs ++ (0x0A :: rest))))) := by simp [TextLine.bytes]
  rw [e]
  obtain ⟨t1, d1⟩ := takeWhile_digits hx (rest := 0x20 :: (ys ++ (0x20 :: (cs ++ (0x0A :: rest))))) (by rintro b ⟨⟩; exact hsp)
  obtain ⟨t2, d2⟩ := takeWhile_digits hy (rest := 0x20 :: (cs ++ (0x0A :: rest))) (by rintro b ⟨⟩; exact hsp)
  simp only [splitLine, t1, d1, nextByte, t2, d2]
  rw [← hc, List.take_left, List.drop_left]

/-! ## What the decoder of each source gives -/

theorem withOperand_eq_ok {α β : Type} {p : Parsed α} {k : α → List Byte → Parsed β} {x : β × List Byte} :
    withOperand p k = .ok x ↔ ∃ a bs, p = .ok (a, bs) ∧ k a bs = .ok x := by
  unfold withOperand
  split
  · rename_i a bs; constructor
    · intro h; exact ⟨a, bs, rfl, h⟩
    · rintro ⟨a, bs, h1, h2⟩; cases h1; exact h2
  · simp

theorem decodeOperands_source {op : Opcode} {bs rest : List Byte} {i : Instr} (h : decodeOperands op bs = .ok (i, rest)) :
    i.source = .command := by
  cases op <;> simp only [decodeOperands, withOperand_eq_ok] at h
  case fbInit => obtain ⟨_, _, _, _, _, _, _, _, _, h⟩ := h; cases h; rfl
  case fbOrient => obtain ⟨_, _, _, _, _, _, h⟩ := h; cases h; rfl
  case fbWrite => obtain ⟨_, _, _, _, _, _, _, _, _, h⟩ := h; cases h; rfl
  case fbText => obtain ⟨_, _, _, _, _, _, _, _, _, _, _, _, h⟩ := h; cases h; rfl
  case pdInit => obtain ⟨_, _, _, _, _, _, h⟩ := h; cases h; rfl
  case pdRxtext => obtain ⟨_, _, _, h⟩ := h; cases h; rfl
  case pdRxbin => obtain ⟨_, _, _, h⟩ := h; cases h; rfl
  case seInit => obtain ⟨_, _, _, h⟩ := h; cases h; rfl
  all_goals cases h; rfl

/-- A command word is a host command. -/
theorem decodeCommand_source {w : List Byte} {i : Instr} (h : decodeCommand w = .ok i) : i.source = .command := by
  unfold decodeCommand whole at h
  split at h
  · rename_i hp
    cases h
    unfold decodeCommandPrefix at hp
    split at hp
    · cases hp
    · split at hp
      · cases hp
      · exact decodeOperands_source hp
  · cases h
  · cases h

end Sys2Proof
end

