-- ==== Sys2Proof/Laws/Memory.lean ====
section
/-! SUPPORT. The laws of the PixelPlane memory (R65, R66): read after write, and that a write keeps the canonical form. -/

namespace Sys2Proof.Machine

@[simp] theorem Memory.read?_nil (b : Nat) : Memory.read? [] b = none := rfl

/-- Below every listed address nothing is written. -/
theorem Memory.read?_below {lo : Nat} {m : Memory} (h : m.risingFrom lo = true) {b : Nat} (hb : b ≤ lo) : m.read? b = none := by
  induction m generalizing lo with
  | nil => rfl
  | cons c m ih =>
    obtain ⟨a, v⟩ := c
    simp only [Memory.risingFrom, Bool.and_eq_true, decide_eq_true_eq] at h
    rw [Memory.read?, if_neg (by omega)]
    exact ih h.2 (by omega)

theorem Memory.read?_write_same (m : Memory) (a : Nat) (v : Byte) : (m.write a v).read? a = some v := by
  induction m with
  | nil => simp [Memory.write, Memory.read?]
  | cons c m ih =>
    obtain ⟨b, w⟩ := c
    rw [Memory.write]
    split
    · simp [Memory.read?]
    · split
      · simp [Memory.read?, *]
      · rw [Memory.read?, if_neg (by omega)]; exact ih

theorem Memory.read?_write_other (m : Memory) {a b : Nat} (v : Byte) (h : b ≠ a) : (m.write a v).read? b = m.read? b := by
  induction m with
  | nil => simp [Memory.write, Memory.read?, h]
  | cons c m ih =>
    obtain ⟨d, w⟩ := c
    rw [Memory.write]
    split
    · simp [Memory.read?, h]
    · split
      · rename_i hd; subst hd; simp [Memory.read?, h]
      · simp only [Memory.read?, ih]

theorem Memory.risingFrom_write {lo : Nat} {m : Memory} (h : m.risingFrom lo = true) {a : Nat} (ha : lo < a) (v : Byte) :
    (m.write a v).risingFrom lo = true := by
  induction m generalizing lo with
  | nil => simp [Memory.write, Memory.risingFrom, ha]
  | cons c m ih =>
    obtain ⟨b, w⟩ := c
    simp only [Memory.risingFrom, Bool.and_eq_true, decide_eq_true_eq] at h
    rw [Memory.write]
    split
    · simp [Memory.risingFrom, *]
    · split
      · simp [Memory.risingFrom, *]
      · simp [Memory.risingFrom, h.1, ih h.2 (show b < a by omega)]

/-- Every store keeps the canonical form. -/
theorem Memory.wf_write {m : Memory} (h : m.wf = true) (a : Nat) (v : Byte) : (m.write a v).wf = true := by
  cases m with
  | nil => rfl
  | cons c m =>
    obtain ⟨b, w⟩ := c
    simp only [Memory.wf] at h
    rw [Memory.write]
    split
    · simp [Memory.wf, Memory.risingFrom, *]
    · split
      · rename_i hb; subst hb; simpa [Memory.wf] using h
      · simpa [Memory.wf] using Memory.risingFrom_write h (by omega) v

/-- The reset memory has the canonical form. -/
theorem Memory.wf_reset : State.reset.pp.wf = true := rfl

theorem State.readCell_withPp_write_same (s : State) (a : Nat) (v : Byte) : (s.withPp (s.pp.write a v)).readCell a = v := by
  show ((s.pp.write a v).read? a).getD _ = v
  rw [Memory.read?_write_same]; rfl

theorem State.readCell_withPp_write_other (s : State) {a b : Nat} (v : Byte) (h : b ≠ a) :
    (s.withPp (s.pp.write a v)).readCell b = s.readCell b := by
  show ((s.pp.write a v).read? b).getD _ = _
  rw [Memory.read?_write_other _ v h]; rfl

end Sys2Proof.Machine
end

