-- ==== Sys2Proof/Laws/State.lean ====
section
/-! SUPPORT. The small laws of State: what each named update leaves in each field (true by rfl), and that the computations over State read
the fields they read. -/

namespace Sys2Proof.Machine

section Fields

variable (s : State)

@[simp] theorem State.withPp_fbReady (v : Memory) : (s.withPp v).fbReady = s.fbReady := rfl
@[simp] theorem State.withPp_fbW (v : Memory) : (s.withPp v).fbW = s.fbW := rfl
@[simp] theorem State.withPp_fbH (v : Memory) : (s.withPp v).fbH = s.fbH := rfl
@[simp] theorem State.withPp_hflip (v : Memory) : (s.withPp v).hflip = s.hflip := rfl
@[simp] theorem State.withPp_vflip (v : Memory) : (s.withPp v).vflip = s.vflip := rfl
@[simp] theorem State.withPp_gt (v : Memory) : (s.withPp v).gt = s.gt := rfl
@[simp] theorem State.withPp_pp (v : Memory) : (s.withPp v).pp = v := rfl
@[simp] theorem State.withPp_pdReady (v : Memory) : (s.withPp v).pdReady = s.pdReady := rfl
@[simp] theorem State.withPp_textPort (v : Memory) : (s.withPp v).textPort = s.textPort := rfl
@[simp] theorem State.withPp_binPort (v : Memory) : (s.withPp v).binPort = s.binPort := rfl
@[simp] theorem State.withPp_pd (v : Memory) : (s.withPp v).pd = s.pd := rfl
@[simp] theorem State.withPp_seReady (v : Memory) : (s.withPp v).seReady = s.seReady := rfl
@[simp] theorem State.withPp_mode (v : Memory) : (s.withPp v).mode = s.mode := rfl
@[simp] theorem State.withPp_en (v : Memory) : (s.withPp v).en = s.en := rfl
@[simp] theorem State.withPp_phase (v : Memory) : (s.withPp v).phase = s.phase := rfl
@[simp] theorem State.withPp_frameCnt (v : Memory) : (s.withPp v).frameCnt = s.frameCnt := rfl
@[simp] theorem State.withPp_acc (v : Memory) : (s.withPp v).acc = s.acc := rfl
@[simp] theorem State.withPp_pins (v : Memory) : (s.withPp v).pins = s.pins := rfl
@[simp] theorem State.withPp_trace (v : Memory) : (s.withPp v).trace = s.trace := rfl
@[simp] theorem State.withPp_host (v : Memory) : (s.withPp v).host = s.host := rfl
@[simp] theorem State.withPp_tick (v : Memory) : (s.withPp v).tick = s.tick := rfl
@[simp] theorem State.withPp_inbox (v : Memory) : (s.withPp v).inbox = s.inbox := rfl
@[simp] theorem State.withPp_sched (v : Memory) : (s.withPp v).sched = s.sched := rfl
@[simp] theorem State.withPp_draws (v : Memory) : (s.withPp v).draws = s.draws := rfl
@[simp] theorem State.withPp_report (v : Memory) : (s.withPp v).report = s.report := rfl

@[simp] theorem State.withAcc_fbReady (v : List Byte) : (s.withAcc v).fbReady = s.fbReady := rfl
@[simp] theorem State.withAcc_fbW (v : List Byte) : (s.withAcc v).fbW = s.fbW := rfl
@[simp] theorem State.withAcc_fbH (v : List Byte) : (s.withAcc v).fbH = s.fbH := rfl
@[simp] theorem State.withAcc_hflip (v : List Byte) : (s.withAcc v).hflip = s.hflip := rfl
@[simp] theorem State.withAcc_vflip (v : List Byte) : (s.withAcc v).vflip = s.vflip := rfl
@[simp] theorem State.withAcc_gt (v : List Byte) : (s.withAcc v).gt = s.gt := rfl
@[simp] theorem State.withAcc_pp (v : List Byte) : (s.withAcc v).pp = s.pp := rfl
@[simp] theorem State.withAcc_pdReady (v : List Byte) : (s.withAcc v).pdReady = s.pdReady := rfl
@[simp] theorem State.withAcc_textPort (v : List Byte) : (s.withAcc v).textPort = s.textPort := rfl
@[simp] theorem State.withAcc_binPort (v : List Byte) : (s.withAcc v).binPort = s.binPort := rfl
@[simp] theorem State.withAcc_pd (v : List Byte) : (s.withAcc v).pd = s.pd := rfl
@[simp] theorem State.withAcc_seReady (v : List Byte) : (s.withAcc v).seReady = s.seReady := rfl
@[simp] theorem State.withAcc_mode (v : List Byte) : (s.withAcc v).mode = s.mode := rfl
@[simp] theorem State.withAcc_en (v : List Byte) : (s.withAcc v).en = s.en := rfl
@[simp] theorem State.withAcc_phase (v : List Byte) : (s.withAcc v).phase = s.phase := rfl
@[simp] theorem State.withAcc_frameCnt (v : List Byte) : (s.withAcc v).frameCnt = s.frameCnt := rfl
@[simp] theorem State.withAcc_acc (v : List Byte) : (s.withAcc v).acc = v := rfl
@[simp] theorem State.withAcc_pins (v : List Byte) : (s.withAcc v).pins = s.pins := rfl
@[simp] theorem State.withAcc_trace (v : List Byte) : (s.withAcc v).trace = s.trace := rfl
@[simp] theorem State.withAcc_host (v : List Byte) : (s.withAcc v).host = s.host := rfl
@[simp] theorem State.withAcc_tick (v : List Byte) : (s.withAcc v).tick = s.tick := rfl
@[simp] theorem State.withAcc_inbox (v : List Byte) : (s.withAcc v).inbox = s.inbox := rfl
@[simp] theorem State.withAcc_sched (v : List Byte) : (s.withAcc v).sched = s.sched := rfl
@[simp] theorem State.withAcc_draws (v : List Byte) : (s.withAcc v).draws = s.draws := rfl
@[simp] theorem State.withAcc_report (v : List Byte) : (s.withAcc v).report = s.report := rfl

@[simp] theorem State.withPd_fbReady (v : PdRegs) : (s.withPd v).fbReady = s.fbReady := rfl
@[simp] theorem State.withPd_fbW (v : PdRegs) : (s.withPd v).fbW = s.fbW := rfl
@[simp] theorem State.withPd_fbH (v : PdRegs) : (s.withPd v).fbH = s.fbH := rfl
@[simp] theorem State.withPd_hflip (v : PdRegs) : (s.withPd v).hflip = s.hflip := rfl
@[simp] theorem State.withPd_vflip (v : PdRegs) : (s.withPd v).vflip = s.vflip := rfl
@[simp] theorem State.withPd_gt (v : PdRegs) : (s.withPd v).gt = s.gt := rfl
@[simp] theorem State.withPd_pp (v : PdRegs) : (s.withPd v).pp = s.pp := rfl
@[simp] theorem State.withPd_pdReady (v : PdRegs) : (s.withPd v).pdReady = s.pdReady := rfl
@[simp] theorem State.withPd_textPort (v : PdRegs) : (s.withPd v).textPort = s.textPort := rfl
@[simp] theorem State.withPd_binPort (v : PdRegs) : (s.withPd v).binPort = s.binPort := rfl
@[simp] theorem State.withPd_pd (v : PdRegs) : (s.withPd v).pd = v := rfl
@[simp] theorem State.withPd_seReady (v : PdRegs) : (s.withPd v).seReady = s.seReady := rfl
@[simp] theorem State.withPd_mode (v : PdRegs) : (s.withPd v).mode = s.mode := rfl
@[simp] theorem State.withPd_en (v : PdRegs) : (s.withPd v).en = s.en := rfl
@[simp] theorem State.withPd_phase (v : PdRegs) : (s.withPd v).phase = s.phase := rfl
@[simp] theorem State.withPd_frameCnt (v : PdRegs) : (s.withPd v).frameCnt = s.frameCnt := rfl
@[simp] theorem State.withPd_acc (v : PdRegs) : (s.withPd v).acc = s.acc := rfl
@[simp] theorem State.withPd_pins (v : PdRegs) : (s.withPd v).pins = s.pins := rfl
@[simp] theorem State.withPd_trace (v : PdRegs) : (s.withPd v).trace = s.trace := rfl
@[simp] theorem State.withPd_host (v : PdRegs) : (s.withPd v).host = s.host := rfl
@[simp] theorem State.withPd_tick (v : PdRegs) : (s.withPd v).tick = s.tick := rfl
@[simp] theorem State.withPd_inbox (v : PdRegs) : (s.withPd v).inbox = s.inbox := rfl
@[simp] theorem State.withPd_sched (v : PdRegs) : (s.withPd v).sched = s.sched := rfl
@[simp] theorem State.withPd_draws (v : PdRegs) : (s.withPd v).draws = s.draws := rfl
@[simp] theorem State.withPd_report (v : PdRegs) : (s.withPd v).report = s.report := rfl

@[simp] theorem State.withHost_fbReady (v : HostActivity) : (s.withHost v).fbReady = s.fbReady := rfl
@[simp] theorem State.withHost_fbW (v : HostActivity) : (s.withHost v).fbW = s.fbW := rfl
@[simp] theorem State.withHost_fbH (v : HostActivity) : (s.withHost v).fbH = s.fbH := rfl
@[simp] theorem State.withHost_hflip (v : HostActivity) : (s.withHost v).hflip = s.hflip := rfl
@[simp] theorem State.withHost_vflip (v : HostActivity) : (s.withHost v).vflip = s.vflip := rfl
@[simp] theorem State.withHost_gt (v : HostActivity) : (s.withHost v).gt = s.gt := rfl
@[simp] theorem State.withHost_pp (v : HostActivity) : (s.withHost v).pp = s.pp := rfl
@[simp] theorem State.withHost_pdReady (v : HostActivity) : (s.withHost v).pdReady = s.pdReady := rfl
@[simp] theorem State.withHost_textPort (v : HostActivity) : (s.withHost v).textPort = s.textPort := rfl
@[simp] theorem State.withHost_binPort (v : HostActivity) : (s.withHost v).binPort = s.binPort := rfl
@[simp] theorem State.withHost_pd (v : HostActivity) : (s.withHost v).pd = s.pd := rfl
@[simp] theorem State.withHost_seReady (v : HostActivity) : (s.withHost v).seReady = s.seReady := rfl
@[simp] theorem State.withHost_mode (v : HostActivity) : (s.withHost v).mode = s.mode := rfl
@[simp] theorem State.withHost_en (v : HostActivity) : (s.withHost v).en = s.en := rfl
@[simp] theorem State.withHost_phase (v : HostActivity) : (s.withHost v).phase = s.phase := rfl
@[simp] theorem State.withHost_frameCnt (v : HostActivity) : (s.withHost v).frameCnt = s.frameCnt := rfl
@[simp] theorem State.withHost_acc (v : HostActivity) : (s.withHost v).acc = s.acc := rfl
@[simp] theorem State.withHost_pins (v : HostActivity) : (s.withHost v).pins = s.pins := rfl
@[simp] theorem State.withHost_trace (v : HostActivity) : (s.withHost v).trace = s.trace := rfl
@[simp] theorem State.withHost_host (v : HostActivity) : (s.withHost v).host = v := rfl
@[simp] theorem State.withHost_tick (v : HostActivity) : (s.withHost v).tick = s.tick := rfl
@[simp] theorem State.withHost_inbox (v : HostActivity) : (s.withHost v).inbox = s.inbox := rfl
@[simp] theorem State.withHost_sched (v : HostActivity) : (s.withHost v).sched = s.sched := rfl
@[simp] theorem State.withHost_draws (v : HostActivity) : (s.withHost v).draws = s.draws := rfl
@[simp] theorem State.withHost_report (v : HostActivity) : (s.withHost v).report = s.report := rfl

@[simp] theorem State.withTick_fbReady (v : Option (List Nat)) : (s.withTick v).fbReady = s.fbReady := rfl
@[simp] theorem State.withTick_fbW (v : Option (List Nat)) : (s.withTick v).fbW = s.fbW := rfl
@[simp] theorem State.withTick_fbH (v : Option (List Nat)) : (s.withTick v).fbH = s.fbH := rfl
@[simp] theorem State.withTick_hflip (v : Option (List Nat)) : (s.withTick v).hflip = s.hflip := rfl
@[simp] theorem State.withTick_vflip (v : Option (List Nat)) : (s.withTick v).vflip = s.vflip := rfl
@[simp] theorem State.withTick_gt (v : Option (List Nat)) : (s.withTick v).gt = s.gt := rfl
@[simp] theorem State.withTick_pp (v : Option (List Nat)) : (s.withTick v).pp = s.pp := rfl
@[simp] theorem State.withTick_pdReady (v : Option (List Nat)) : (s.withTick v).pdReady = s.pdReady := rfl
@[simp] theorem State.withTick_textPort (v : Option (List Nat)) : (s.withTick v).textPort = s.textPort := rfl
@[simp] theorem State.withTick_binPort (v : Option (List Nat)) : (s.withTick v).binPort = s.binPort := rfl
@[simp] theorem State.withTick_pd (v : Option (List Nat)) : (s.withTick v).pd = s.pd := rfl
@[simp] theorem State.withTick_seReady (v : Option (List Nat)) : (s.withTick v).seReady = s.seReady := rfl
@[simp] theorem State.withTick_mode (v : Option (List Nat)) : (s.withTick v).mode = s.mode := rfl
@[simp] theorem State.withTick_en (v : Option (List Nat)) : (s.withTick v).en = s.en := rfl
@[simp] theorem State.withTick_phase (v : Option (List Nat)) : (s.withTick v).phase = s.phase := rfl
@[simp] theorem State.withTick_frameCnt (v : Option (List Nat)) : (s.withTick v).frameCnt = s.frameCnt := rfl
@[simp] theorem State.withTick_acc (v : Option (List Nat)) : (s.withTick v).acc = s.acc := rfl
@[simp] theorem State.withTick_pins (v : Option (List Nat)) : (s.withTick v).pins = s.pins := rfl
@[simp] theorem State.withTick_trace (v : Option (List Nat)) : (s.withTick v).trace = s.trace := rfl
@[simp] theorem State.withTick_host (v : Option (List Nat)) : (s.withTick v).host = s.host := rfl
@[simp] theorem State.withTick_tick (v : Option (List Nat)) : (s.withTick v).tick = v := rfl
@[simp] theorem State.withTick_inbox (v : Option (List Nat)) : (s.withTick v).inbox = s.inbox := rfl
@[simp] theorem State.withTick_sched (v : Option (List Nat)) : (s.withTick v).sched = s.sched := rfl
@[simp] theorem State.withTick_draws (v : Option (List Nat)) : (s.withTick v).draws = s.draws := rfl
@[simp] theorem State.withTick_report (v : Option (List Nat)) : (s.withTick v).report = s.report := rfl

@[simp] theorem State.withDraws_fbReady (v : Nat) : (s.withDraws v).fbReady = s.fbReady := rfl
@[simp] theorem State.withDraws_fbW (v : Nat) : (s.withDraws v).fbW = s.fbW := rfl
@[simp] theorem State.withDraws_fbH (v : Nat) : (s.withDraws v).fbH = s.fbH := rfl
@[simp] theorem State.withDraws_hflip (v : Nat) : (s.withDraws v).hflip = s.hflip := rfl
@[simp] theorem State.withDraws_vflip (v : Nat) : (s.withDraws v).vflip = s.vflip := rfl
@[simp] theorem State.withDraws_gt (v : Nat) : (s.withDraws v).gt = s.gt := rfl
@[simp] theorem State.withDraws_pp (v : Nat) : (s.withDraws v).pp = s.pp := rfl
@[simp] theorem State.withDraws_pdReady (v : Nat) : (s.withDraws v).pdReady = s.pdReady := rfl
@[simp] theorem State.withDraws_textPort (v : Nat) : (s.withDraws v).textPort = s.textPort := rfl
@[simp] theorem State.withDraws_binPort (v : Nat) : (s.withDraws v).binPort = s.binPort := rfl
@[simp] theorem State.withDraws_pd (v : Nat) : (s.withDraws v).pd = s.pd := rfl
@[simp] theorem State.withDraws_seReady (v : Nat) : (s.withDraws v).seReady = s.seReady := rfl
@[simp] theorem State.withDraws_mode (v : Nat) : (s.withDraws v).mode = s.mode := rfl
@[simp] theorem State.withDraws_en (v : Nat) : (s.withDraws v).en = s.en := rfl
@[simp] theorem State.withDraws_phase (v : Nat) : (s.withDraws v).phase = s.phase := rfl
@[simp] theorem State.withDraws_frameCnt (v : Nat) : (s.withDraws v).frameCnt = s.frameCnt := rfl
@[simp] theorem State.withDraws_acc (v : Nat) : (s.withDraws v).acc = s.acc := rfl
@[simp] theorem State.withDraws_pins (v : Nat) : (s.withDraws v).pins = s.pins := rfl
@[simp] theorem State.withDraws_trace (v : Nat) : (s.withDraws v).trace = s.trace := rfl
@[simp] theorem State.withDraws_host (v : Nat) : (s.withDraws v).host = s.host := rfl
@[simp] theorem State.withDraws_tick (v : Nat) : (s.withDraws v).tick = s.tick := rfl
@[simp] theorem State.withDraws_inbox (v : Nat) : (s.withDraws v).inbox = s.inbox := rfl
@[simp] theorem State.withDraws_sched (v : Nat) : (s.withDraws v).sched = s.sched := rfl
@[simp] theorem State.withDraws_draws (v : Nat) : (s.withDraws v).draws = v := rfl
@[simp] theorem State.withDraws_report (v : Nat) : (s.withDraws v).report = s.report := rfl

@[simp] theorem State.withReport_fbReady (v : Report) : (s.withReport v).fbReady = s.fbReady := rfl
@[simp] theorem State.withReport_fbW (v : Report) : (s.withReport v).fbW = s.fbW := rfl
@[simp] theorem State.withReport_fbH (v : Report) : (s.withReport v).fbH = s.fbH := rfl
@[simp] theorem State.withReport_hflip (v : Report) : (s.withReport v).hflip = s.hflip := rfl
@[simp] theorem State.withReport_vflip (v : Report) : (s.withReport v).vflip = s.vflip := rfl
@[simp] theorem State.withReport_gt (v : Report) : (s.withReport v).gt = s.gt := rfl
@[simp] theorem State.withReport_pp (v : Report) : (s.withReport v).pp = s.pp := rfl
@[simp] theorem State.withReport_pdReady (v : Report) : (s.withReport v).pdReady = s.pdReady := rfl
@[simp] theorem State.withReport_textPort (v : Report) : (s.withReport v).textPort = s.textPort := rfl
@[simp] theorem State.withReport_binPort (v : Report) : (s.withReport v).binPort = s.binPort := rfl
@[simp] theorem State.withReport_pd (v : Report) : (s.withReport v).pd = s.pd := rfl
@[simp] theorem State.withReport_seReady (v : Report) : (s.withReport v).seReady = s.seReady := rfl
@[simp] theorem State.withReport_mode (v : Report) : (s.withReport v).mode = s.mode := rfl
@[simp] theorem State.withReport_en (v : Report) : (s.withReport v).en = s.en := rfl
@[simp] theorem State.withReport_phase (v : Report) : (s.withReport v).phase = s.phase := rfl
@[simp] theorem State.withReport_frameCnt (v : Report) : (s.withReport v).frameCnt = s.frameCnt := rfl
@[simp] theorem State.withReport_acc (v : Report) : (s.withReport v).acc = s.acc := rfl
@[simp] theorem State.withReport_pins (v : Report) : (s.withReport v).pins = s.pins := rfl
@[simp] theorem State.withReport_trace (v : Report) : (s.withReport v).trace = s.trace := rfl
@[simp] theorem State.withReport_host (v : Report) : (s.withReport v).host = s.host := rfl
@[simp] theorem State.withReport_tick (v : Report) : (s.withReport v).tick = s.tick := rfl
@[simp] theorem State.withReport_inbox (v : Report) : (s.withReport v).inbox = s.inbox := rfl
@[simp] theorem State.withReport_sched (v : Report) : (s.withReport v).sched = s.sched := rfl
@[simp] theorem State.withReport_draws (v : Report) : (s.withReport v).draws = s.draws := rfl
@[simp] theorem State.withReport_report (v : Report) : (s.withReport v).report = v := rfl

@[simp] theorem State.withInbox_fbReady (v : List (List Byte)) : (s.withInbox v).fbReady = s.fbReady := rfl
@[simp] theorem State.withInbox_fbW (v : List (List Byte)) : (s.withInbox v).fbW = s.fbW := rfl
@[simp] theorem State.withInbox_fbH (v : List (List Byte)) : (s.withInbox v).fbH = s.fbH := rfl
@[simp] theorem State.withInbox_hflip (v : List (List Byte)) : (s.withInbox v).hflip = s.hflip := rfl
@[simp] theorem State.withInbox_vflip (v : List (List Byte)) : (s.withInbox v).vflip = s.vflip := rfl
@[simp] theorem State.withInbox_gt (v : List (List Byte)) : (s.withInbox v).gt = s.gt := rfl
@[simp] theorem State.withInbox_pp (v : List (List Byte)) : (s.withInbox v).pp = s.pp := rfl
@[simp] theorem State.withInbox_pdReady (v : List (List Byte)) : (s.withInbox v).pdReady = s.pdReady := rfl
@[simp] theorem State.withInbox_textPort (v : List (List Byte)) : (s.withInbox v).textPort = s.textPort := rfl
@[simp] theorem State.withInbox_binPort (v : List (List Byte)) : (s.withInbox v).binPort = s.binPort := rfl
@[simp] theorem State.withInbox_pd (v : List (List Byte)) : (s.withInbox v).pd = s.pd := rfl
@[simp] theorem State.withInbox_seReady (v : List (List Byte)) : (s.withInbox v).seReady = s.seReady := rfl
@[simp] theorem State.withInbox_mode (v : List (List Byte)) : (s.withInbox v).mode = s.mode := rfl
@[simp] theorem State.withInbox_en (v : List (List Byte)) : (s.withInbox v).en = s.en := rfl
@[simp] theorem State.withInbox_phase (v : List (List Byte)) : (s.withInbox v).phase = s.phase := rfl
@[simp] theorem State.withInbox_frameCnt (v : List (List Byte)) : (s.withInbox v).frameCnt = s.frameCnt := rfl
@[simp] theorem State.withInbox_acc (v : List (List Byte)) : (s.withInbox v).acc = s.acc := rfl
@[simp] theorem State.withInbox_pins (v : List (List Byte)) : (s.withInbox v).pins = s.pins := rfl
@[simp] theorem State.withInbox_trace (v : List (List Byte)) : (s.withInbox v).trace = s.trace := rfl
@[simp] theorem State.withInbox_host (v : List (List Byte)) : (s.withInbox v).host = s.host := rfl
@[simp] theorem State.withInbox_tick (v : List (List Byte)) : (s.withInbox v).tick = s.tick := rfl
@[simp] theorem State.withInbox_inbox (v : List (List Byte)) : (s.withInbox v).inbox = v := rfl
@[simp] theorem State.withInbox_sched (v : List (List Byte)) : (s.withInbox v).sched = s.sched := rfl
@[simp] theorem State.withInbox_draws (v : List (List Byte)) : (s.withInbox v).draws = s.draws := rfl
@[simp] theorem State.withInbox_report (v : List (List Byte)) : (s.withInbox v).report = s.report := rfl

@[simp] theorem State.withSched_fbReady (v : List Turn) : (s.withSched v).fbReady = s.fbReady := rfl
@[simp] theorem State.withSched_fbW (v : List Turn) : (s.withSched v).fbW = s.fbW := rfl
@[simp] theorem State.withSched_fbH (v : List Turn) : (s.withSched v).fbH = s.fbH := rfl
@[simp] theorem State.withSched_hflip (v : List Turn) : (s.withSched v).hflip = s.hflip := rfl
@[simp] theorem State.withSched_vflip (v : List Turn) : (s.withSched v).vflip = s.vflip := rfl
@[simp] theorem State.withSched_gt (v : List Turn) : (s.withSched v).gt = s.gt := rfl
@[simp] theorem State.withSched_pp (v : List Turn) : (s.withSched v).pp = s.pp := rfl
@[simp] theorem State.withSched_pdReady (v : List Turn) : (s.withSched v).pdReady = s.pdReady := rfl
@[simp] theorem State.withSched_textPort (v : List Turn) : (s.withSched v).textPort = s.textPort := rfl
@[simp] theorem State.withSched_binPort (v : List Turn) : (s.withSched v).binPort = s.binPort := rfl
@[simp] theorem State.withSched_pd (v : List Turn) : (s.withSched v).pd = s.pd := rfl
@[simp] theorem State.withSched_seReady (v : List Turn) : (s.withSched v).seReady = s.seReady := rfl
@[simp] theorem State.withSched_mode (v : List Turn) : (s.withSched v).mode = s.mode := rfl
@[simp] theorem State.withSched_en (v : List Turn) : (s.withSched v).en = s.en := rfl
@[simp] theorem State.withSched_phase (v : List Turn) : (s.withSched v).phase = s.phase := rfl
@[simp] theorem State.withSched_frameCnt (v : List Turn) : (s.withSched v).frameCnt = s.frameCnt := rfl
@[simp] theorem State.withSched_acc (v : List Turn) : (s.withSched v).acc = s.acc := rfl
@[simp] theorem State.withSched_pins (v : List Turn) : (s.withSched v).pins = s.pins := rfl
@[simp] theorem State.withSched_trace (v : List Turn) : (s.withSched v).trace = s.trace := rfl
@[simp] theorem State.withSched_host (v : List Turn) : (s.withSched v).host = s.host := rfl
@[simp] theorem State.withSched_tick (v : List Turn) : (s.withSched v).tick = s.tick := rfl
@[simp] theorem State.withSched_inbox (v : List Turn) : (s.withSched v).inbox = s.inbox := rfl
@[simp] theorem State.withSched_sched (v : List Turn) : (s.withSched v).sched = v := rfl
@[simp] theorem State.withSched_draws (v : List Turn) : (s.withSched v).draws = s.draws := rfl
@[simp] theorem State.withSched_report (v : List Turn) : (s.withSched v).report = s.report := rfl

@[simp] theorem State.withEn_fbReady (v : Bool) : (s.withEn v).fbReady = s.fbReady := rfl
@[simp] theorem State.withEn_fbW (v : Bool) : (s.withEn v).fbW = s.fbW := rfl
@[simp] theorem State.withEn_fbH (v : Bool) : (s.withEn v).fbH = s.fbH := rfl
@[simp] theorem State.withEn_hflip (v : Bool) : (s.withEn v).hflip = s.hflip := rfl
@[simp] theorem State.withEn_vflip (v : Bool) : (s.withEn v).vflip = s.vflip := rfl
@[simp] theorem State.withEn_gt (v : Bool) : (s.withEn v).gt = s.gt := rfl
@[simp] theorem State.withEn_pp (v : Bool) : (s.withEn v).pp = s.pp := rfl
@[simp] theorem State.withEn_pdReady (v : Bool) : (s.withEn v).pdReady = s.pdReady := rfl
@[simp] theorem State.withEn_textPort (v : Bool) : (s.withEn v).textPort = s.textPort := rfl
@[simp] theorem State.withEn_binPort (v : Bool) : (s.withEn v).binPort = s.binPort := rfl
@[simp] theorem State.withEn_pd (v : Bool) : (s.withEn v).pd = s.pd := rfl
@[simp] theorem State.withEn_seReady (v : Bool) : (s.withEn v).seReady = s.seReady := rfl
@[simp] theorem State.withEn_mode (v : Bool) : (s.withEn v).mode = s.mode := rfl
@[simp] theorem State.withEn_en (v : Bool) : (s.withEn v).en = v := rfl
@[simp] theorem State.withEn_phase (v : Bool) : (s.withEn v).phase = s.phase := rfl
@[simp] theorem State.withEn_frameCnt (v : Bool) : (s.withEn v).frameCnt = s.frameCnt := rfl
@[simp] theorem State.withEn_acc (v : Bool) : (s.withEn v).acc = s.acc := rfl
@[simp] theorem State.withEn_pins (v : Bool) : (s.withEn v).pins = s.pins := rfl
@[simp] theorem State.withEn_trace (v : Bool) : (s.withEn v).trace = s.trace := rfl
@[simp] theorem State.withEn_host (v : Bool) : (s.withEn v).host = s.host := rfl
@[simp] theorem State.withEn_tick (v : Bool) : (s.withEn v).tick = s.tick := rfl
@[simp] theorem State.withEn_inbox (v : Bool) : (s.withEn v).inbox = s.inbox := rfl
@[simp] theorem State.withEn_sched (v : Bool) : (s.withEn v).sched = s.sched := rfl
@[simp] theorem State.withEn_draws (v : Bool) : (s.withEn v).draws = s.draws := rfl
@[simp] theorem State.withEn_report (v : Bool) : (s.withEn v).report = s.report := rfl

@[simp] theorem State.withFlips_fbReady (h v : Bool) : (s.withFlips h v).fbReady = s.fbReady := rfl
@[simp] theorem State.withFlips_fbW (h v : Bool) : (s.withFlips h v).fbW = s.fbW := rfl
@[simp] theorem State.withFlips_fbH (h v : Bool) : (s.withFlips h v).fbH = s.fbH := rfl
@[simp] theorem State.withFlips_hflip (h v : Bool) : (s.withFlips h v).hflip = h := rfl
@[simp] theorem State.withFlips_vflip (h v : Bool) : (s.withFlips h v).vflip = v := rfl
@[simp] theorem State.withFlips_gt (h v : Bool) : (s.withFlips h v).gt = s.gt := rfl
@[simp] theorem State.withFlips_pp (h v : Bool) : (s.withFlips h v).pp = s.pp := rfl
@[simp] theorem State.withFlips_pdReady (h v : Bool) : (s.withFlips h v).pdReady = s.pdReady := rfl
@[simp] theorem State.withFlips_textPort (h v : Bool) : (s.withFlips h v).textPort = s.textPort := rfl
@[simp] theorem State.withFlips_binPort (h v : Bool) : (s.withFlips h v).binPort = s.binPort := rfl
@[simp] theorem State.withFlips_pd (h v : Bool) : (s.withFlips h v).pd = s.pd := rfl
@[simp] theorem State.withFlips_seReady (h v : Bool) : (s.withFlips h v).seReady = s.seReady := rfl
@[simp] theorem State.withFlips_mode (h v : Bool) : (s.withFlips h v).mode = s.mode := rfl
@[simp] theorem State.withFlips_en (h v : Bool) : (s.withFlips h v).en = s.en := rfl
@[simp] theorem State.withFlips_phase (h v : Bool) : (s.withFlips h v).phase = s.phase := rfl
@[simp] theorem State.withFlips_frameCnt (h v : Bool) : (s.withFlips h v).frameCnt = s.frameCnt := rfl
@[simp] theorem State.withFlips_acc (h v : Bool) : (s.withFlips h v).acc = s.acc := rfl
@[simp] theorem State.withFlips_pins (h v : Bool) : (s.withFlips h v).pins = s.pins := rfl
@[simp] theorem State.withFlips_trace (h v : Bool) : (s.withFlips h v).trace = s.trace := rfl
@[simp] theorem State.withFlips_host (h v : Bool) : (s.withFlips h v).host = s.host := rfl
@[simp] theorem State.withFlips_tick (h v : Bool) : (s.withFlips h v).tick = s.tick := rfl
@[simp] theorem State.withFlips_inbox (h v : Bool) : (s.withFlips h v).inbox = s.inbox := rfl
@[simp] theorem State.withFlips_sched (h v : Bool) : (s.withFlips h v).sched = s.sched := rfl
@[simp] theorem State.withFlips_draws (h v : Bool) : (s.withFlips h v).draws = s.draws := rfl
@[simp] theorem State.withFlips_report (h v : Bool) : (s.withFlips h v).report = s.report := rfl

@[simp] theorem State.withFramebuffer_fbReady (w h : Nat) (g : Vector Byte 256) : (s.withFramebuffer w h g).fbReady = true := rfl
@[simp] theorem State.withFramebuffer_fbW (w h : Nat) (g : Vector Byte 256) : (s.withFramebuffer w h g).fbW = w := rfl
@[simp] theorem State.withFramebuffer_fbH (w h : Nat) (g : Vector Byte 256) : (s.withFramebuffer w h g).fbH = h := rfl
@[simp] theorem State.withFramebuffer_hflip (w h : Nat) (g : Vector Byte 256) : (s.withFramebuffer w h g).hflip = false := rfl
@[simp] theorem State.withFramebuffer_vflip (w h : Nat) (g : Vector Byte 256) : (s.withFramebuffer w h g).vflip = false := rfl
@[simp] theorem State.withFramebuffer_gt (w h : Nat) (g : Vector Byte 256) : (s.withFramebuffer w h g).gt = g := rfl
@[simp] theorem State.withFramebuffer_pp (w h : Nat) (g : Vector Byte 256) : (s.withFramebuffer w h g).pp = s.pp := rfl
@[simp] theorem State.withFramebuffer_pdReady (w h : Nat) (g : Vector Byte 256) : (s.withFramebuffer w h g).pdReady = s.pdReady := rfl
@[simp] theorem State.withFramebuffer_textPort (w h : Nat) (g : Vector Byte 256) : (s.withFramebuffer w h g).textPort = s.textPort := rfl
@[simp] theorem State.withFramebuffer_binPort (w h : Nat) (g : Vector Byte 256) : (s.withFramebuffer w h g).binPort = s.binPort := rfl
@[simp] theorem State.withFramebuffer_pd (w h : Nat) (g : Vector Byte 256) : (s.withFramebuffer w h g).pd = s.pd := rfl
@[simp] theorem State.withFramebuffer_seReady (w h : Nat) (g : Vector Byte 256) : (s.withFramebuffer w h g).seReady = s.seReady := rfl
@[simp] theorem State.withFramebuffer_mode (w h : Nat) (g : Vector Byte 256) : (s.withFramebuffer w h g).mode = s.mode := rfl
@[simp] theorem State.withFramebuffer_en (w h : Nat) (g : Vector Byte 256) : (s.withFramebuffer w h g).en = s.en := rfl
@[simp] theorem State.withFramebuffer_phase (w h : Nat) (g : Vector Byte 256) : (s.withFramebuffer w h g).phase = s.phase := rfl
@[simp] theorem State.withFramebuffer_frameCnt (w h : Nat) (g : Vector Byte 256) : (s.withFramebuffer w h g).frameCnt = s.frameCnt := rfl
@[simp] theorem State.withFramebuffer_acc (w h : Nat) (g : Vector Byte 256) : (s.withFramebuffer w h g).acc = s.acc := rfl
@[simp] theorem State.withFramebuffer_pins (w h : Nat) (g : Vector Byte 256) : (s.withFramebuffer w h g).pins = s.pins := rfl
@[simp] theorem State.withFramebuffer_trace (w h : Nat) (g : Vector Byte 256) : (s.withFramebuffer w h g).trace = s.trace := rfl
@[simp] theorem State.withFramebuffer_host (w h : Nat) (g : Vector Byte 256) : (s.withFramebuffer w h g).host = s.host := rfl
@[simp] theorem State.withFramebuffer_tick (w h : Nat) (g : Vector Byte 256) : (s.withFramebuffer w h g).tick = s.tick := rfl
@[simp] theorem State.withFramebuffer_inbox (w h : Nat) (g : Vector Byte 256) : (s.withFramebuffer w h g).inbox = s.inbox := rfl
@[simp] theorem State.withFramebuffer_sched (w h : Nat) (g : Vector Byte 256) : (s.withFramebuffer w h g).sched = s.sched := rfl
@[simp] theorem State.withFramebuffer_draws (w h : Nat) (g : Vector Byte 256) : (s.withFramebuffer w h g).draws = s.draws := rfl
@[simp] theorem State.withFramebuffer_report (w h : Nat) (g : Vector Byte 256) : (s.withFramebuffer w h g).report = s.report := rfl

@[simp] theorem State.withPorts_fbReady (t b : Port) : (s.withPorts t b).fbReady = s.fbReady := rfl
@[simp] theorem State.withPorts_fbW (t b : Port) : (s.withPorts t b).fbW = s.fbW := rfl
@[simp] theorem State.withPorts_fbH (t b : Port) : (s.withPorts t b).fbH = s.fbH := rfl
@[simp] theorem State.withPorts_hflip (t b : Port) : (s.withPorts t b).hflip = s.hflip := rfl
@[simp] theorem State.withPorts_vflip (t b : Port) : (s.withPorts t b).vflip = s.vflip := rfl
@[simp] theorem State.withPorts_gt (t b : Port) : (s.withPorts t b).gt = s.gt := rfl
@[simp] theorem State.withPorts_pp (t b : Port) : (s.withPorts t b).pp = s.pp := rfl
@[simp] theorem State.withPorts_pdReady (t b : Port) : (s.withPorts t b).pdReady = true := rfl
@[simp] theorem State.withPorts_textPort (t b : Port) : (s.withPorts t b).textPort = t := rfl
@[simp] theorem State.withPorts_binPort (t b : Port) : (s.withPorts t b).binPort = b := rfl
@[simp] theorem State.withPorts_pd (t b : Port) : (s.withPorts t b).pd = s.pd := rfl
@[simp] theorem State.withPorts_seReady (t b : Port) : (s.withPorts t b).seReady = s.seReady := rfl
@[simp] theorem State.withPorts_mode (t b : Port) : (s.withPorts t b).mode = s.mode := rfl
@[simp] theorem State.withPorts_en (t b : Port) : (s.withPorts t b).en = s.en := rfl
@[simp] theorem State.withPorts_phase (t b : Port) : (s.withPorts t b).phase = s.phase := rfl
@[simp] theorem State.withPorts_frameCnt (t b : Port) : (s.withPorts t b).frameCnt = s.frameCnt := rfl
@[simp] theorem State.withPorts_acc (t b : Port) : (s.withPorts t b).acc = s.acc := rfl
@[simp] theorem State.withPorts_pins (t b : Port) : (s.withPorts t b).pins = s.pins := rfl
@[simp] theorem State.withPorts_trace (t b : Port) : (s.withPorts t b).trace = s.trace := rfl
@[simp] theorem State.withPorts_host (t b : Port) : (s.withPorts t b).host = s.host := rfl
@[simp] theorem State.withPorts_tick (t b : Port) : (s.withPorts t b).tick = s.tick := rfl
@[simp] theorem State.withPorts_inbox (t b : Port) : (s.withPorts t b).inbox = s.inbox := rfl
@[simp] theorem State.withPorts_sched (t b : Port) : (s.withPorts t b).sched = s.sched := rfl
@[simp] theorem State.withPorts_draws (t b : Port) : (s.withPorts t b).draws = s.draws := rfl
@[simp] theorem State.withPorts_report (t b : Port) : (s.withPorts t b).report = s.report := rfl

@[simp] theorem State.withEngine_fbReady (m : Mode) (v : List Byte) : (s.withEngine m v).fbReady = s.fbReady := rfl
@[simp] theorem State.withEngine_fbW (m : Mode) (v : List Byte) : (s.withEngine m v).fbW = s.fbW := rfl
@[simp] theorem State.withEngine_fbH (m : Mode) (v : List Byte) : (s.withEngine m v).fbH = s.fbH := rfl
@[simp] theorem State.withEngine_hflip (m : Mode) (v : List Byte) : (s.withEngine m v).hflip = s.hflip := rfl
@[simp] theorem State.withEngine_vflip (m : Mode) (v : List Byte) : (s.withEngine m v).vflip = s.vflip := rfl
@[simp] theorem State.withEngine_gt (m : Mode) (v : List Byte) : (s.withEngine m v).gt = s.gt := rfl
@[simp] theorem State.withEngine_pp (m : Mode) (v : List Byte) : (s.withEngine m v).pp = s.pp := rfl
@[simp] theorem State.withEngine_pdReady (m : Mode) (v : List Byte) : (s.withEngine m v).pdReady = s.pdReady := rfl
@[simp] theorem State.withEngine_textPort (m : Mode) (v : List Byte) : (s.withEngine m v).textPort = s.textPort := rfl
@[simp] theorem State.withEngine_binPort (m : Mode) (v : List Byte) : (s.withEngine m v).binPort = s.binPort := rfl
@[simp] theorem State.withEngine_pd (m : Mode) (v : List Byte) : (s.withEngine m v).pd = s.pd := rfl
@[simp] theorem State.withEngine_seReady (m : Mode) (v : List Byte) : (s.withEngine m v).seReady = true := rfl
@[simp] theorem State.withEngine_mode (m : Mode) (v : List Byte) : (s.withEngine m v).mode = m := rfl
@[simp] theorem State.withEngine_en (m : Mode) (v : List Byte) : (s.withEngine m v).en = false := rfl
@[simp] theorem State.withEngine_phase (m : Mode) (v : List Byte) : (s.withEngine m v).phase = 0 := rfl
@[simp] theorem State.withEngine_frameCnt (m : Mode) (v : List Byte) : (s.withEngine m v).frameCnt = 0 := rfl
@[simp] theorem State.withEngine_acc (m : Mode) (v : List Byte) : (s.withEngine m v).acc = v := rfl
@[simp] theorem State.withEngine_pins (m : Mode) (v : List Byte) : (s.withEngine m v).pins = Pins.zero := rfl
@[simp] theorem State.withEngine_trace (m : Mode) (v : List Byte) : (s.withEngine m v).trace = s.trace := rfl
@[simp] theorem State.withEngine_host (m : Mode) (v : List Byte) : (s.withEngine m v).host = s.host := rfl
@[simp] theorem State.withEngine_tick (m : Mode) (v : List Byte) : (s.withEngine m v).tick = s.tick := rfl
@[simp] theorem State.withEngine_inbox (m : Mode) (v : List Byte) : (s.withEngine m v).inbox = s.inbox := rfl
@[simp] theorem State.withEngine_sched (m : Mode) (v : List Byte) : (s.withEngine m v).sched = s.sched := rfl
@[simp] theorem State.withEngine_draws (m : Mode) (v : List Byte) : (s.withEngine m v).draws = s.draws := rfl
@[simp] theorem State.withEngine_report (m : Mode) (v : List Byte) : (s.withEngine m v).report = s.report := rfl

@[simp] theorem State.emit_fbReady (v : Event) : (s.emit v).fbReady = s.fbReady := rfl
@[simp] theorem State.emit_fbW (v : Event) : (s.emit v).fbW = s.fbW := rfl
@[simp] theorem State.emit_fbH (v : Event) : (s.emit v).fbH = s.fbH := rfl
@[simp] theorem State.emit_hflip (v : Event) : (s.emit v).hflip = s.hflip := rfl
@[simp] theorem State.emit_vflip (v : Event) : (s.emit v).vflip = s.vflip := rfl
@[simp] theorem State.emit_gt (v : Event) : (s.emit v).gt = s.gt := rfl
@[simp] theorem State.emit_pp (v : Event) : (s.emit v).pp = s.pp := rfl
@[simp] theorem State.emit_pdReady (v : Event) : (s.emit v).pdReady = s.pdReady := rfl
@[simp] theorem State.emit_textPort (v : Event) : (s.emit v).textPort = s.textPort := rfl
@[simp] theorem State.emit_binPort (v : Event) : (s.emit v).binPort = s.binPort := rfl
@[simp] theorem State.emit_pd (v : Event) : (s.emit v).pd = s.pd := rfl
@[simp] theorem State.emit_seReady (v : Event) : (s.emit v).seReady = s.seReady := rfl
@[simp] theorem State.emit_mode (v : Event) : (s.emit v).mode = s.mode := rfl
@[simp] theorem State.emit_en (v : Event) : (s.emit v).en = s.en := rfl
@[simp] theorem State.emit_phase (v : Event) : (s.emit v).phase = s.phase := rfl
@[simp] theorem State.emit_frameCnt (v : Event) : (s.emit v).frameCnt = s.frameCnt := rfl
@[simp] theorem State.emit_acc (v : Event) : (s.emit v).acc = s.acc := rfl
@[simp] theorem State.emit_pins (v : Event) : (s.emit v).pins = s.pins.apply v := rfl
@[simp] theorem State.emit_trace (v : Event) : (s.emit v).trace = s.trace ++ [v] := rfl
@[simp] theorem State.emit_host (v : Event) : (s.emit v).host = s.host := rfl
@[simp] theorem State.emit_tick (v : Event) : (s.emit v).tick = s.tick := rfl
@[simp] theorem State.emit_inbox (v : Event) : (s.emit v).inbox = s.inbox := rfl
@[simp] theorem State.emit_sched (v : Event) : (s.emit v).sched = s.sched := rfl
@[simp] theorem State.emit_draws (v : Event) : (s.emit v).draws = s.draws := rfl
@[simp] theorem State.emit_report (v : Event) : (s.emit v).report = s.report := rfl

@[simp] theorem State.withPp_cells (v : Memory) : (s.withPp v).cells = s.cells := rfl
@[simp] theorem State.withPp_gamma (v : Memory) (i : Byte) : (s.withPp v).gamma i = s.gamma i := rfl
@[simp] theorem State.withPp_accepts (v : Memory) (x y : Int) : (s.withPp v).accepts x y = s.accepts x y := rfl
@[simp] theorem State.withPp_cellIndex (v : Memory) (x y : Nat) : (s.withPp v).cellIndex x y = s.cellIndex x y := rfl
@[simp] theorem State.withPp_pixelStore (v : Memory) (x y : Int) (i : Byte) : (s.withPp v).pixelStore x y i = s.pixelStore x y i := rfl
@[simp] theorem State.withPp_canParse (v : Memory) : (s.withPp v).canParse = s.canParse := rfl
@[simp] theorem State.withPp_outside (v : Memory) (x y : Nat) : (s.withPp v).outside x y = s.outside x y := rfl

@[simp] theorem State.withAcc_cells (v : List Byte) : (s.withAcc v).cells = s.cells := rfl
@[simp] theorem State.withAcc_gamma (v : List Byte) (i : Byte) : (s.withAcc v).gamma i = s.gamma i := rfl
@[simp] theorem State.withAcc_accepts (v : List Byte) (x y : Int) : (s.withAcc v).accepts x y = s.accepts x y := rfl
@[simp] theorem State.withAcc_cellIndex (v : List Byte) (x y : Nat) : (s.withAcc v).cellIndex x y = s.cellIndex x y := rfl
@[simp] theorem State.withAcc_pixelStore (v : List Byte) (x y : Int) (i : Byte) : (s.withAcc v).pixelStore x y i = s.pixelStore x y i := rfl
@[simp] theorem State.withAcc_canParse (v : List Byte) : (s.withAcc v).canParse = s.canParse := rfl
@[simp] theorem State.withAcc_outside (v : List Byte) (x y : Nat) : (s.withAcc v).outside x y = s.outside x y := rfl
@[simp] theorem State.withAcc_readCell (v : List Byte) (a : Nat) : (s.withAcc v).readCell a = s.readCell a := rfl

@[simp] theorem State.withPd_cells (v : PdRegs) : (s.withPd v).cells = s.cells := rfl
@[simp] theorem State.withPd_gamma (v : PdRegs) (i : Byte) : (s.withPd v).gamma i = s.gamma i := rfl
@[simp] theorem State.withPd_accepts (v : PdRegs) (x y : Int) : (s.withPd v).accepts x y = s.accepts x y := rfl
@[simp] theorem State.withPd_cellIndex (v : PdRegs) (x y : Nat) : (s.withPd v).cellIndex x y = s.cellIndex x y := rfl
@[simp] theorem State.withPd_pixelStore (v : PdRegs) (x y : Int) (i : Byte) : (s.withPd v).pixelStore x y i = s.pixelStore x y i := rfl
@[simp] theorem State.withPd_canParse (v : PdRegs) : (s.withPd v).canParse = s.canParse := rfl
@[simp] theorem State.withPd_outside (v : PdRegs) (x y : Nat) : (s.withPd v).outside x y = s.outside x y := rfl
@[simp] theorem State.withPd_readCell (v : PdRegs) (a : Nat) : (s.withPd v).readCell a = s.readCell a := rfl

@[simp] theorem State.withHost_cells (v : HostActivity) : (s.withHost v).cells = s.cells := rfl
@[simp] theorem State.withHost_gamma (v : HostActivity) (i : Byte) : (s.withHost v).gamma i = s.gamma i := rfl
@[simp] theorem State.withHost_accepts (v : HostActivity) (x y : Int) : (s.withHost v).accepts x y = s.accepts x y := rfl
@[simp] theorem State.withHost_cellIndex (v : HostActivity) (x y : Nat) : (s.withHost v).cellIndex x y = s.cellIndex x y := rfl
@[simp] theorem State.withHost_pixelStore (v : HostActivity) (x y : Int) (i : Byte) : (s.withHost v).pixelStore x y i = s.pixelStore x y i := rfl
@[simp] theorem State.withHost_canParse (v : HostActivity) : (s.withHost v).canParse = s.canParse := rfl
@[simp] theorem State.withHost_outside (v : HostActivity) (x y : Nat) : (s.withHost v).outside x y = s.outside x y := rfl
@[simp] theorem State.withHost_readCell (v : HostActivity) (a : Nat) : (s.withHost v).readCell a = s.readCell a := rfl

@[simp] theorem State.withTick_cells (v : Option (List Nat)) : (s.withTick v).cells = s.cells := rfl
@[simp] theorem State.withTick_gamma (v : Option (List Nat)) (i : Byte) : (s.withTick v).gamma i = s.gamma i := rfl
@[simp] theorem State.withTick_accepts (v : Option (List Nat)) (x y : Int) : (s.withTick v).accepts x y = s.accepts x y := rfl
@[simp] theorem State.withTick_cellIndex (v : Option (List Nat)) (x y : Nat) : (s.withTick v).cellIndex x y = s.cellIndex x y := rfl
@[simp] theorem State.withTick_pixelStore (v : Option (List Nat)) (x y : Int) (i : Byte) : (s.withTick v).pixelStore x y i = s.pixelStore x y i := rfl
@[simp] theorem State.withTick_canParse (v : Option (List Nat)) : (s.withTick v).canParse = s.canParse := rfl
@[simp] theorem State.withTick_outside (v : Option (List Nat)) (x y : Nat) : (s.withTick v).outside x y = s.outside x y := rfl
@[simp] theorem State.withTick_readCell (v : Option (List Nat)) (a : Nat) : (s.withTick v).readCell a = s.readCell a := rfl

@[simp] theorem State.withDraws_cells (v : Nat) : (s.withDraws v).cells = s.cells := rfl
@[simp] theorem State.withDraws_gamma (v : Nat) (i : Byte) : (s.withDraws v).gamma i = s.gamma i := rfl
@[simp] theorem State.withDraws_accepts (v : Nat) (x y : Int) : (s.withDraws v).accepts x y = s.accepts x y := rfl
@[simp] theorem State.withDraws_cellIndex (v : Nat) (x y : Nat) : (s.withDraws v).cellIndex x y = s.cellIndex x y := rfl
@[simp] theorem State.withDraws_pixelStore (v : Nat) (x y : Int) (i : Byte) : (s.withDraws v).pixelStore x y i = s.pixelStore x y i := rfl
@[simp] theorem State.withDraws_canParse (v : Nat) : (s.withDraws v).canParse = s.canParse := rfl
@[simp] theorem State.withDraws_outside (v : Nat) (x y : Nat) : (s.withDraws v).outside x y = s.outside x y := rfl
@[simp] theorem State.withDraws_readCell (v : Nat) (a : Nat) : (s.withDraws v).readCell a = s.readCell a := rfl

@[simp] theorem State.withReport_cells (v : Report) : (s.withReport v).cells = s.cells := rfl
@[simp] theorem State.withReport_gamma (v : Report) (i : Byte) : (s.withReport v).gamma i = s.gamma i := rfl
@[simp] theorem State.withReport_accepts (v : Report) (x y : Int) : (s.withReport v).accepts x y = s.accepts x y := rfl
@[simp] theorem State.withReport_cellIndex (v : Report) (x y : Nat) : (s.withReport v).cellIndex x y = s.cellIndex x y := rfl
@[simp] theorem State.withReport_pixelStore (v : Report) (x y : Int) (i : Byte) : (s.withReport v).pixelStore x y i = s.pixelStore x y i := rfl
@[simp] theorem State.withReport_canParse (v : Report) : (s.withReport v).canParse = s.canParse := rfl
@[simp] theorem State.withReport_outside (v : Report) (x y : Nat) : (s.withReport v).outside x y = s.outside x y := rfl
@[simp] theorem State.withReport_readCell (v : Report) (a : Nat) : (s.withReport v).readCell a = s.readCell a := rfl

@[simp] theorem State.withInbox_cells (v : List (List Byte)) : (s.withInbox v).cells = s.cells := rfl
@[simp] theorem State.withInbox_gamma (v : List (List Byte)) (i : Byte) : (s.withInbox v).gamma i = s.gamma i := rfl
@[simp] theorem State.withInbox_accepts (v : List (List Byte)) (x y : Int) : (s.withInbox v).accepts x y = s.accepts x y := rfl
@[simp] theorem State.withInbox_cellIndex (v : List (List Byte)) (x y : Nat) : (s.withInbox v).cellIndex x y = s.cellIndex x y := rfl
@[simp] theorem State.withInbox_pixelStore (v : List (List Byte)) (x y : Int) (i : Byte) : (s.withInbox v).pixelStore x y i = s.pixelStore x y i := rfl
@[simp] theorem State.withInbox_canParse (v : List (List Byte)) : (s.withInbox v).canParse = s.canParse := rfl
@[simp] theorem State.withInbox_outside (v : List (List Byte)) (x y : Nat) : (s.withInbox v).outside x y = s.outside x y := rfl
@[simp] theorem State.withInbox_readCell (v : List (List Byte)) (a : Nat) : (s.withInbox v).readCell a = s.readCell a := rfl

@[simp] theorem State.withSched_cells (v : List Turn) : (s.withSched v).cells = s.cells := rfl
@[simp] theorem State.withSched_gamma (v : List Turn) (i : Byte) : (s.withSched v).gamma i = s.gamma i := rfl
@[simp] theorem State.withSched_accepts (v : List Turn) (x y : Int) : (s.withSched v).accepts x y = s.accepts x y := rfl
@[simp] theorem State.withSched_cellIndex (v : List Turn) (x y : Nat) : (s.withSched v).cellIndex x y = s.cellIndex x y := rfl
@[simp] theorem State.withSched_pixelStore (v : List Turn) (x y : Int) (i : Byte) : (s.withSched v).pixelStore x y i = s.pixelStore x y i := rfl
@[simp] theorem State.withSched_canParse (v : List Turn) : (s.withSched v).canParse = s.canParse := rfl
@[simp] theorem State.withSched_outside (v : List Turn) (x y : Nat) : (s.withSched v).outside x y = s.outside x y := rfl
@[simp] theorem State.withSched_readCell (v : List Turn) (a : Nat) : (s.withSched v).readCell a = s.readCell a := rfl

@[simp] theorem State.withEn_cells (v : Bool) : (s.withEn v).cells = s.cells := rfl
@[simp] theorem State.withEn_gamma (v : Bool) (i : Byte) : (s.withEn v).gamma i = s.gamma i := rfl
@[simp] theorem State.withEn_accepts (v : Bool) (x y : Int) : (s.withEn v).accepts x y = s.accepts x y := rfl
@[simp] theorem State.withEn_cellIndex (v : Bool) (x y : Nat) : (s.withEn v).cellIndex x y = s.cellIndex x y := rfl
@[simp] theorem State.withEn_pixelStore (v : Bool) (x y : Int) (i : Byte) : (s.withEn v).pixelStore x y i = s.pixelStore x y i := rfl
@[simp] theorem State.withEn_canParse (v : Bool) : (s.withEn v).canParse = s.canParse := rfl
@[simp] theorem State.withEn_outside (v : Bool) (x y : Nat) : (s.withEn v).outside x y = s.outside x y := rfl
@[simp] theorem State.withEn_readCell (v : Bool) (a : Nat) : (s.withEn v).readCell a = s.readCell a := rfl

@[simp] theorem State.withFlips_cells (h v : Bool) : (s.withFlips h v).cells = s.cells := rfl
@[simp] theorem State.withFlips_gamma (h v : Bool) (i : Byte) : (s.withFlips h v).gamma i = s.gamma i := rfl
@[simp] theorem State.withFlips_accepts (h v : Bool) (x y : Int) : (s.withFlips h v).accepts x y = s.accepts x y := rfl
@[simp] theorem State.withFlips_canParse (h v : Bool) : (s.withFlips h v).canParse = s.canParse := rfl
@[simp] theorem State.withFlips_outside (h v : Bool) (x y : Nat) : (s.withFlips h v).outside x y = s.outside x y := rfl
@[simp] theorem State.withFlips_readCell (h v : Bool) (a : Nat) : (s.withFlips h v).readCell a = s.readCell a := rfl

@[simp] theorem State.withFramebuffer_readCell (w h : Nat) (g : Vector Byte 256) (a : Nat) : (s.withFramebuffer w h g).readCell a = s.readCell a := rfl

@[simp] theorem State.withPorts_cells (t b : Port) : (s.withPorts t b).cells = s.cells := rfl
@[simp] theorem State.withPorts_gamma (t b : Port) (i : Byte) : (s.withPorts t b).gamma i = s.gamma i := rfl
@[simp] theorem State.withPorts_accepts (t b : Port) (x y : Int) : (s.withPorts t b).accepts x y = s.accepts x y := rfl
@[simp] theorem State.withPorts_cellIndex (t b : Port) (x y : Nat) : (s.withPorts t b).cellIndex x y = s.cellIndex x y := rfl
@[simp] theorem State.withPorts_pixelStore (t b : Port) (x y : Int) (i : Byte) : (s.withPorts t b).pixelStore x y i = s.pixelStore x y i := rfl
@[simp] theorem State.withPorts_outside (t b : Port) (x y : Nat) : (s.withPorts t b).outside x y = s.outside x y := rfl
@[simp] theorem State.withPorts_readCell (t b : Port) (a : Nat) : (s.withPorts t b).readCell a = s.readCell a := rfl

@[simp] theorem State.withEngine_cells (m : Mode) (v : List Byte) : (s.withEngine m v).cells = s.cells := rfl
@[simp] theorem State.withEngine_gamma (m : Mode) (v : List Byte) (i : Byte) : (s.withEngine m v).gamma i = s.gamma i := rfl
@[simp] theorem State.withEngine_accepts (m : Mode) (v : List Byte) (x y : Int) : (s.withEngine m v).accepts x y = s.accepts x y := rfl
@[simp] theorem State.withEngine_cellIndex (m : Mode) (v : List Byte) (x y : Nat) : (s.withEngine m v).cellIndex x y = s.cellIndex x y := rfl
@[simp] theorem State.withEngine_pixelStore (m : Mode) (v : List Byte) (x y : Int) (i : Byte) : (s.withEngine m v).pixelStore x y i = s.pixelStore x y i := rfl
@[simp] theorem State.withEngine_canParse (m : Mode) (v : List Byte) : (s.withEngine m v).canParse = s.canParse := rfl
@[simp] theorem State.withEngine_outside (m : Mode) (v : List Byte) (x y : Nat) : (s.withEngine m v).outside x y = s.outside x y := rfl
@[simp] theorem State.withEngine_readCell (m : Mode) (v : List Byte) (a : Nat) : (s.withEngine m v).readCell a = s.readCell a := rfl

@[simp] theorem State.emit_cells (v : Event) : (s.emit v).cells = s.cells := rfl
@[simp] theorem State.emit_gamma (v : Event) (i : Byte) : (s.emit v).gamma i = s.gamma i := rfl
@[simp] theorem State.emit_accepts (v : Event) (x y : Int) : (s.emit v).accepts x y = s.accepts x y := rfl
@[simp] theorem State.emit_cellIndex (v : Event) (x y : Nat) : (s.emit v).cellIndex x y = s.cellIndex x y := rfl
@[simp] theorem State.emit_pixelStore (v : Event) (x y : Int) (i : Byte) : (s.emit v).pixelStore x y i = s.pixelStore x y i := rfl
@[simp] theorem State.emit_canParse (v : Event) : (s.emit v).canParse = s.canParse := rfl
@[simp] theorem State.emit_outside (v : Event) (x y : Nat) : (s.emit v).outside x y = s.outside x y := rfl
@[simp] theorem State.emit_readCell (v : Event) (a : Nat) : (s.emit v).readCell a = s.readCell a := rfl

@[simp] theorem State.endHostOp_eq (r : Report) : s.endHostOp r = (s.withHost .idle).withReport r := rfl

@[simp] theorem State.stopDatagram_eq (c : StopCause) : s.stopDatagram c = (s.withHost .idle).withReport ⟨.none, some c⟩ := rfl

@[simp] theorem State.advance_eq (n : Nat) : s.advance n = s.withPd { s.pd with pos := s.pd.pos + n } := rfl

end Fields

end Sys2Proof.Machine
end

