-- ==== Sys2Proof/Laws/Ops.lean ====
section
/-! SUPPORT. One lemma for each shared operation that says once what it can do: sequencing, the plane stores of a HOST operation, the
pixel write, the output events, the end of a phase step. -/

namespace Sys2Proof.Machine

/-! ## Sequencing -/

@[simp] theorem andThen_next (s : State) (k : State → Out) : andThen (.next s) k = k s := rfl
@[simp] theorem andThen_fault (r : Fault) (k : State → Out) : andThen (.fault r) k = .fault r := rfl
@[simp] theorem andThen_refused (r : Refusal) (k : State → Out) : andThen (.refused r) k = .refused r := rfl

theorem andThen_assoc (o : Out) (k l : State → Out) : andThen (andThen o k) l = andThen o fun s => andThen (k s) l := by
  cases o <;> rfl

theorem andThen_eq_next {o : Out} {k : State → Out} {t : State} : andThen o k = .next t ↔ ∃ s, o = .next s ∧ k s = .next t := by
  cases o <;> simp [andThen]

theorem andThen_eq_fault {o : Out} {k : State → Out} {f : Fault} :
    andThen o k = .fault f ↔ o = .fault f ∨ ∃ s, o = .next s ∧ k s = .fault f := by
  cases o <;> simp [andThen]

/-! ## Where a write is stored -/

theorem flipCoord_lt {n x : Nat} (f : Bool) (h : x < n) : flipCoord f n x < n := by
  unfold flipCoord; split <;> omega

/-- R187: ys * W + xs < W * H. -/
theorem State.cellIndex_lt (s : State) {x y : Nat} (hx : x < s.fbW) (hy : y < s.fbH) : s.cellIndex x y < s.cells := by
  have h1 := flipCoord_lt s.hflip hx
  have h2 := flipCoord_lt s.vflip hy
  unfold State.cellIndex State.cells
  calc flipCoord s.vflip s.fbH y * s.fbW + flipCoord s.hflip s.fbW x
      < (flipCoord s.vflip s.fbH y + 1) * s.fbW := by rw [Nat.succ_mul]; omega
    _ ≤ s.fbH * s.fbW := Nat.mul_le_mul_right _ h2
    _ = s.fbW * s.fbH := Nat.mul_comm _ _

theorem State.accepts_iff (s : State) (x y : Int) : s.accepts x y = true ↔ 0 ≤ x ∧ x < s.fbW ∧ 0 ≤ y ∧ y < s.fbH := by
  simp [State.accepts]

/-- R61: the index of a store an FB_WRITE makes lies in the plane. -/
theorem State.pixelStore_lt {s : State} {x y : Int} {i : Byte} {c : Host.Cell} (h : s.pixelStore x y i = some c) : c.1 < s.cells := by
  unfold State.pixelStore at h
  split at h
  · rename_i ha
    rw [State.accepts_iff] at ha
    cases h
    exact s.cellIndex_lt (by omega) (by omega)
  · cases h

/-! ## Plane stores -/

theorem storeCell_of_lt {s : State} {a : Nat} (h : a < s.cells) (v : Byte) :
    storeCell a v s = .next (s.withPp (s.pp.write a v)) := if_pos h

theorem storeCell_eq_next {s t : State} {a : Nat} {v : Byte} :
    storeCell a v s = .next t ↔ a < s.cells ∧ t = s.withPp (s.pp.write a v) := by
  unfold storeCell; split <;> simp_all [eq_comm]

/-- A run of stores, in order. -/
def Memory.writeAll (m : Memory) (cs : List Host.Cell) : Memory := cs.foldl (fun m c => m.write c.1 c.2) m

@[simp] theorem Memory.writeAll_nil (m : Memory) : m.writeAll [] = m := rfl
@[simp] theorem Memory.writeAll_cons (m : Memory) (c : Host.Cell) (cs : List Host.Cell) :
    m.writeAll (c :: cs) = (m.write c.1 c.2).writeAll cs := rfl

theorem Memory.wf_writeAll {m : Memory} (h : m.wf = true) (cs : List Host.Cell) : (m.writeAll cs).wf = true := by
  induction cs generalizing m with
  | nil => exact h
  | cons c cs ih => exact ih (Memory.wf_write h _ _)

/-- A cell that no store of a run names reads as before. -/
theorem Memory.read?_writeAll_other (m : Memory) (cs : List Host.Cell) {a : Nat} (h : ∀ c ∈ cs, c.1 ≠ a) :
    (m.writeAll cs).read? a = m.read? a := by
  induction cs generalizing m with
  | nil => rfl
  | cons c cs ih =>
    rw [Memory.writeAll_cons, ih _ fun d hd => h d (List.mem_cons_of_mem _ hd),
      Memory.read?_write_other _ _ (Ne.symm (h c List.mem_cons_self))]

/-- A cell that some store of a run names reads what one of them stored. -/
theorem Memory.read?_writeAll_mem (m : Memory) (cs : List Host.Cell) {a : Nat} (h : ∃ c ∈ cs, c.1 = a) :
    ∃ c ∈ cs, c.1 = a ∧ (m.writeAll cs).read? a = some c.2 := by
  induction cs generalizing m with
  | nil => simp at h
  | cons c cs ih =>
    by_cases h' : ∃ d ∈ cs, d.1 = a
    · obtain ⟨d, hd, e, r⟩ := ih (m.write c.1 c.2) h'
      exact ⟨d, List.mem_cons_of_mem _ hd, e, r⟩
    · obtain ⟨d, hd, e⟩ := h
      have hc : c.1 = a := by
        rcases List.mem_cons.1 hd with rfl | hd
        · exact e
        · exact absurd ⟨d, hd, e⟩ h'
      refine ⟨c, List.mem_cons_self, hc, ?_⟩
      rw [Memory.writeAll_cons, Memory.read?_writeAll_other _ _ fun d hd e => h' ⟨d, hd, e⟩, ← hc, Memory.read?_write_same]

/-- The rest of a HOST operation whose stores all lie in the plane: they are made, and the operation ends. -/
theorem finishStores_of_lt {cs : List Host.Cell} {s : State} (h : ∀ c ∈ cs, c.1 < s.cells) (r : Report) :
    finishStores cs r s = .next ((s.withPp (s.pp.writeAll cs)).endHostOp r) := by
  induction cs generalizing s with
  | nil => rfl
  | cons c cs ih =>
    rw [finishStores, storeCell_of_lt (by simpa using h c List.mem_cons_self), andThen_next,
      ih (by intro d hd; simpa using h d (List.mem_cons_of_mem _ hd))]
    rfl

/-- A HOST operation's stores change only the plane, and lie in it. -/
theorem finishStores_eq_next {cs : List Host.Cell} {r : Report} {s t : State} (h : finishStores cs r s = .next t) :
    (∀ c ∈ cs, c.1 < s.cells) ∧ t = (s.withPp (s.pp.writeAll cs)).endHostOp r := by
  have key : ∀ c ∈ cs, c.1 < s.cells := by
    induction cs generalizing s with
    | nil => simp
    | cons c cs ih =>
      rw [finishStores, andThen_eq_next] at h
      obtain ⟨u, hu, hk⟩ := h
      rw [storeCell_eq_next] at hu
      obtain ⟨hc, rfl⟩ := hu
      intro d hd
      rcases List.mem_cons.1 hd with rfl | hd
      · simpa using hc
      · simpa using ih hk d hd
  exact ⟨key, by rw [finishStores_of_lt key] at h; cases h; rfl⟩

theorem State.clearStores_lt {s : State} {n : Nat} (h : n = s.cells) :
    ∀ c ∈ (List.range n).map (fun a => ((a, 0) : Host.Cell)), c.1 < s.cells := by
  intro c hc
  simp only [List.mem_map, List.mem_range] at hc
  obtain ⟨a, ha, rfl⟩ := hc
  omega

theorem State.pixelStores_lt (s : State) (ps : List (Int × Int)) (i : Byte) :
    ∀ c ∈ ps.filterMap (fun p => s.pixelStore p.1 p.2 i), c.1 < s.cells := by
  intro c hc
  obtain ⟨p, -, hp⟩ := List.mem_filterMap.1 hc
  exact State.pixelStore_lt hp

/-- The pixel write always has a next state, which differs in the plane alone. -/
theorem writePixel_next (x y : Int) (i : Byte) (s : State) :
    writePixel x y i s = .next (s.withPp (s.pp.writeAll (s.pixelStore x y i).toList)) := by
  unfold writePixel
  split
  · rename_i c h
    rw [storeCell_of_lt (State.pixelStore_lt h), h]; rfl
  · rename_i h; rw [h]; rfl

/-- The pixel write of a coordinate of the plane. -/
theorem writePixel_of_lt {x y : Nat} {s : State} (i : Byte) (hx : x < s.fbW) (hy : y < s.fbH) :
    writePixel x y i s = .next (s.withPp (s.pp.write (s.cellIndex x y) (s.gamma i))) := by
  have : s.pixelStore x y i = some (s.cellIndex x y, s.gamma i) := by
    have : s.accepts x y = true := by rw [State.accepts_iff]; omega
    simp [State.pixelStore, this]
  rw [writePixel_next, this]; rfl

/-! ## Output events -/

/-- A run of events. -/
def State.emitAll (s : State) (es : List Event) : State := es.foldl State.emit s

@[simp] theorem State.emitAll_nil (s : State) : s.emitAll [] = s := rfl
@[simp] theorem State.emitAll_cons (s : State) (e : Event) (es : List Event) : s.emitAll (e :: es) = (s.emit e).emitAll es := rfl

theorem State.emitAll_append (s : State) (es fs : List Event) : s.emitAll (es ++ fs) = (s.emitAll es).emitAll fs :=
  List.foldl_append

/-- A run of events appends them to the trace, applies them to the pins, and changes nothing else. -/
theorem State.emitAll_eq (s : State) (es : List Event) :
    s.emitAll es = { s with pins := es.foldl Pins.apply s.pins, trace := s.trace ++ es } := by
  induction es generalizing s with
  | nil => simp
  | cons e es ih => rw [State.emitAll_cons, ih]; simp [State.emit]

@[simp] theorem State.emitAll_fbReady (s : State) (es : List Event) : (s.emitAll es).fbReady = s.fbReady := by rw [State.emitAll_eq]
@[simp] theorem State.emitAll_fbW (s : State) (es : List Event) : (s.emitAll es).fbW = s.fbW := by rw [State.emitAll_eq]
@[simp] theorem State.emitAll_fbH (s : State) (es : List Event) : (s.emitAll es).fbH = s.fbH := by rw [State.emitAll_eq]
@[simp] theorem State.emitAll_hflip (s : State) (es : List Event) : (s.emitAll es).hflip = s.hflip := by rw [State.emitAll_eq]
@[simp] theorem State.emitAll_vflip (s : State) (es : List Event) : (s.emitAll es).vflip = s.vflip := by rw [State.emitAll_eq]
@[simp] theorem State.emitAll_gt (s : State) (es : List Event) : (s.emitAll es).gt = s.gt := by rw [State.emitAll_eq]
@[simp] theorem State.emitAll_pp (s : State) (es : List Event) : (s.emitAll es).pp = s.pp := by rw [State.emitAll_eq]
@[simp] theorem State.emitAll_pdReady (s : State) (es : List Event) : (s.emitAll es).pdReady = s.pdReady := by rw [State.emitAll_eq]
@[simp] theorem State.emitAll_textPort (s : State) (es : List Event) : (s.emitAll es).textPort = s.textPort := by rw [State.emitAll_eq]
@[simp] theorem State.emitAll_binPort (s : State) (es : List Event) : (s.emitAll es).binPort = s.binPort := by rw [State.emitAll_eq]
@[simp] theorem State.emitAll_pd (s : State) (es : List Event) : (s.emitAll es).pd = s.pd := by rw [State.emitAll_eq]
@[simp] theorem State.emitAll_seReady (s : State) (es : List Event) : (s.emitAll es).seReady = s.seReady := by rw [State.emitAll_eq]
@[simp] theorem State.emitAll_mode (s : State) (es : List Event) : (s.emitAll es).mode = s.mode := by rw [State.emitAll_eq]
@[simp] theorem State.emitAll_en (s : State) (es : List Event) : (s.emitAll es).en = s.en := by rw [State.emitAll_eq]
@[simp] theorem State.emitAll_phase (s : State) (es : List Event) : (s.emitAll es).phase = s.phase := by rw [State.emitAll_eq]
@[simp] theorem State.emitAll_frameCnt (s : State) (es : List Event) : (s.emitAll es).frameCnt = s.frameCnt := by rw [State.emitAll_eq]
@[simp] theorem State.emitAll_acc (s : State) (es : List Event) : (s.emitAll es).acc = s.acc := by rw [State.emitAll_eq]
@[simp] theorem State.emitAll_pins (s : State) (es : List Event) : (s.emitAll es).pins = es.foldl Pins.apply s.pins := by rw [State.emitAll_eq]
@[simp] theorem State.emitAll_trace (s : State) (es : List Event) : (s.emitAll es).trace = s.trace ++ es := by rw [State.emitAll_eq]
@[simp] theorem State.emitAll_host (s : State) (es : List Event) : (s.emitAll es).host = s.host := by rw [State.emitAll_eq]
@[simp] theorem State.emitAll_tick (s : State) (es : List Event) : (s.emitAll es).tick = s.tick := by rw [State.emitAll_eq]
@[simp] theorem State.emitAll_inbox (s : State) (es : List Event) : (s.emitAll es).inbox = s.inbox := by rw [State.emitAll_eq]
@[simp] theorem State.emitAll_sched (s : State) (es : List Event) : (s.emitAll es).sched = s.sched := by rw [State.emitAll_eq]
@[simp] theorem State.emitAll_draws (s : State) (es : List Event) : (s.emitAll es).draws = s.draws := by rw [State.emitAll_eq]
@[simp] theorem State.emitAll_report (s : State) (es : List Event) : (s.emitAll es).report = s.report := by rw [State.emitAll_eq]

/-! ## The end of a phase step -/

/-- The events that end a phase step: LATCH, SELECT, and FRAME on the wrap of PHASE (R215, R216). -/
def State.closingEvents (s : State) : List Event :=
  [.latch, .select s.phase] ++ if s.phase = 3 then [.frame s.frameCnt] else []

/-- R40, R45: what those events leave on the pins. -/
theorem State.closingEvents_pins (s : State) (p : Pins) :
    s.closingEvents.foldl Pins.apply p = { p with colLatch := false, rowSel := s.phase, rowEn := true } := by
  unfold State.closingEvents; split <;> rfl

/-- R40, R45: what SHIFT leaves on the pins. -/
theorem Pins.apply_shift (p : Pins) (b : Bool) : p.apply (.shift b) = { p with colData := b, colClk := false } := rfl

theorem phase_wraps (p : BitVec 2) : p + 1 = 0 ↔ p = 3 := by
  revert p; decide

/-- R215, R216: the end of a phase step, in full. -/
theorem State.endPhaseStep_eq (s : State) :
    s.endPhaseStep = { s.emitAll s.closingEvents with
      phase := s.phase + 1, tick := none, frameCnt := if s.phase = 3 then s.frameCnt + 1 else s.frameCnt } := by
  unfold State.endPhaseStep State.closingEvents
  simp only [phase_wraps]
  split <;> simp_all [State.emit, State.emitAll]

@[simp] theorem State.endPhaseStep_fbReady (s : State) : s.endPhaseStep.fbReady = s.fbReady := by
  rw [State.endPhaseStep_eq, State.emitAll_eq]
@[simp] theorem State.endPhaseStep_fbW (s : State) : s.endPhaseStep.fbW = s.fbW := by rw [State.endPhaseStep_eq, State.emitAll_eq]
@[simp] theorem State.endPhaseStep_fbH (s : State) : s.endPhaseStep.fbH = s.fbH := by rw [State.endPhaseStep_eq, State.emitAll_eq]
@[simp] theorem State.endPhaseStep_hflip (s : State) : s.endPhaseStep.hflip = s.hflip := by rw [State.endPhaseStep_eq, State.emitAll_eq]
@[simp] theorem State.endPhaseStep_vflip (s : State) : s.endPhaseStep.vflip = s.vflip := by rw [State.endPhaseStep_eq, State.emitAll_eq]
@[simp] theorem State.endPhaseStep_gt (s : State) : s.endPhaseStep.gt = s.gt := by rw [State.endPhaseStep_eq, State.emitAll_eq]
@[simp] theorem State.endPhaseStep_pp (s : State) : s.endPhaseStep.pp = s.pp := by rw [State.endPhaseStep_eq, State.emitAll_eq]
@[simp] theorem State.endPhaseStep_pdReady (s : State) : s.endPhaseStep.pdReady = s.pdReady := by
  rw [State.endPhaseStep_eq, State.emitAll_eq]
@[simp] theorem State.endPhaseStep_textPort (s : State) : s.endPhaseStep.textPort = s.textPort := by
  rw [State.endPhaseStep_eq, State.emitAll_eq]
@[simp] theorem State.endPhaseStep_binPort (s : State) : s.endPhaseStep.binPort = s.binPort := by
  rw [State.endPhaseStep_eq, State.emitAll_eq]
@[simp] theorem State.endPhaseStep_pd (s : State) : s.endPhaseStep.pd = s.pd := by rw [State.endPhaseStep_eq, State.emitAll_eq]
@[simp] theorem State.endPhaseStep_seReady (s : State) : s.endPhaseStep.seReady = s.seReady := by
  rw [State.endPhaseStep_eq, State.emitAll_eq]
@[simp] theorem State.endPhaseStep_mode (s : State) : s.endPhaseStep.mode = s.mode := by rw [State.endPhaseStep_eq, State.emitAll_eq]
@[simp] theorem State.endPhaseStep_en (s : State) : s.endPhaseStep.en = s.en := by rw [State.endPhaseStep_eq, State.emitAll_eq]
@[simp] theorem State.endPhaseStep_phase (s : State) : s.endPhaseStep.phase = s.phase + 1 := by rw [State.endPhaseStep_eq, State.emitAll_eq]
@[simp] theorem State.endPhaseStep_frameCnt (s : State) : s.endPhaseStep.frameCnt = if s.phase = 3 then s.frameCnt + 1 else s.frameCnt := by
  rw [State.endPhaseStep_eq, State.emitAll_eq]
@[simp] theorem State.endPhaseStep_acc (s : State) : s.endPhaseStep.acc = s.acc := by rw [State.endPhaseStep_eq, State.emitAll_eq]
@[simp] theorem State.endPhaseStep_pins (s : State) : s.endPhaseStep.pins = s.closingEvents.foldl Pins.apply s.pins := by
  rw [State.endPhaseStep_eq, State.emitAll_eq]
@[simp] theorem State.endPhaseStep_trace (s : State) : s.endPhaseStep.trace = s.trace ++ s.closingEvents := by
  rw [State.endPhaseStep_eq, State.emitAll_eq]
@[simp] theorem State.endPhaseStep_host (s : State) : s.endPhaseStep.host = s.host := by rw [State.endPhaseStep_eq, State.emitAll_eq]
@[simp] theorem State.endPhaseStep_tick (s : State) : s.endPhaseStep.tick = none := by rw [State.endPhaseStep_eq, State.emitAll_eq]
@[simp] theorem State.endPhaseStep_inbox (s : State) : s.endPhaseStep.inbox = s.inbox := by rw [State.endPhaseStep_eq, State.emitAll_eq]
@[simp] theorem State.endPhaseStep_sched (s : State) : s.endPhaseStep.sched = s.sched := by rw [State.endPhaseStep_eq, State.emitAll_eq]
@[simp] theorem State.endPhaseStep_draws (s : State) : s.endPhaseStep.draws = s.draws := by rw [State.endPhaseStep_eq, State.emitAll_eq]
@[simp] theorem State.endPhaseStep_report (s : State) : s.endPhaseStep.report = s.report := by rw [State.endPhaseStep_eq, State.emitAll_eq]

theorem State.endPhaseStep_withTick (s : State) (t : Option (List Nat)) : (s.withTick t).endPhaseStep = s.endPhaseStep := by
  simp only [State.endPhaseStep_eq, State.emitAll_eq]; rfl

end Sys2Proof.Machine
end

