-- ==== Sys2Proof/Laws/Engine.lean ====
section
/-! SUPPORT. The phase step: the cells it reads (R203, R212), what one cell does, and the whole step in closed form. -/

namespace Sys2Proof.Machine

/-! ## Rows and cells -/

theorem mem_rowsOf {p h r : Nat} : r ∈ rowsOf p h ↔ r < h ∧ r % 4 = p := by
  simp [rowsOf, Config.nphase]

theorem mem_rowCells {w r a : Nat} : a ∈ rowCells w r ↔ ∃ c, c < w ∧ a = r * w + c := by
  simp [rowCells, eq_comm]

theorem mem_phaseCells {w h p a : Nat} : a ∈ phaseCells w h p ↔ ∃ r c, r < h ∧ r % 4 = p ∧ c < w ∧ a = r * w + c := by
  simp only [phaseCells, List.mem_flatMap, mem_rowsOf, mem_rowCells]
  constructor
  · rintro ⟨r, ⟨h1, h2⟩, c, h3, h4⟩; exact ⟨r, c, h1, h2, h3, h4⟩
  · rintro ⟨r, c, h1, h2, h3, h4⟩; exact ⟨r, ⟨h1, h2⟩, c, h3, h4⟩

theorem cell_lt {w h r c : Nat} (hr : r < h) (hc : c < w) : r * w + c < w * h := by
  calc r * w + c < (r + 1) * w := by rw [Nat.succ_mul]; omega
    _ ≤ h * w := Nat.mul_le_mul_right _ hr
    _ = w * h := Nat.mul_comm _ _

/-- R61: a phase step reads cells of the plane only. -/
theorem phaseCells_lt {w h p a : Nat} (ha : a ∈ phaseCells w h p) : a < w * h := by
  obtain ⟨r, c, hr, -, hc, rfl⟩ := mem_phaseCells.1 ha
  exact cell_lt hr hc

theorem rowsOf_pairwise (p h : Nat) : (rowsOf p h).Pairwise (· < ·) := List.pairwise_lt_range.filter _

theorem rowCells_pairwise (w r : Nat) : (rowCells w r).Pairwise (· < ·) := by
  rw [rowCells, List.pairwise_map]
  exact List.pairwise_lt_range.imp (by intros; omega)

/-- R212: rows ascending and columns ascending, so cells ascending. -/
theorem phaseCells_pairwise (w h p : Nat) : (phaseCells w h p).Pairwise (· < ·) := by
  rw [phaseCells, List.pairwise_flatMap]
  refine ⟨fun r _ => rowCells_pairwise w r, (rowsOf_pairwise p h).imp ?_⟩
  intro r r' hrr a ha b hb
  obtain ⟨c, hc, rfl⟩ := mem_rowCells.1 ha
  obtain ⟨c', hc', rfl⟩ := mem_rowCells.1 hb
  have := Nat.mul_le_mul_right w (show r + 1 ≤ r' from hrr)
  rw [Nat.succ_mul] at this
  omega

theorem phaseCells_nodup (w h p : Nat) : (phaseCells w h p).Nodup := (phaseCells_pairwise w h p).imp Nat.ne_of_lt

/-! ## One cell -/

/-- The accumulators after one cell's scan (R213, R214). -/
def State.accAfter (s : State) (a : Nat) : List Byte :=
  match s.mode with
  | .binary => s.acc
  | .dithered => s.acc.set a (ditherRest (s.acc.getD a 0) (s.readCell a))

@[simp] theorem State.accAfter_length (s : State) (a : Nat) : (s.accAfter a).length = s.acc.length := by
  unfold State.accAfter; split <;> simp

/-- A cell of the plane that has an accumulator: one SHIFT of its bit, and its accumulator's remainder. -/
theorem scanCell_of_lt {s : State} {a : Nat} (h : a < s.cells) (ha : a < s.acc.length) :
    scanCell a s = .next ((s.withAcc (s.accAfter a)).emit (.shift (s.bitOf a))) := by
  unfold scanCell State.accAfter State.bitOf
  rw [if_pos h]
  cases hm : s.mode
  · rfl
  · simp [List.getElem?_eq_getElem ha]

/-- What one cell's scan can do. -/
theorem scanCell_eq_next {s t : State} {a : Nat} (h : scanCell a s = .next t) :
    a < s.cells ∧ t = (s.withAcc (s.accAfter a)).emit (.shift (s.bitOf a)) := by
  unfold scanCell at h
  split at h
  · rename_i ha
    refine ⟨ha, ?_⟩
    unfold State.accAfter State.bitOf
    cases hm : s.mode <;> rw [hm] at h
    · cases h; rfl
    · simp only at h
      split at h
      · rename_i v hv
        cases h
        simp [List.getD_eq_getElem?_getD, hv]
      · cases h
  · cases h

/-! ## The whole step -/

/-- The accumulators after the scans of a run of cells. -/
def State.accAll (s : State) (as : List Nat) : List Byte :=
  match s.mode with
  | .binary => s.acc
  | .dithered => as.foldl (fun acc a => acc.set a (ditherRest (acc.getD a 0) (s.readCell a))) s.acc

/-- The SHIFT events of a run of cells. -/
def State.shifts (s : State) (as : List Nat) : List Event := as.map fun a => .shift (s.bitOf a)

@[simp] theorem State.shifts_cons (s : State) (a : Nat) (as : List Nat) : s.shifts (a :: as) = .shift (s.bitOf a) :: s.shifts as := rfl

theorem State.shifts_length (s : State) (as : List Nat) : (s.shifts as).length = as.length := by simp [State.shifts]

theorem State.accAll_length (s : State) (as : List Nat) : (s.accAll as).length = s.acc.length := by
  unfold State.accAll
  split
  · rfl
  · suffices ∀ acc : List Byte, (as.foldl (fun acc a => acc.set a (ditherRest (acc.getD a 0) (s.readCell a))) acc).length = acc.length
      from this _
    induction as with
    | nil => intro; rfl
    | cons a as ih => intro acc; rw [List.foldl_cons, ih]; simp

theorem State.accAll_binary {s : State} (h : s.mode = .binary) (as : List Nat) : s.accAll as = s.acc := by simp [State.accAll, h]

/-- A cell that a run of scans does not read keeps its accumulator. -/
theorem State.accAll_other (s : State) (as : List Nat) {a : Nat} (h : a ∉ as) : (s.accAll as)[a]? = s.acc[a]? := by
  unfold State.accAll
  split
  · rfl
  · suffices ∀ acc : List Byte,
      (as.foldl (fun acc a => acc.set a (ditherRest (acc.getD a 0) (s.readCell a))) acc)[a]? = acc[a]? from this _
    induction as with
    | nil => intro; rfl
    | cons b as ih =>
      intro acc
      rw [List.mem_cons, not_or] at h
      rw [List.foldl_cons, ih h.2, List.getElem?_set_ne (Ne.symm h.1)]

/-- R214: a cell read once keeps the remainder of its sum. -/
theorem State.accAll_mem {s : State} (hm : s.mode = .dithered) {as : List Nat} (hn : as.Nodup) {a : Nat} (h : a ∈ as)
    (ha : a < s.acc.length) : (s.accAll as)[a]? = some (ditherRest (s.acc.getD a 0) (s.readCell a)) := by
  simp only [State.accAll, hm]
  suffices ∀ acc : List Byte, a < acc.length →
      (as.foldl (fun acc a => acc.set a (ditherRest (acc.getD a 0) (s.readCell a))) acc)[a]? =
        some (ditherRest (acc.getD a 0) (s.readCell a)) from this _ ha
  induction as with
  | nil => simp at h
  | cons b as ih =>
    intro acc hl
    rw [List.nodup_cons] at hn
    rw [List.foldl_cons]
    rcases List.mem_cons.1 h with rfl | h
    · have key : ∀ (cs : List Nat) (acc : List Byte), a ∉ cs →
          (cs.foldl (fun acc a => acc.set a (ditherRest (acc.getD a 0) (s.readCell a))) acc)[a]? = acc[a]? := by
        intro cs
        induction cs with
        | nil => intros; rfl
        | cons d cs ih =>
          intro acc hd
          rw [List.mem_cons, not_or] at hd
          rw [List.foldl_cons, ih _ hd.2, List.getElem?_set_ne (Ne.symm hd.1)]
      rw [key _ _ hn.1, List.getElem?_set_self hl]
    · have hab : b ≠ a := by rintro rfl; exact hn.1 h
      rw [ih hn.2 h _ (by simpa using hl)]
      simp [List.getD_eq_getElem?_getD, List.getElem?_set_ne hab]

/-- One cell's scan leaves the bits of the cells after it as they were. -/
theorem State.bitOf_after {s : State} {a b : Nat} (h : b ≠ a) (e : Event) :
    ((s.withAcc (s.accAfter a)).emit e).bitOf b = s.bitOf b := by
  unfold State.bitOf State.accAfter
  simp only [State.emit_mode, State.withAcc_mode, State.emit_readCell, State.withAcc_readCell, State.emit_acc, State.withAcc_acc]
  cases s.mode
  · rfl
  · simp [List.getD_eq_getElem?_getD, List.getElem?_set_ne (Ne.symm h)]

theorem State.accAll_cons (s : State) (a : Nat) (as : List Nat) (e : Event) :
    ((s.withAcc (s.accAfter a)).emit e).accAll as = s.accAll (a :: as) := by
  unfold State.accAll State.accAfter
  simp only [State.emit_mode, State.withAcc_mode, State.emit_readCell, State.withAcc_readCell, State.emit_acc, State.withAcc_acc]
  cases s.mode <;> rfl

/-- The rest of a phase step in closed form. -/
theorem scanAll_of_lt {as : List Nat} {s : State} (hn : as.Nodup) (hc : ∀ a ∈ as, a < s.cells) (ha : ∀ a ∈ as, a < s.acc.length) :
    scanAll as s = .next ((s.withAcc (s.accAll as)).emitAll (s.shifts as)).endPhaseStep := by
  induction as generalizing s with
  | nil =>
    have : s.withAcc (s.accAll []) = s := by unfold State.accAll; cases s.mode <;> rfl
    rw [this]; rfl
  | cons a as ih =>
    rw [List.nodup_cons] at hn
    have hca := hc a List.mem_cons_self
    have haa := ha a List.mem_cons_self
    rw [scanAll, scanCell_of_lt (by simpa using hca) (by simpa using haa), andThen_next,
      ih hn.2 (by intro b hb; simpa using hc b (List.mem_cons_of_mem _ hb)) (by intro b hb; simpa using ha b (List.mem_cons_of_mem _ hb)),
      State.accAll_cons]
    have hbits : (((s.withTick (some as)).withAcc ((s.withTick (some as)).accAfter a)).emit
        (.shift ((s.withTick (some as)).bitOf a))).shifts as = s.shifts as := by
      refine List.map_congr_left fun b hb => ?_
      rw [State.bitOf_after (by rintro rfl; exact hn.1 hb)]
      rfl
    rw [hbits, ← State.endPhaseStep_withTick (State.emitAll _ (s.shifts (a :: as))) (some as), State.shifts_cons, State.emitAll_cons]
    simp only [State.emitAll_eq]
    rfl

/-- The rest of a phase step that comes to a next state has read cells of the plane only. -/
theorem scanAll_cells {as : List Nat} {s t : State} (h : scanAll as s = .next t) : ∀ a ∈ as, a < s.cells := by
  induction as generalizing s with
  | nil => simp
  | cons a as ih =>
    rw [scanAll, andThen_eq_next] at h
    obtain ⟨u, hu, hk⟩ := h
    obtain ⟨hc, rfl⟩ := scanCell_eq_next hu
    intro b hb
    rcases List.mem_cons.1 hb with rfl | hb
    · simpa using hc
    · simpa using ih hk b hb

/-- All that TIMER can change (R224): the accumulators, PHASE, FRAMECNT, the pins and the trace, and how far its step has come. -/
def TimerChanges (s t : State) : Prop :=
  t = { s with acc := t.acc, phase := t.phase, frameCnt := t.frameCnt, pins := t.pins, trace := t.trace, tick := t.tick } ∧
    t.acc.length = s.acc.length

theorem TimerChanges.trans {s t u : State} (h : TimerChanges s t) (k : TimerChanges t u) : TimerChanges s u := by
  refine ⟨?_, k.2.trans h.2⟩
  have h1 := h.1
  have k1 := k.1
  rw [h1] at k1
  exact k1

theorem timerChanges_emit (s : State) (e : Event) : TimerChanges s (s.emit e) := ⟨rfl, rfl⟩

theorem timerChanges_withTick (s : State) (t : Option (List Nat)) : TimerChanges s (s.withTick t) := ⟨rfl, rfl⟩

theorem timerChanges_endPhaseStep (s : State) : TimerChanges s s.endPhaseStep := by
  rw [State.endPhaseStep_eq, State.emitAll_eq]; exact ⟨rfl, rfl⟩

theorem timerChanges_scanCell {s t : State} {a : Nat} (h : scanCell a s = .next t) : TimerChanges s t := by
  obtain ⟨-, rfl⟩ := scanCell_eq_next h
  exact ⟨rfl, by simp⟩

theorem timerChanges_scanAll {as : List Nat} {s t : State} (h : scanAll as s = .next t) : TimerChanges s t := by
  induction as generalizing s with
  | nil => cases h; exact timerChanges_endPhaseStep s
  | cons a as ih =>
    rw [scanAll, andThen_eq_next] at h
    obtain ⟨u, hu, hk⟩ := h
    exact (timerChanges_withTick s _).trans ((timerChanges_scanCell hu).trans (ih hk))

theorem timerChanges_finishPhaseStep {s t : State} (h : finishPhaseStep s = .next t) : TimerChanges s t := by
  unfold finishPhaseStep at h
  split at h
  · exact timerChanges_scanAll h
  · cases h; exact ⟨rfl, rfl⟩

theorem timerChanges_beginTick {s t : State} (h : beginTick s = .next t) : TimerChanges s t := by
  unfold beginTick at h
  repeat' split at h
  all_goals first | cases h; done | skip
  cases h
  exact (timerChanges_emit s _).trans (timerChanges_withTick _ _)

theorem timerChanges_execSeTick {s t : State} (h : execSeTick s = .next t) : TimerChanges s t := by
  rw [execSeTick, andThen_eq_next] at h
  obtain ⟨u, hu, hk⟩ := h
  exact (timerChanges_beginTick hu).trans (timerChanges_finishPhaseStep hk)

/-- SE_TICK in closed form, where everything it needs holds. -/
theorem execSeTick_of_canTick {s : State} (h : s.CanTick) :
    execSeTick s = .next (((s.emit .blank).withAcc (s.accAll s.currentCells)).emitAll (s.shifts s.currentCells)).endPhaseStep := by
  obtain ⟨h1, h2, h3, h4, h5⟩ := h
  have hb : beginTick s = .next s.beginPhaseStep := by simp [beginTick, h1, h2, h3, h4]
  have hlt : ∀ a ∈ phaseCells s.fbW s.fbH s.phase.toNat, a < s.cells := fun a ha => phaseCells_lt ha
  rw [execSeTick, hb, andThen_next]
  show scanAll (phaseCells s.fbW s.fbH s.phase.toNat) ((s.emit .blank).withTick _) = _
  rw [scanAll_of_lt (phaseCells_nodup _ _ _) (by simpa using hlt) (by intro a ha; have := hlt a ha; simp [h5]; exact this),
    ← State.endPhaseStep_withTick (State.emitAll _ _) (some (phaseCells s.fbW s.fbH s.phase.toNat))]
  simp only [State.emitAll_eq]
  rfl

end Sys2Proof.Machine
end

