-- ==== Sys2Proof/Laws/Parser.lean ====
section
/-! SUPPORT. PD: what one wire record can do, whichever it is, what the fetch at the cursor can give, and that the loop over a datagram
ends. -/

namespace Sys2Proof.Machine

/-- All that a record can do (R130, R156, R159): stores in the plane; then either the cursor moves forward by `n` bytes, or the datagram
ends with a cause. -/
structure RecordEffect (s t : State) (n : Nat) : Prop where
  stores : ∃ cs : List Host.Cell, (∀ c ∈ cs, c.1 < s.cells) ∧ t.pp = s.pp.writeAll cs
  rest : t = { s with pp := t.pp, pd := t.pd, draws := t.draws, host := t.host, report := t.report }
  cursor : (t.host = s.host ∧ t.report = s.report ∧ t.pd = { s.pd with pos := s.pd.pos + n }) ∨
    (t.host = .idle ∧ t.pd = s.pd ∧ ∃ c : StopCause, c.number ≤ 8 ∧ t.report = ⟨.none, some c⟩)

theorem recordEffect_stop (s : State) (n : Nat) {c : StopCause} (h : c.number ≤ 8) : RecordEffect s (s.stopDatagram c) n :=
  ⟨⟨[], by simp, rfl⟩, rfl, .inr ⟨rfl, rfl, c, h, rfl⟩⟩

/-- R143: the common tail of a binary record always has a next state. -/
theorem binaryRecord_next {x y : Nat} {c : Rgb} {n : Nat} {s : State} (h : s.canParse = true) :
    ∃ t, binaryRecord x y c n s = .next t ∧ RecordEffect s t n := by
  unfold binaryRecord
  rw [if_pos h]
  split
  · exact ⟨_, rfl, recordEffect_stop s n (by decide)⟩
  · rw [writePixel_next, andThen_next]
    refine ⟨_, rfl, ⟨_, ?_, rfl⟩, rfl, .inl ⟨rfl, rfl, rfl⟩⟩
    intro d hd
    rw [Option.mem_toList] at hd
    exact State.pixelStore_lt hd

/-- The length of a text record in bytes. -/
def lineSize (t : TextLine) : Nat := textPrefix.length + t.bytes.length

/-- R133: a text record always has a next state. -/
theorem execTxtPx_next (t : TextLine) {s : State} (h : s.canParse = true) :
    ∃ u, execTxtPx t s = .next u ∧ RecordEffect s u (lineSize t) := by
  have hlt : ∀ (n : Nat) (c : Rgb), ∀ d ∈ ((s.withDraws n).pixelStore (decimalValue t.xDigits) (decimalValue t.yDigits) c.gray).toList,
      d.1 < s.cells := by
    intro n c d hd
    rw [Option.mem_toList] at hd
    exact State.pixelStore_lt hd
  unfold execTxtPx textTail
  simp only [h, if_true, writePixel_next, andThen_next]
  repeat' split
  all_goals first
    | exact ⟨_, rfl, recordEffect_stop s _ (by decide)⟩
    | exact ⟨_, rfl, ⟨_, hlt _ _, rfl⟩, rfl, .inl ⟨rfl, rfl, rfl⟩⟩
    | exact ⟨_, rfl, ⟨_, hlt _ _, rfl⟩, rfl, .inr ⟨rfl, rfl, .noTerminator, by decide, rfl⟩⟩

/-- The length of a wire record in bytes (R91, R95); 0 for an operation that is none. -/
def recordBytes : Instr → Nat
  | .txtPx t => lineSize t
  | .bin0 _ _ _ _ _ => Layout.bin0.recordSize
  | .bin0a _ _ _ _ _ _ => Layout.bin0a.recordSize
  | .bin1 _ _ _ _ _ => Layout.bin1.recordSize
  | .bin1a _ _ _ _ _ _ => Layout.bin1a.recordSize
  | .bin2 _ _ _ => Layout.bin2.recordSize
  | .bin2a _ _ _ => Layout.bin2a.recordSize
  | .bin3 _ _ _ => Layout.bin3.recordSize
  | .fbInit _ _ _ | .fbOrient _ _ | .fbClear | .fbWrite _ _ _ | .fbText _ _ _ _ | .pdInit _ _ | .pdRxtext _ | .pdRxbin _
  | .seInit _ | .seEnable | .seDisable | .seTick => 0

/-- Every wire record, in a machine that can parse, has a next state. -/
theorem exec_record_next {i : Instr} (hi : i.source ≠ .command) {s : State} (h : s.canParse = true) :
    ∃ t, exec i s = .next t ∧ RecordEffect s t (recordBytes i) := by
  cases i <;> first
    | exact absurd rfl hi
    | exact execTxtPx_next _ h
    | exact binaryRecord_next h

/-- Every wire record, in a machine that cannot parse, is refused. -/
theorem exec_record_refused {i : Instr} (hi : i.source ≠ .command) {s : State} (h : s.canParse = false) :
    exec i s = .refused .pdNotReady := by
  cases i <;> first
    | exact absurd rfl hi
    | simp [exec, execTxtPx, execBin0, execBin0a, execBin1, execBin1a, execBin2, execBin2a, execBin3, binaryRecord, h]

/-- The parser's own call of a record is exec's. -/
theorem runRecord_eq_exec {i : Instr} (hi : i.source ≠ .command) (s : State) : runRecord i s = exec i s := by
  cases i <;> first
    | exact absurd rfl hi
    | rfl

theorem decodeText_source {bs rest : List Byte} {i : Instr} (h : decodeText bs = .ok (i, rest)) :
    ∃ t, i = .txtPx t ∧ bs.length = lineSize t + rest.length := by
  unfold decodeText at h
  split at h
  · rename_i hp
    cases h
    refine ⟨_, rfl, ?_⟩
    have h3 : (bs.take 3).length = 3 := by rw [hp]; rfl
    rw [List.length_take] at h3
    have := congrArg List.length (splitLine_append (bs.drop 3))
    rw [List.length_append, List.length_drop] at this
    simp only [lineSize, textPrefix, List.length_cons, List.length_nil]
    omega
  · cases h

theorem decodeRecord_source {col : Byte} {l : Layout} {bs rest : List Byte} {i : Instr} (h : decodeRecord col l bs = .ok (i, rest)) :
    i.source = .binary ∧ (recordBytes i) = l.recordSize := by
  unfold decodeRecord at h
  split at h <;> first | cases h; exact ⟨rfl, rfl⟩ | cases h

/-- What stands at the cursor of a text datagram: nothing, no prefix, or a record that lies inside the datagram. -/
theorem fetchRecord_text (bytes : List Byte) {pd : PdRegs} (hl : pd.len = bytes.length) :
    (pd.len ≤ pd.pos ∧ fetchRecord .text bytes pd = .stop .endOfData) ∨
    (pd.pos < pd.len ∧ fetchRecord .text bytes pd = .stop .badPrefix) ∨
    (∃ t, fetchRecord .text bytes pd = .record (.txtPx t) ∧ pd.pos + lineSize t ≤ pd.len) := by
  unfold fetchRecord
  simp only
  split
  · exact .inl ⟨‹_›, rfl⟩
  · rename_i hp
    cases hd : decodeText ((bytes.take pd.len).drop pd.pos) with
    | error e => exact .inr (.inl ⟨by omega, rfl⟩)
    | ok p =>
      obtain ⟨i, rest⟩ := p
      obtain ⟨t, rfl, hlen⟩ := decodeText_source hd
      refine .inr (.inr ⟨t, rfl, ?_⟩)
      simp only [List.length_drop, List.length_take] at hlen
      omega

/-- What stands at the cursor of a binary datagram: fewer bytes than a record, or a record of the layout, inside the datagram. -/
theorem fetchRecord_binary (bytes : List Byte) {pd : PdRegs} {l : Layout} (hl : pd.len = bytes.length)
    (hf : layoutOf pd.fmt pd.alpha = some l) (hr : pd.recSize = l.recordSize) :
    fetchRecord .binary bytes pd = .stop .endOfData ∨
    (∃ i rest, fetchRecord .binary bytes pd = .record i ∧ decodeRecord pd.col l (bytes.drop pd.pos) = .ok (i, rest) ∧
      pd.pos + l.recordSize ≤ pd.len) := by
  unfold fetchRecord
  simp only
  split
  · exact .inl rfl
  · rename_i hp
    have hpos : 0 < l.recordSize := by cases l <;> decide
    obtain ⟨i, rest, hd⟩ := decodeRecord_of_length (bs := bytes.drop pd.pos) pd.col (l := l) (by rw [List.length_drop]; omega)
    rw [hf]
    exact .inr ⟨i, rest, by simp only [hd], hd, by omega⟩

/-! ## The parser's loop -/

/-- All that PD can change outside its own datagram (R29, R130): the plane, by stores inside it, the parser's registers, the count of
draws, and what HOST is doing and reports. -/
def ParserChanges (s t : State) : Prop :=
  (∃ cs : List Host.Cell, (∀ c ∈ cs, c.1 < s.cells) ∧ t.pp = s.pp.writeAll cs) ∧
    t = { s with pp := t.pp, pd := t.pd, draws := t.draws, host := t.host, report := t.report }

theorem parserChanges_refl (s : State) : ParserChanges s s := ⟨⟨[], by simp, rfl⟩, rfl⟩

theorem ParserChanges.cells {s t : State} (h : ParserChanges s t) : t.cells = s.cells := by rw [h.2]; rfl

theorem ParserChanges.canParse {s t : State} (h : ParserChanges s t) : t.canParse = s.canParse := by rw [h.2]; rfl

theorem ParserChanges.trans {s t u : State} (h : ParserChanges s t) (k : ParserChanges t u) : ParserChanges s u := by
  obtain ⟨⟨cs, hc, hp⟩, ht⟩ := h
  obtain ⟨⟨ds, hd, hq⟩, hu⟩ := k
  have e : t.cells = s.cells := by rw [ht]; rfl
  refine ⟨⟨cs ++ ds, ?_, ?_⟩, ?_⟩
  · intro c hm
    rcases List.mem_append.1 hm with hm | hm
    · exact hc c hm
    · rw [← e]; exact hd c hm
  · rw [hq, hp]; exact (List.foldl_append ..).symm
  · rw [ht] at hu; exact hu

theorem RecordEffect.parserChanges {s t : State} {n : Nat} (h : RecordEffect s t n) : ParserChanges s t := ⟨h.stores, h.rest⟩

/-- What holds while a datagram is being parsed (R28, R62, R132, R143). -/
def ParserReady (channel : Channel) (bytes : List Byte) (pd : PdRegs) : Prop :=
  pd.len = bytes.length ∧ pd.pos ≤ pd.len ∧
    (channel = .binary → ∃ l, layoutOf pd.fmt pd.alpha = some l ∧ pd.recSize = l.recordSize)

theorem recordSize_pos (l : Layout) : 0 < l.recordSize := by cases l <;> decide

/-- What stands at the cursor of a datagram being parsed: its end, or a wire record of at least one byte inside the datagram. -/
theorem fetchRecord_ready {channel : Channel} {bytes : List Byte} {pd : PdRegs} (h : ParserReady channel bytes pd) :
    (∃ c : StopCause, c.number ≤ 8 ∧ fetchRecord channel bytes pd = .stop c) ∨
    ∃ i, fetchRecord channel bytes pd = .record i ∧ i.source ≠ .command ∧ 0 < recordBytes i ∧ pd.pos + recordBytes i ≤ pd.len := by
  obtain ⟨hl, -, hb⟩ := h
  cases channel with
  | text =>
    rcases fetchRecord_text bytes hl with ⟨-, h⟩ | ⟨-, h⟩ | ⟨t, h, hp⟩
    · exact .inl ⟨.endOfData, by decide, h⟩
    · exact .inl ⟨.badPrefix, by decide, h⟩
    · exact .inr ⟨_, h, by simp [Instr.source], by simp [recordBytes, lineSize, textPrefix], hp⟩
  | binary =>
    obtain ⟨l, hf, hr⟩ := hb rfl
    rcases fetchRecord_binary bytes hl hf hr with h | ⟨i, rest, h, hd, hp⟩
    · exact .inl ⟨.endOfData, by decide, h⟩
    · obtain ⟨h1, h2⟩ := decodeRecord_source hd
      exact .inr ⟨i, h, by rw [h1]; simp, by rw [h2]; exact recordSize_pos l, by rw [h2]; exact hp⟩

/-- One pass of the parser's loop always has a next state: the datagram ends, or its cursor has moved forward. -/
theorem parseStep_next {channel : Channel} {bytes : List Byte} {s : State} (hc : s.canParse = true) (hh : s.host = .parsing channel bytes)
    (h : ParserReady channel bytes s.pd) :
    ∃ t, parseStep channel bytes s = .next t ∧ ParserChanges s t ∧
      ((t.host = .idle ∧ ∃ c : StopCause, c.number ≤ 8 ∧ t.report = ⟨.none, some c⟩) ∨
        (t.host = .parsing channel bytes ∧ s.pd.pos < t.pd.pos ∧ t.pd.len = s.pd.len ∧ ParserReady channel bytes t.pd)) := by
  unfold parseStep
  rcases fetchRecord_ready h with ⟨c, hn, hf⟩ | ⟨i, hf, hi, h0, hp⟩
  · rw [hf]
    exact ⟨_, rfl, (recordEffect_stop s 0 hn).parserChanges, .inl ⟨rfl, c, hn, rfl⟩⟩
  · rw [hf]
    obtain ⟨t, ht, he⟩ := exec_record_next hi hc
    refine ⟨t, (runRecord_eq_exec hi s).trans ht, he.parserChanges, ?_⟩
    rcases he.cursor with ⟨a, -, b⟩ | ⟨a, -, b⟩
    · right
      refine ⟨a.trans hh, by rw [b]; show _ < s.pd.pos + _; omega, by rw [b], ?_⟩
      rw [b]
      exact ⟨h.1, hp, h.2.2⟩
    · exact .inl ⟨a, b⟩

/-- Enough passes end the datagram (R132, R143). -/
theorem parseAll_ends {n : Nat} {channel : Channel} {bytes : List Byte} {s : State} (hc : s.canParse = true)
    (hh : s.host = .parsing channel bytes) (h : ParserReady channel bytes s.pd) (hn : s.pd.len - s.pd.pos < n) :
    ∃ t c, parseAll n s = .next t ∧ ParserChanges s t ∧ t.host = .idle ∧ StopCause.number c ≤ 8 ∧ t.report = ⟨.none, some c⟩ := by
  induction n generalizing s with
  | zero => omega
  | succ n ih =>
    rw [parseAll, hh]
    obtain ⟨t, ht, hch, hcase⟩ := parseStep_next hc hh h
    simp only [ht, andThen_next]
    rcases hcase with ⟨hi, c, hc8, hr⟩ | ⟨hp, hpos, hlen, hready⟩
    · refine ⟨t, c, ?_, hch, hi, hc8, hr⟩
      cases n with
      | zero => rfl
      | succ n => rw [parseAll, hi]
    · obtain ⟨u, c, hu, hchu, hrest⟩ := ih (hch.canParse.trans hc) hp hready (by have := hready.2.1; omega)
      exact ⟨u, c, hu, hch.trans hchu, hrest⟩

/-- R143: the registers after a header that the parser accepts describe a datagram being parsed. -/
theorem headerRegs_ready {pd : PdRegs} {bytes : List Byte} (h : (headerRegs pd bytes).2 = none) :
    ParserReady .binary bytes (headerRegs pd bytes).1 := by
  unfold headerRegs at h ⊢
  split at h
  · rename_i fmt flags rest
    cases hl : layoutOf fmt (alphaBit flags) with
    | none => simp [hl] at h
    | some l =>
      cases l <;> simp only [hl] at h ⊢
      case bin3 =>
        cases rest with
        | nil => simp at h
        | cons col rest => exact ⟨rfl, by simp [Layout.firstOffset], fun _ => ⟨_, hl, rfl⟩⟩
      all_goals exact ⟨rfl, by simp [Layout.firstOffset], fun _ => ⟨_, hl, rfl⟩⟩
  · simp at h

theorem headerRegs_stop {pd : PdRegs} {bytes : List Byte} {c : StopCause} (h : (headerRegs pd bytes).2 = some c) :
    c.number ≤ 8 := by
  unfold headerRegs at h
  split at h
  · rename_i fmt flags rest
    cases hl : layoutOf fmt (alphaBit flags) with
    | none => simp only [hl] at h; cases h; decide
    | some l =>
      cases l <;> simp only [hl, reduceCtorEq] at h
      cases rest with
      | nil => cases h; decide
      | cons col rest => cases h
  · cases h; decide

/-- A binary datagram taken into the buffer: ended by its header, or being parsed from its first record on. -/
theorem loadBinary_cases (s : State) (bytes : List Byte) :
    ParserChanges s (s.loadBinary bytes) ∧
    (((s.loadBinary bytes).host = .idle ∧ ∃ c : StopCause, c.number ≤ 8 ∧ (s.loadBinary bytes).report = ⟨.none, some c⟩) ∨
      ((s.loadBinary bytes).host = .parsing .binary bytes ∧ ParserReady .binary bytes (s.loadBinary bytes).pd)) := by
  unfold State.loadBinary
  split
  · rename_i pd h
    refine ⟨⟨⟨[], by simp, rfl⟩, rfl⟩, .inr ⟨rfl, ?_⟩⟩
    have := headerRegs_ready (pd := s.pd) (bytes := bytes) (by rw [h])
    rw [h] at this
    exact this
  · rename_i pd c h
    exact ⟨⟨⟨[], by simp, rfl⟩, rfl⟩, .inl ⟨rfl, c, headerRegs_stop (pd := s.pd) (bytes := bytes) (by rw [h]), rfl⟩⟩

end Sys2Proof.Machine
end

