-- ==== Sys2Proof/Laws/Exec.lean ====
section
/-! SUPPORT. One lemma for each operation, or each group of one shape, that says once everything it can do when it comes to a next state. -/

namespace Sys2Proof.Machine

/-! ## FB -/

theorem execFbInit_eq_next {w h : Nat} {g : Exponent} {s t : State} (e : exec (.fbInit w h g) s = .next t) :
    s.fbReady = false ∧ 1 ≤ w ∧ 1 ≤ h ∧ g.positive = true ∧ t = (s.withFramebuffer w h (gammaTable g)).endHostOp Report.done := by
  have e : execFbInit w h g s = .next t := e
  unfold execFbInit at e
  split at e
  · cases e
  · split at e
    · cases e
    · rename_i h1 h2
      simp only [not_or, not_not] at h2
      exact ⟨by simpa using h1, by omega, by omega, h2.2.2, by cases e; rfl⟩

theorem execFbOrient_eq_next {h v : Bool} {s t : State} (e : exec (.fbOrient h v) s = .next t) :
    s.fbReady = true ∧ t = (s.withFlips h v).endHostOp Report.done := by
  have e : execFbOrient h v s = .next t := e
  unfold execFbOrient at e
  split at e
  · exact ⟨‹_›, by cases e; rfl⟩
  · cases e

/-- FB_CLEAR, FB_WRITE and FB_TEXT are the stores of a HOST operation. -/
theorem exec_stores {i : Instr} {s t : State} (e : exec i s = .next t)
    (hi : i = .fbClear ∨ (∃ x y k, i = .fbWrite x y k) ∨ ∃ a x y k, i = .fbText a x y k) :
    s.fbReady = true ∧ ∃ cs r, (∀ c ∈ cs, c.1 < s.cells) ∧ t = (s.withPp (s.pp.writeAll cs)).endHostOp r := by
  rcases hi with rfl | ⟨x, y, k, rfl⟩ | ⟨a, x, y, k, rfl⟩
  all_goals
    simp only [exec, execFbClear, execFbWrite, execFbText] at e
    split at e
    · exact ⟨‹_›, _, _, finishStores_eq_next e⟩
    · cases e

theorem parserChanges_stores {s : State} {cs : List Host.Cell} (h : ∀ c ∈ cs, c.1 < s.cells) (r : Report) :
    ParserChanges s ((s.withPp (s.pp.writeAll cs)).endHostOp r) := ⟨⟨cs, h, rfl⟩, rfl⟩

/-! ## PD -/

theorem execPdInit_eq_next {a b : Port} {s t : State} (e : exec (.pdInit a b) s = .next t) :
    s.pdReady = false ∧ (a ≠ b ∧ t = (s.withPorts a b).endHostOp ⟨.bool true, none⟩ ∨
      a = b ∧ t = s.endHostOp ⟨.bool false, some .initConflict⟩) := by
  have e : execPdInit a b s = .next t := e
  unfold execPdInit at e
  split at e
  · cases e
  · rename_i h
    refine ⟨by simpa using h, ?_⟩
    split at e
    · rename_i h; exact .inl ⟨by simpa [portsDiffer] using h, by cases e; rfl⟩
    · rename_i h; exact .inr ⟨by simpa [portsDiffer] using h, by cases e; rfl⟩

/-- One pass of the parser's loop, from any state. -/
theorem parserChanges_parseStep {channel : Channel} {bytes : List Byte} {s t : State} (hc : s.canParse = true)
    (h : parseStep channel bytes s = .next t) : ParserChanges s t := by
  unfold parseStep at h
  split at h
  · rename_i c _
    cases h
    exact ⟨⟨[], by simp, rfl⟩, rfl⟩
  · rename_i i _
    by_cases hi : i.source = .command
    · cases i <;> simp only [Instr.source, reduceCtorEq] at hi <;> cases h
    · rw [runRecord_eq_exec hi] at h
      obtain ⟨u, hu, he⟩ := exec_record_next hi hc
      rw [hu] at h
      cases h
      exact he.parserChanges
  · cases h

theorem parserChanges_parseAll {n : Nat} {s t : State} (hc : s.canParse = true) (h : parseAll n s = .next t) : ParserChanges s t := by
  induction n generalizing s with
  | zero =>
    cases h
    exact parserChanges_refl _
  | succ n ih =>
    rw [parseAll] at h
    split at h
    · rw [andThen_eq_next] at h
      obtain ⟨u, hu, hk⟩ := h
      have := parserChanges_parseStep hc hu
      exact this.trans (ih (this.canParse.trans hc) hk)
    · cases h; exact parserChanges_refl _
    · cases h; exact parserChanges_refl _

/-- A wire record, or a whole datagram, changes what PD can change, and only in a machine that can parse. -/
theorem exec_parser {i : Instr} {s t : State} (h : exec i s = .next t)
    (hi : i.source ≠ .command ∨ ∃ bytes, i = .pdRxtext bytes ∨ i = .pdRxbin bytes) : s.canParse = true ∧ ParserChanges s t := by
  have hc : s.canParse = true := by
    by_contra hc
    rw [Bool.not_eq_true] at hc
    rcases hi with hi | ⟨bytes, rfl | rfl⟩
    · rw [exec_record_refused hi hc] at h; cases h
    · simp [exec, execPdRxtext, beginText, hc] at h
    · simp [exec, execPdRxbin, beginBinary, hc] at h
  refine ⟨hc, ?_⟩
  rcases hi with hi | ⟨bytes, rfl | rfl⟩
  · obtain ⟨u, hu, he⟩ := exec_record_next hi hc
    rw [hu] at h
    cases h
    exact he.parserChanges
  · have h : execPdRxtext bytes s = .next t := h
    rw [execPdRxtext, beginText, if_pos hc, andThen_next] at h
    have h0 : ParserChanges s ((s.withPd { s.pd with len := bytes.length, pos := 0 }).withHost (.parsing .text bytes)) :=
      ⟨⟨[], by simp, rfl⟩, rfl⟩
    exact h0.trans (parserChanges_parseAll (h0.canParse.trans hc) h)
  · have h : execPdRxbin bytes s = .next t := h
    rw [execPdRxbin, beginBinary, if_pos hc, andThen_next] at h
    have h0 := (loadBinary_cases s bytes).1
    exact h0.trans (parserChanges_parseAll (h0.canParse.trans hc) h)

/-! ## SE -/

theorem execSeInit_eq_next {m : Mode} {s t : State} (e : exec (.seInit m) s = .next t) :
    s.seReady = false ∧ s.fbReady = true ∧
      t = ((s.withEngine m (seeds s.draws s.cells)).withDraws (s.draws + s.cells)).endHostOp Report.done := by
  have e : execSeInit m s = .next t := e
  unfold execSeInit at e
  split at e
  · cases e
  · split at e
    · rename_i h1 h2; exact ⟨by simpa using h1, h2, by cases e; rfl⟩
    · cases e

theorem execSeEnable_eq_next {s t : State} (e : exec .seEnable s = .next t) :
    s.seReady = true ∧ (s.en = true ∧ t = s.endHostOp Report.done ∨
      s.en = false ∧ ∃ u, finishPhaseStep s = .next u ∧
        t = (((u.emit (.power true)).emit .attach).withEn true).endHostOp Report.done) := by
  have e : execSeEnable s = .next t := e
  unfold execSeEnable at e
  split at e
  · refine ⟨‹_›, ?_⟩
    split at e
    · exact .inl ⟨‹_›, by cases e; rfl⟩
    · rename_i h
      rw [andThen_eq_next] at e
      obtain ⟨u, hu, hk⟩ := e
      exact .inr ⟨by simpa using h, u, hu, by cases hk; rfl⟩
  · cases e

theorem execSeDisable_eq_next {s t : State} (e : exec .seDisable s = .next t) :
    s.seReady = true ∧ ∃ u, finishPhaseStep s = .next u ∧
      t = ((((u.emit .blank).emit .detach).emit (.power false)).withEn false).endHostOp Report.done := by
  have e : execSeDisable s = .next t := e
  unfold execSeDisable at e
  split at e
  · refine ⟨‹_›, ?_⟩
    rw [andThen_eq_next] at e
    obtain ⟨u, hu, hk⟩ := e
    exact ⟨u, hu, by cases hk; rfl⟩
  · cases e

/-- A tick begins only where everything it needs holds. -/
theorem beginTick_eq_next {s t : State} (e : beginTick s = .next t) :
    s.seReady = true ∧ s.en = true ∧ s.fbReady = true ∧ s.tick = none ∧ t = s.beginPhaseStep := by
  unfold beginTick at e
  split at e
  · rename_i h
    rw [Bool.and_eq_true] at h
    split at e
    · split at e
      · exact ⟨h.1, h.2, ‹_›, ‹_›, by cases e; rfl⟩
      · cases e
    · cases e
  · cases e

end Sys2Proof.Machine
end

