-- ==== Sys2Proof/Laws/Exponent.lean ====
section
/-! SUPPORT. What an operand of type real says of the number it stands for, whichever that is; and that every number has one. -/

namespace Sys2Proof

open Machine (atLeastOne)

/-- Every real number has an exponent that stands for it. -/
theorem Exponent.exists_denotes (x : ℝ) : ∃ e : Exponent, e.Denotes x := by
  by_cases h : Irrational x
  · exact ⟨.irrational ⌊x⌋ 0, h, lt_of_le_of_ne (Int.floor_le x) fun e => h ⟨⌊x⌋, by simpa using e⟩, Int.lt_floor_add_one x⟩
  · obtain ⟨q, hq⟩ := not_not.1 h
    exact ⟨.rational q, hq.symm⟩

/-- An irrational number above an integer and below the next lies above a bound of integers exactly when the lower of the two reaches it. -/
theorem Exponent.le_floor_iff {floor n : Int} {x : ℝ} (h1 : floor < x) (h2 : x < floor + 1) : n ≤ floor ↔ n < x := by
  constructor
  · intro h
    exact lt_of_le_of_lt (by exact_mod_cast h) h1
  · intro h
    have : n < floor + 1 := by exact_mod_cast h.trans h2
    omega

theorem Exponent.Denotes.positive_iff {e : Exponent} {x : ℝ} (h : e.Denotes x) : e.positive = true ↔ 0 < x := by
  cases e with
  | rational q => cases h; simp [Exponent.positive]
  | irrational floor name =>
    obtain ⟨-, h1, h2⟩ := h
    simpa [Exponent.positive] using Exponent.le_floor_iff (n := 0) h1 h2

theorem Exponent.Denotes.atLeastOne_iff {e : Exponent} {x : ℝ} (h : e.Denotes x) : atLeastOne e = true ↔ 1 ≤ x := by
  cases e with
  | rational q => cases h; rw [atLeastOne, decide_eq_true_eq]; exact_mod_cast Iff.rfl
  | irrational floor name =>
    obtain ⟨hi, h1, h2⟩ := h
    have hne : (1 : ℝ) ≠ x := fun e => hi ⟨1, by simpa using e⟩
    have := Exponent.le_floor_iff (n := 1) h1 h2
    rw [Int.cast_one] at this
    rw [atLeastOne, decide_eq_true_eq, this]
    exact (hne.le_iff_lt).symm

/-- A rational number has one exponent that stands for it. -/
theorem Exponent.Denotes.eq_rational {e : Exponent} {q : Rat} (h : e.Denotes q) : e = .rational q := by
  cases e with
  | rational p => rw [Rat.cast_injective (α := ℝ) h]
  | irrational floor name => exact absurd ⟨q, rfl⟩ h.1

end Sys2Proof
end

