-- ==== Sys2Proof/Laws/Invariant.lean ====
section
/-! SUPPORT. Traces read event by event, the gamma table's entries, and what keeps the machine's invariant: one lemma for each kind of
change a step makes. -/

namespace Sys2Proof.Machine

/-! ## Traces -/

theorem frameNumbers_append (es fs : List Event) : frameNumbers (es ++ fs) = frameNumbers es ++ frameNumbers fs := by
  induction es with
  | nil => rfl
  | cons e es ih => cases e <;> simp [frameNumbers, ih]

theorem bleedFree_append (p : Pins) (es fs : List Event) :
    bleedFree p (es ++ fs) = (bleedFree p es && bleedFree (es.foldl Pins.apply p) fs) := by
  induction es generalizing p with
  | nil => rfl
  | cons e es ih => cases e <;> simp [bleedFree, ih, Pins.apply, Bool.and_assoc]

theorem panelOf_append (es fs : List Event) : panelOf (es ++ fs) = fs.foldl PanelView.apply (panelOf es) := List.foldl_append

/-- R45: the panel's pins are the trace's. -/
theorem panelOf_pins (es : List Event) : (panelOf es).pins = es.foldl Pins.apply Pins.zero := by
  have key : ∀ v : PanelView, (es.foldl PanelView.apply v).pins = es.foldl Pins.apply v.pins := by
    induction es with
    | nil => intro v; rfl
    | cons e es ih => intro v; rw [List.foldl_cons, ih]; cases e <;> rfl
  exact key _

/-! ## The gamma table -/

theorem gammaFree_mono (g : Exponent) {i j : Nat} (h : i ≤ j) : gammaFree g i ≤ gammaFree g j := by
  induction h with
  | refl => exact Nat.le_refl _
  | step _ ih => exact ih.trans (by rw [gammaFree]; exact Nat.le_max_left _ _)

theorem gammaFree_le (g : Exponent) (i : Nat) : gammaFree g i ≤ 255 := by
  induction i with
  | zero => simp [gammaFree]
  | succ i ih =>
    rw [gammaFree]
    have := (Config.gammaRaw g (i + 1)).isLt
    apply Nat.max_le.2 ⟨ih, _⟩
    split <;> omega

theorem gammaEntry_lt (g : Exponent) {i : Nat} (h : i < 256) : gammaEntry g i < 256 := by
  unfold gammaEntry
  have := gammaFree_le g i
  have : 2 * i * i ≤ 2 * 255 * 255 := Nat.mul_le_mul (by omega) (by omega)
  split; omega
  split; omega
  split <;> omega

theorem gammaEntry_mono (g : Exponent) {i j : Nat} (h : i ≤ j) (hj : j < 256) : gammaEntry g i ≤ gammaEntry g j := by
  unfold gammaEntry
  split
  · exact h
  split
  · have : 2 * i * i ≤ 2 * j * j := Nat.mul_le_mul (by omega) h
    omega
  have := gammaFree_le g i
  have := gammaFree_le g j
  have := gammaFree_mono g h
  split <;> split <;> omega

theorem gammaEntry_ends (g : Exponent) : gammaEntry g 0 = 0 ∧ gammaEntry g 255 = 255 := by
  unfold gammaEntry
  constructor
  · split
    · rfl
    · split
      · rfl
      · rfl
  · split
    · rfl
    · split <;> rfl

/-- An entry of the table that FB_INIT builds. -/
theorem gammaTable_toNat (g : Exponent) (i : Byte) : ((gammaTable g)[i.toNat]).toNat = gammaEntry g i.toNat := by
  simp only [gammaTable, Vector.getElem_ofFn, BitVec.toNat_ofNat]
  exact Nat.mod_eq_of_lt (gammaEntry_lt g i.isLt)

/-! ## What keeps the invariant -/

theorem State.Inv.withInbox {s : State} (h : s.Inv) (ws : List (List Byte)) : (s.withInbox ws).Inv := by
  obtain ⟨h1, h2, h3, h4, h5, h6, h7, h8, h9, h10, h11, h12, h13, h14, h15, h16, h17, h18, h19, h20, h21⟩ := h
  exact ⟨h1, h2, h3, h4, h5, h6, h7, h8, h9, h10, h11, h12, h13, h14, h15, h16, h17, h18, h19, h20, h21⟩

theorem State.Inv.withSched {s : State} (h : s.Inv) (ts : List Turn) : (s.withSched ts).Inv := by
  obtain ⟨h1, h2, h3, h4, h5, h6, h7, h8, h9, h10, h11, h12, h13, h14, h15, h16, h17, h18, h19, h20, h21⟩ := h
  exact ⟨h1, h2, h3, h4, h5, h6, h7, h8, h9, h10, h11, h12, h13, h14, h15, h16, h17, h18, h19, h20, h21⟩

/-- A HOST operation's stores and PD's work keep it, where what HOST is left in the middle of is in order. -/
theorem State.Inv.parserChanges {s t : State} (h : s.Inv) (hc : ParserChanges s t) (hf : s.fbReady = true ∨ t.pp = s.pp)
    (hst : ∀ todo r, t.host = .storing todo r → s.fbReady = true ∧ ∀ c ∈ todo, c.1 < s.cells)
    (hp : ∀ channel bytes, t.host = .parsing channel bytes → s.canParse = true ∧ ParserReady channel bytes t.pd) : t.Inv := by
  obtain ⟨⟨cs, hlt, hpp⟩, ht⟩ := hc
  obtain ⟨h1, h2, h3, h4, h5, h6, h7, h8, h9, h10, h11, h12, h13, h14, h15, h16, h17, h18, h19, -, -⟩ := h
  rw [ht]
  refine ⟨?_, ?_, ?_, h4, h5, h6, h7, h8, h9, h10, h11, h12, h13, h14, h15, h16, h17, h18, h19, hst, ?_⟩
  · show t.pp.wf = true
    rw [hpp]; exact Memory.wf_writeAll h1 cs
  · show ∀ a v, t.pp.read? a = some v → a < s.cells
    intro a v hr
    by_cases ha : ∃ c ∈ cs, c.1 = a
    · obtain ⟨c, hc, rfl⟩ := ha; exact hlt c hc
    · rw [hpp, Memory.read?_writeAll_other _ _ fun c hc e => ha ⟨c, hc, e⟩] at hr
      exact h2 a v hr
  · show s.fbReady = false → t.pp = []
    intro hn
    rcases hf with hf | hf
    · rw [hf] at hn; cases hn
    · rw [hf]; exact h3 hn
  · intro channel bytes hh
    obtain ⟨hcp, ha, hb, hd⟩ := hp channel bytes hh
    have hcp : s.pdReady = true ∧ s.fbReady = true := by simpa [State.canParse] using hcp
    exact ⟨hcp.1, hcp.2, ha, hb, hd⟩

/-- The end of a HOST operation keeps it. -/
theorem State.Inv.endHostOp {s : State} (h : s.Inv) (r : Report) : (s.endHostOp r).Inv :=
  h.parserChanges ⟨⟨[], by simp, rfl⟩, rfl⟩ (.inr rfl) (by intro _ _ e; cases e) (by intro _ _ e; cases e)

theorem State.Inv.stores {s : State} (h : s.Inv) (hf : s.fbReady = true) {cs : List Host.Cell} (hc : ∀ c ∈ cs, c.1 < s.cells) (r : Report) :
    ((s.withPp (s.pp.writeAll cs)).endHostOp r).Inv :=
  h.parserChanges (parserChanges_stores hc r) (.inl hf) (by intro _ _ e; cases e) (by intro _ _ e; cases e)

theorem State.Inv.enabled_of_tick {s : State} (h : s.Inv) {todo : List Nat} (ht : s.tick = some todo) :
    s.en = true ∧ s.seReady = true ∧ s.fbReady = true := by
  have he := (h.phaseStep todo ht).1
  exact ⟨he, h.enabledAfterInit he, h.engineAfterFramebuffer (h.enabledAfterInit he)⟩

/-- The entry into a tick keeps it. -/
theorem State.Inv.beginPhaseStep {s : State} (h : s.Inv) (he : s.en = true) (ht : s.tick = none) : s.beginPhaseStep.Inv := by
  have hse := h.enabledAfterInit he
  obtain ⟨h1, h2, h3, h4, h5, h6, h7, h8, h9, h10, h11, h12, h13, h14, h15, h16, h17, h18, h19, h20, h21⟩ := h
  refine ⟨h1, h2, h3, h4, h5, h6, h7, h8, h9, h10, ?_, ?_, ?_, ?_, ?_, ?_, ?_, ?_, ?_, h20, h21⟩
  · intro hn; rw [show s.beginPhaseStep.seReady = s.seReady from rfl, hse] at hn; cases hn
  · show s.pins.apply .blank = (s.trace ++ [Event.blank]).foldl Pins.apply Pins.zero
    rw [List.foldl_append, ← h12]; rfl
  · show frameNumbers (s.trace ++ [.blank]) = _
    rw [frameNumbers_append, h13]; exact List.append_nil _
  · show bleedFree Pins.zero (s.trace ++ [.blank]) = true
    rw [bleedFree_append, h14]; rfl
  · exact h15
  · intro _; rfl
  · rintro todo ⟨⟩; exact ⟨he, rfl, List.suffix_rfl⟩
  · intro hn; cases hn
  · rintro todo ⟨⟩
    show (panelOf (s.trace ++ [.blank])).chain.length + _ = _
    rw [panelOf_append]
    show (panelOf s.trace).chain.length + _ = _
    rw [h18 ht]; exact Nat.zero_add _

/-- One cell's scan keeps it. -/
theorem State.Inv.scanCell {s t : State} {a : Nat} {as : List Nat} (h : s.Inv) (ht : s.tick = some (a :: as))
    (hs : scanCell a (s.withTick (some as)) = .next t) : t.Inv ∧ t.tick = some as := by
  obtain ⟨-, rfl⟩ := scanCell_eq_next hs
  obtain ⟨he, hse, -⟩ := h.enabled_of_tick ht
  obtain ⟨h1, h2, h3, h4, h5, h6, h7, h8, h9, h10, h11, h12, h13, h14, h15, h16, h17, h18, h19, h20, h21⟩ := h
  generalize hb : (s.withTick (some as)).bitOf a = b
  obtain ⟨-, hdark, hsuf⟩ := h17 _ ht
  refine ⟨⟨h1, h2, h3, h4, h5, h6, h7, h8, h9, ?_, ?_, ?_, ?_, ?_, ?_, ?_, ?_, ?_, ?_, h20, h21⟩, rfl⟩
  · intro hr; rw [State.emit_acc, State.withAcc_acc, State.accAfter_length]; exact h10 hr
  · intro hn; simp [hse] at hn
  · show s.pins.apply (.shift b) = (s.trace ++ [Event.shift b]).foldl Pins.apply Pins.zero
    rw [List.foldl_append, ← h12]; rfl
  · show frameNumbers (s.trace ++ [.shift b]) = _
    rw [frameNumbers_append, h13]; exact List.append_nil _
  · show bleedFree Pins.zero (s.trace ++ [.shift b]) = true
    rw [bleedFree_append, h14, ← h12]
    simp [bleedFree, hdark]
  · exact h15
  · exact h16
  · rintro todo ⟨⟩; exact ⟨he, hdark, (List.suffix_cons _ _).trans hsuf⟩
  · intro hn; cases hn
  · rintro todo ⟨⟩
    show (panelOf (s.trace ++ [.shift b])).chain.length + _ = _
    rw [panelOf_append]
    show ((panelOf s.trace).chain ++ [b]).length + _ = _
    have := h19 _ ht
    simp only [List.length_append, List.length_cons, List.length_nil] at this ⊢
    show _ = s.currentCells.length
    omega

/-- The end of a phase step keeps it. -/
theorem State.Inv.endPhaseStep {s : State} (h : s.Inv) (ht : s.tick = some []) : s.endPhaseStep.Inv := by
  obtain ⟨he, hse, -⟩ := h.enabled_of_tick ht
  obtain ⟨h1, h2, h3, h4, h5, h6, h7, h8, h9, h10, h11, h12, h13, h14, h15, h16, h17, h18, h19, h20, h21⟩ := h
  obtain ⟨-, hdark, -⟩ := h17 _ ht
  have hpins : s.closingEvents.foldl Pins.apply s.pins = { s.pins with colLatch := false, rowSel := s.phase, rowEn := true } := by
    unfold State.closingEvents; split <;> rfl
  have hchain : (panelOf (s.trace ++ s.closingEvents)).chain = [] := by
    rw [panelOf_append]; unfold State.closingEvents; split <;> rfl
  rw [State.endPhaseStep_eq, State.emitAll_eq]
  refine ⟨h1, h2, h3, h4, h5, h6, h7, h8, h9, h10, ?_, ?_, ?_, ?_, ?_, ?_, ?_, ?_, ?_, h20, h21⟩
  · intro hn; simp [hse] at hn
  · show s.closingEvents.foldl Pins.apply s.pins = (s.trace ++ s.closingEvents).foldl Pins.apply Pins.zero
    rw [List.foldl_append, ← h12]
  · show frameNumbers (s.trace ++ s.closingEvents) = List.range (if s.phase = 3 then s.frameCnt + 1 else s.frameCnt)
    rw [frameNumbers_append, h13]
    unfold State.closingEvents
    split
    · rw [List.range_succ]; rfl
    · exact List.append_nil _
  · show bleedFree Pins.zero (s.trace ++ s.closingEvents) = true
    rw [bleedFree_append, h14, ← h12]
    unfold State.closingEvents
    split <;> simp [bleedFree, hdark]
  · show (s.closingEvents.foldl Pins.apply s.pins).colPwr = s.en
    rw [hpins]; exact h15
  · intro hn; simp [he] at hn
  · intro todo hn; cases hn
  · intro _; exact hchain
  · intro todo hn; cases hn

/-- What a phase step in progress still has to do keeps it. -/
theorem State.Inv.scanAll {as : List Nat} {s t : State} (h : s.Inv) (ht : s.tick = some as) (hs : scanAll as s = .next t) :
    t.Inv ∧ t.tick = none := by
  induction as generalizing s with
  | nil => cases hs; exact ⟨h.endPhaseStep ht, by simp⟩
  | cons a as ih =>
    rw [Machine.scanAll, andThen_eq_next] at hs
    obtain ⟨u, hu, hk⟩ := hs
    obtain ⟨hi, hut⟩ := h.scanCell ht hu
    exact ih hi hut hk

theorem State.Inv.finishPhaseStep {s t : State} (h : s.Inv) (hs : finishPhaseStep s = .next t) : t.Inv ∧ t.tick = none := by
  unfold Machine.finishPhaseStep at hs
  split at hs
  · exact h.scanAll ‹_› hs
  · cases hs; exact ⟨h, ‹_›⟩

/-- Before SE_INIT no phase step is in progress and SE is disabled. -/
theorem State.Inv.beforeSeInit {s : State} (h : s.Inv) (hn : s.seReady = false) : s.tick = none ∧ s.en = false := by
  have : s.en = false := by
    by_contra hc; rw [Bool.not_eq_false] at hc; rw [h.enabledAfterInit hc] at hn; cases hn
  refine ⟨?_, this⟩
  cases ht : s.tick with
  | none => rfl
  | some t => have := (h.phaseStep t ht).1; simp_all

/-- FB_INIT keeps it. -/
theorem State.Inv.withFramebuffer {s : State} (h : s.Inv) {w hh : Nat} {g : Exponent} (hf : s.fbReady = false) (h1 : 1 ≤ w) (h2 : 1 ≤ hh) :
    ((s.withFramebuffer w hh (gammaTable g)).endHostOp Report.done).Inv := by
  have hse : s.seReady = false := by
    by_contra hc; rw [Bool.not_eq_false] at hc; rw [h.engineAfterFramebuffer hc] at hf; cases hf
  obtain ⟨ht, he⟩ := State.Inv.beforeSeInit h hse
  obtain ⟨j1, j2, j3, j4, j5, j6, j7, j8, j9, j10, j11, j12, j13, j14, j15, j16, j17, j18, j19, j20, j21⟩ := h
  have hpp := j3 hf
  refine ⟨j1, ?_, ?_, ?_, ?_, ?_, j7, ?_, j9, ?_, j11, j12, j13, j14, j15, j16, ?_, j18, ?_, ?_, ?_⟩
  · intro a v hr; rw [show ((s.withFramebuffer w hh (gammaTable g)).endHostOp Report.done).pp = s.pp from rfl, hpp] at hr; cases hr
  · intro hn; cases hn
  · intro _; exact ⟨h1, h2⟩
  · intro _
    constructor <;> apply BitVec.eq_of_toNat_eq
    · exact (gammaTable_toNat g 0).trans (gammaEntry_ends g).1
    · exact (gammaTable_toNat g 255).trans (gammaEntry_ends g).2
  · intro _ i j hij
    show ((gammaTable g)[i.toNat]).toNat ≤ ((gammaTable g)[j.toNat]).toNat
    rw [gammaTable_toNat, gammaTable_toNat]
    exact gammaEntry_mono g hij j.isLt
  · intro _; rfl
  · intro hn; exact absurd hn (by show ¬ s.seReady = true; simp [hse])
  · intro todo hn; rw [show ((s.withFramebuffer w hh (gammaTable g)).endHostOp Report.done).tick = s.tick from rfl, ht] at hn; cases hn
  · intro todo hn; rw [show ((s.withFramebuffer w hh (gammaTable g)).endHostOp Report.done).tick = s.tick from rfl, ht] at hn; cases hn
  · intro _ _ hn; cases hn
  · intro _ _ hn; cases hn

/-- FB_ORIENT keeps it. -/
theorem State.Inv.withFlips {s : State} (h : s.Inv) (a b : Bool) : (s.withFlips a b).Inv := by
  obtain ⟨j1, j2, j3, j4, j5, j6, j7, j8, j9, j10, j11, j12, j13, j14, j15, j16, j17, j18, j19, j20, j21⟩ := h
  exact ⟨j1, j2, j3, j4, j5, j6, j7, j8, j9, j10, j11, j12, j13, j14, j15, j16, j17, j18, j19, j20, j21⟩

/-- PD_INIT keeps it. -/
theorem State.Inv.withPorts {s : State} (h : s.Inv) {a b : Port} (hp : s.pdReady = false) (hn : a ≠ b) : (s.withPorts a b).Inv := by
  obtain ⟨j1, j2, j3, j4, j5, j6, j7, j8, j9, j10, j11, j12, j13, j14, j15, j16, j17, j18, j19, j20, j21⟩ := h
  refine ⟨j1, j2, j3, j4, j5, j6, fun _ => hn, j8, j9, j10, j11, j12, j13, j14, j15, j16, j17, j18, j19, j20, ?_⟩
  intro ch bytes hh
  rw [(j21 ch bytes hh).1] at hp; cases hp

/-- Drawing keeps it. -/
theorem State.Inv.withDraws {s : State} (h : s.Inv) (n : Nat) : (s.withDraws n).Inv := by
  obtain ⟨j1, j2, j3, j4, j5, j6, j7, j8, j9, j10, j11, j12, j13, j14, j15, j16, j17, j18, j19, j20, j21⟩ := h
  exact ⟨j1, j2, j3, j4, j5, j6, j7, j8, j9, j10, j11, j12, j13, j14, j15, j16, j17, j18, j19, j20, j21⟩

/-- SE_INIT keeps it. -/
theorem State.Inv.withEngine {s : State} (h : s.Inv) (m : Mode) {acc : List Byte} (hn : s.seReady = false) (hf : s.fbReady = true) (hl : acc.length = s.cells) :
   (s.withEngine m acc).Inv := by
  obtain ⟨ht, he⟩ := State.Inv.beforeSeInit h hn
  obtain ⟨j1, j2, j3, j4, j5, j6, j7, j8, j9, j10, j11, j12, j13, j14, j15, j16, j17, j18, j19, j20, j21⟩ := h
  obtain ⟨k1, k2, k3⟩ := j11 hn
  refine ⟨j1, j2, j3, j4, j5, j6, j7, fun _ => hf, ?_, fun _ => hl, ?_, ?_, ?_, j14, rfl, fun _ => rfl, ?_, j18, ?_, j20, j21⟩
  · intro hh; cases hh
  · intro hh; cases hh
  · rw [show (s.withEngine m acc).trace = s.trace from rfl, k1]; rfl
  · rw [show (s.withEngine m acc).trace = s.trace from rfl, k1]; rfl
  · intro todo hh; rw [show (s.withEngine m acc).tick = s.tick from rfl, ht] at hh; cases hh
  · intro todo hh; rw [show (s.withEngine m acc).tick = s.tick from rfl, ht] at hh; cases hh

/-- SE_ENABLE's and SE_DISABLE's own events keep it, between phase steps. -/
theorem State.Inv.switched {s : State} (h : s.Inv) (hr : s.seReady = true) (ht : s.tick = none) {es : List Event} {en : Bool}
    (hf : frameNumbers es = []) (hb : bleedFree s.pins es = true) (hc : (es.foldl PanelView.apply (panelOf s.trace)).chain = [])
    (hp : (es.foldl Pins.apply s.pins).colPwr = en) (hd : en = false → (es.foldl Pins.apply s.pins).rowEn = false) :
    ((s.emitAll es).withEn en).Inv := by
  obtain ⟨j1, j2, j3, j4, j5, j6, j7, j8, -, j10, -, j12, j13, j14, -, -, -, -, -, j20, j21⟩ := h
  rw [State.emitAll_eq]
  refine ⟨j1, j2, j3, j4, j5, j6, j7, j8, fun _ => hr, j10, ?_, ?_, ?_, ?_, hp, hd, ?_, ?_, ?_, j20, j21⟩
  · intro hn; exact absurd (hr.symm.trans hn) (by simp)
  · show es.foldl Pins.apply s.pins = (s.trace ++ es).foldl Pins.apply Pins.zero
    rw [List.foldl_append, ← j12]
  · show frameNumbers (s.trace ++ es) = List.range s.frameCnt
    rw [frameNumbers_append, j13, hf, List.append_nil]
  · show bleedFree Pins.zero (s.trace ++ es) = true
    rw [bleedFree_append, j14, ← j12, hb]; rfl
  · intro todo hn; exact absurd (ht.symm.trans hn) (by simp)
  · intro _
    show (panelOf (s.trace ++ es)).chain = []
    rw [panelOf_append]; exact hc
  · intro todo hn; exact absurd (ht.symm.trans hn) (by simp)

theorem State.Inv.enable {s : State} (h : s.Inv) (hr : s.seReady = true) (ht : s.tick = none) :
    (((s.emit (.power true)).emit .attach).withEn true).Inv :=
  h.switched (es := [.power true, .attach]) hr ht rfl rfl (h.chainBetween ht) rfl (by intro hn; cases hn)

theorem State.Inv.disable {s : State} (h : s.Inv) (hr : s.seReady = true) (ht : s.tick = none) :
    ((((s.emit .blank).emit .detach).emit (.power false)).withEn false).Inv :=
  h.switched (es := [.blank, .detach, .power false]) hr ht rfl rfl (h.chainBetween ht) rfl (fun _ => rfl)

end Sys2Proof.Machine
end

