-- ==== Sys2Proof/Laws/PerInstr.lean ====
section
/-! SUPPORT. A statement about every operation as syntax, proved constructor by constructor: the first bytes of its encoding, read as one
little-endian number, match its row of spec/opcode_table.json under the row's mask (R110). -/

namespace Sys2Proof.Laws.TableRow

/-- The number that bytes are, the least significant first (R110). -/
def littleEndian (bs : List Byte) : Nat := bs.foldr (fun b n => b.toNat + 256 * n) 0

/-- The row's width in bytes, mask and match, as spec/opcode_table.json prints them. -/
def row : Instr → Nat × Nat × Nat
  | .txtPx _ => (3, 0xFFFFFF, 0x205850)
  | .bin0 _ _ _ _ _ => (2, 0x01FF, 0x0000)
  | .bin0a _ _ _ _ _ _ => (2, 0x01FF, 0x0100)
  | .bin1 _ _ _ _ _ => (2, 0x01FF, 0x0001)
  | .bin1a _ _ _ _ _ _ => (2, 0x01FF, 0x0101)
  | .bin2 _ _ _ => (2, 0x01FF, 0x0002)
  | .bin2a _ _ _ => (2, 0x01FF, 0x0102)
  | .bin3 _ _ _ => (2, 0x00FF, 0x0003)
  | .fbInit _ _ _ => (1, 0xFF, 0x01)
  | .fbOrient _ _ => (1, 0xFF, 0x02)
  | .fbClear => (1, 0xFF, 0x03)
  | .fbWrite _ _ _ => (1, 0xFF, 0x04)
  | .fbText _ _ _ _ => (1, 0xFF, 0x05)
  | .pdInit _ _ => (1, 0xFF, 0x10)
  | .pdRxtext _ => (1, 0xFF, 0x11)
  | .pdRxbin _ => (1, 0xFF, 0x12)
  | .seInit _ => (1, 0xFF, 0x20)
  | .seEnable => (1, 0xFF, 0x21)
  | .seDisable => (1, 0xFF, 0x22)
  | .seTick => (1, 0xFF, 0x23)

/-- The encoding of the operation matches its row. -/
def Statement (i : Instr) : Prop := littleEndian ((encode i).take (row i).1) &&& (row i).2.1 = (row i).2.2

/-- An encoding that begins with these bytes matches a row that they match. -/
theorem statement_of_bytes {i : Instr} {bs : List Byte} (h : (encode i).take (row i).1 = bs)
    (hm : littleEndian bs &&& (row i).2.1 = (row i).2.2) : Statement i := by
  unfold Statement; rw [h]; exact hm

theorem txtPx (line : TextLine) : Statement (.txtPx line) :=
  statement_of_bytes (by rfl) (by decide : littleEndian [0x50, 0x58, 0x20] &&& 0xFFFFFF = 0x205850)
theorem bin0 (x y : BitVec 16) (r g b : Byte) : Statement (.bin0 x y r g b) :=
  statement_of_bytes (by rfl) (by decide : littleEndian [0x00, 0x00] &&& 0x01FF = 0x0000)
theorem bin0a (x y : BitVec 16) (r g b a : Byte) : Statement (.bin0a x y r g b a) :=
  statement_of_bytes (by rfl) (by decide : littleEndian [0x00, 0x01] &&& 0x01FF = 0x0100)
theorem bin1 (x y : BitVec 12) (r g b : Byte) : Statement (.bin1 x y r g b) :=
  statement_of_bytes (by rfl) (by decide : littleEndian [0x01, 0x00] &&& 0x01FF = 0x0001)
theorem bin1a (x y : BitVec 12) (r g b a : Byte) : Statement (.bin1a x y r g b a) :=
  statement_of_bytes (by rfl) (by decide : littleEndian [0x01, 0x01] &&& 0x01FF = 0x0101)
theorem bin2 (x y : BitVec 12) (c : Byte) : Statement (.bin2 x y c) :=
  statement_of_bytes (by rfl) (by decide : littleEndian [0x02, 0x00] &&& 0x01FF = 0x0002)
theorem bin2a (x y : BitVec 12) (c : Byte) : Statement (.bin2a x y c) :=
  statement_of_bytes (by rfl) (by decide : littleEndian [0x02, 0x01] &&& 0x01FF = 0x0102)
theorem bin3 (col : Byte) (x y : BitVec 12) : Statement (.bin3 col x y) :=
  statement_of_bytes (by rfl) (by decide : littleEndian [0x03, 0x00] &&& 0x00FF = 0x0003)
theorem fbInit (width height : Nat) (gamma : Exponent) : Statement (.fbInit width height gamma) :=
  statement_of_bytes (by rfl) (by decide : littleEndian [0x01] &&& 0xFF = 0x01)
theorem fbOrient (h v : Bool) : Statement (.fbOrient h v) :=
  statement_of_bytes (by rfl) (by decide : littleEndian [0x02] &&& 0xFF = 0x02)
theorem fbClear : Statement .fbClear :=
  statement_of_bytes (by rfl) (by decide : littleEndian [0x03] &&& 0xFF = 0x03)
theorem fbWrite (x y : Int) (i : Byte) : Statement (.fbWrite x y i) :=
  statement_of_bytes (by rfl) (by decide : littleEndian [0x04] &&& 0xFF = 0x04)
theorem fbText (text : List Byte) (x y : Int) (i : Byte) : Statement (.fbText text x y i) :=
  statement_of_bytes (by rfl) (by decide : littleEndian [0x05] &&& 0xFF = 0x05)
theorem pdInit (textPort binPort : Port) : Statement (.pdInit textPort binPort) :=
  statement_of_bytes (by rfl) (by decide : littleEndian [0x10] &&& 0xFF = 0x10)
theorem pdRxtext (bytes : List Byte) : Statement (.pdRxtext bytes) :=
  statement_of_bytes (by rfl) (by decide : littleEndian [0x11] &&& 0xFF = 0x11)
theorem pdRxbin (bytes : List Byte) : Statement (.pdRxbin bytes) :=
  statement_of_bytes (by rfl) (by decide : littleEndian [0x12] &&& 0xFF = 0x12)
theorem seInit (mode : Mode) : Statement (.seInit mode) :=
  statement_of_bytes (by rfl) (by decide : littleEndian [0x20] &&& 0xFF = 0x20)
theorem seEnable : Statement .seEnable :=
  statement_of_bytes (by rfl) (by decide : littleEndian [0x21] &&& 0xFF = 0x21)
theorem seDisable : Statement .seDisable :=
  statement_of_bytes (by rfl) (by decide : littleEndian [0x22] &&& 0xFF = 0x22)
theorem seTick : Statement .seTick :=
  statement_of_bytes (by rfl) (by decide : littleEndian [0x23] &&& 0xFF = 0x23)

end Sys2Proof.Laws.TableRow
end

