-- ==== Sys2Proof/Laws/Turns.lean ====
section
/-! SUPPORT. What a turn of each agent does, in the terms claims use; and that the schedule is of no account to an action of HOST. -/

namespace Sys2Proof.Machine

/-- The outcome of an action. -/
def Action.outcome : Action → Out
  | .run i s => exec i s
  | .act o => o

theorem step_eq (s : State) : step s = (nextAction s).outcome := by
  unfold step; cases nextAction s <;> rfl

theorem step_of_hostGoes {s u : State} {g : Grain} (h : HostGoes s g u) : step s = (hostTurn g u).outcome := by
  rcases h with ⟨h, rfl, rfl⟩ | ⟨ts, h, rfl⟩
  · rw [step_eq, nextAction, h]
  · rw [step_eq, nextAction, h]; rfl

theorem step_of_timerGoes {s u : State} {g : Grain} (h : TimerGoes s g u) : step s = (timerTurn g u).outcome := by
  obtain ⟨ts, h, rfl⟩ := h
  rw [step_eq, nextAction, h]; rfl

/-- Taking a turn off the schedule changes nothing else. -/
theorem HostGoes.eq_withSched {s u : State} {g : Grain} (h : HostGoes s g u) : u = s.withSched u.sched := by
  rcases h with ⟨-, -, rfl⟩ | ⟨ts, -, rfl⟩ <;> rfl

theorem TimerGoes.eq_withSched {s u : State} {g : Grain} (h : TimerGoes s g u) : u = s.withSched u.sched := by
  obtain ⟨ts, -, rfl⟩ := h; rfl

theorem HostGoes.host {s u : State} {g : Grain} (h : HostGoes s g u) : u.host = s.host := by rw [h.eq_withSched]; rfl
theorem HostGoes.pd {s u : State} {g : Grain} (h : HostGoes s g u) : u.pd = s.pd := by rw [h.eq_withSched]; rfl
theorem HostGoes.inbox {s u : State} {g : Grain} (h : HostGoes s g u) : u.inbox = s.inbox := by rw [h.eq_withSched]; rfl
theorem TimerGoes.tick {s u : State} {g : Grain} (h : TimerGoes s g u) : u.tick = s.tick := by rw [h.eq_withSched]; rfl

/-! ## HOST's turn and TIMER's, by what they are in the middle of -/

theorem hostTurn_idle {s : State} (h : s.host = .idle) (g : Grain) : hostTurn g s = hostFetch g s := by
  unfold hostTurn; rw [h]

theorem hostTurn_storing {s : State} {todo : List Host.Cell} {r : Report} (h : s.host = .storing todo r) (g : Grain) :
    hostTurn g s = .act (storeAction todo r s) := by
  unfold hostTurn; rw [h]

theorem hostTurn_stop {s : State} {channel : Channel} {bytes : List Byte} {c : StopCause} (h : s.host = .parsing channel bytes)
    (hf : fetchRecord channel bytes s.pd = .stop c) (g : Grain) : hostTurn g s = .act (.next (s.stopDatagram c)) := by
  unfold hostTurn; simp only [h, hf]

theorem hostTurn_record {s : State} {channel : Channel} {bytes : List Byte} {i : Instr} (h : s.host = .parsing channel bytes)
    (hf : fetchRecord channel bytes s.pd = .record i) (g : Grain) : hostTurn g s = .run i s := by
  unfold hostTurn; simp only [h, hf]

theorem timerTurn_scanning {s : State} {todo : List Nat} (h : s.tick = some todo) (g : Grain) :
    timerTurn g s = .act (scanAction todo s) := by
  unfold timerTurn; rw [h]

theorem timerTurn_whole {s : State} (h : s.tick = none) : timerTurn .whole s = .run .seTick s := by
  unfold timerTurn; rw [h]

theorem timerTurn_split {s : State} (h : s.tick = none) : timerTurn .split s = .act (beginTick s) := by
  unfold timerTurn; rw [h]

/-! ## Records -/

/-- One pass of the parser's loop is HOST's step while a datagram is parsed, whatever the grain. -/
theorem hostTurn_parsing {s : State} {channel : Channel} {bytes : List Byte} (h : s.host = .parsing channel bytes)
    (hr : ParserReady channel bytes s.pd) (g : Grain) : (hostTurn g s).outcome = parseStep channel bytes s := by
  unfold parseStep
  rcases fetchRecord_ready hr with ⟨c, -, hf⟩ | ⟨i, hf, hi, -, -⟩
  · rw [hostTurn_stop h hf, hf]; rfl
  · rw [hostTurn_record h hf, hf]; exact (runRecord_eq_exec hi s).symm

/-- A wire record reads no parser register and no schedule: it moves the cursor on, by the same number of bytes whatever they hold, or not
at all, and does the same to all else. -/
theorem runRecord_elsewhere {i : Instr} {s t : State} (h : runRecord i s = .next t) :
    ∃ n, t.pd = { s.pd with pos := s.pd.pos + n } ∧ ∀ pd ts,
      runRecord i ((s.withPd pd).withSched ts) = .next ((t.withPd { pd with pos := pd.pos + n }).withSched ts) := by
  have bin : ∀ (x y : Nat) (c : Rgb) (size : Nat), binaryRecord x y c size s = .next t →
      ∃ n, t.pd = { s.pd with pos := s.pd.pos + n } ∧ ∀ pd ts,
        binaryRecord x y c size ((s.withPd pd).withSched ts) = .next ((t.withPd { pd with pos := pd.pos + n }).withSched ts) := by
    intro x y c size h
    unfold binaryRecord at h
    simp only [writePixel_next, andThen_next] at h
    split at h
    · rename_i hc
      split at h <;> cases h <;> rename_i ho
      · exact ⟨0, rfl, fun pd ts => by
          rw [binaryRecord, if_pos (by exact hc), if_pos (by exact ho)]; rfl⟩
      · exact ⟨size, rfl, fun pd ts => by
          rw [binaryRecord, if_pos (by exact hc), if_neg (by exact ho), writePixel_next, andThen_next]; rfl⟩
    · cases h
  cases i <;> first
    | exact bin _ _ _ _ h
    | cases h
    | skip
  rename_i l
  have h : execTxtPx l s = .next t := h
  suffices ∃ n, t.pd = { s.pd with pos := s.pd.pos + n } ∧ ∀ pd ts,
      execTxtPx l ((s.withPd pd).withSched ts) = .next ((t.withPd { pd with pos := pd.pos + n }).withSched ts) from this
  have e1 : ∀ pd ts, ((s.withPd pd).withSched ts).canParse = s.canParse := fun _ _ => rfl
  have e2 : ∀ pd ts x y, ((s.withPd pd).withSched ts).outside x y = s.outside x y := fun _ _ _ _ => rfl
  unfold execTxtPx textTail at h ⊢
  simp only [writePixel_next, andThen_next, e1, e2, State.withSched_draws, State.withPd_draws] at h ⊢
  repeat' split at h
  all_goals cases h
  all_goals simp only [*, ne_eq, not_false_eq_true, if_true, if_false]
  all_goals first
    | exact ⟨0, rfl, fun _ _ => rfl⟩
    | exact ⟨_, rfl, fun _ _ => rfl⟩

/-- So does one pass of the parser's loop, where the same stands at the cursor. -/
theorem parseStep_elsewhere {channel : Channel} {bytes : List Byte} {s t : State} (h : parseStep channel bytes s = .next t) :
    ∃ n, t.pd = { s.pd with pos := s.pd.pos + n } ∧ ∀ pd ts, fetchRecord channel bytes pd = fetchRecord channel bytes s.pd →
      parseStep channel bytes ((s.withPd pd).withSched ts) = .next ((t.withPd { pd with pos := pd.pos + n }).withSched ts) := by
  unfold parseStep at h ⊢
  split at h
  · cases h
    refine ⟨0, rfl, fun pd ts e => ?_⟩
    rw [State.withSched_pd, State.withPd_pd, e, ‹fetchRecord _ _ _ = _›]; rfl
  · obtain ⟨n, hn, hr⟩ := runRecord_elsewhere h
    refine ⟨n, hn, fun pd ts e => ?_⟩
    rw [State.withSched_pd, State.withPd_pd, e, ‹fetchRecord _ _ _ = _›]
    exact hr pd ts
  · cases h

end Sys2Proof.Machine
end

