-- ==== Sys2Proof/Tests/Slice0.lean ====
section
/-! SUPPORT. Tests of the model against the spec's own examples and vectors (95_test_vectors.md, named by their ids) and against words
written out from its encoding tables; one ill-formed term for each well-formedness check; and a witness for the hypotheses of every
obligation that has any. Each runs one operation or one step. -/

namespace Sys2Proof.Tests

open Sys2Proof Sys2Proof.Machine

/-! ## Reading an outcome -/

/-- The outcome is a next state of which `p` holds. -/
def nextIs (o : Out) (p : State → Bool) : Bool :=
  match o with
  | .next s => p s
  | .fault _ => false
  | .refused _ => false

/-- The outcome is this refusal. -/
def refusedAs (o : Out) (r : Refusal) : Bool :=
  match o with
  | .next _ => false
  | .fault _ => false
  | .refused q => q == r

/-- The operation ended its datagram with this cause. -/
def stoppedBy (o : Out) (c : StopCause) : Bool :=
  nextIs o fun s => s.host == .idle && s.report == ⟨.none, some c⟩

/-! ## Small states -/

/-- The plane of the vectors F: 8 x 4, gamma 2. -/
def plane84 : State := { State.reset with fbReady := true, fbW := 8, fbH := 4, gt := gammaTable (.rational 2) }

/-- The panel of the vectors T and B: 16 x 32, PD initialised. -/
def panel1632 : State :=
  { State.reset with fbReady := true, fbW := 16, fbH := 32, pdReady := true, textPort := 1337, binPort := 1338 }

/-- The engine of vector S2: 3 x 6, BINARY, enabled, with that vector's plane. -/
def engine36 : State :=
  { State.reset with
    fbReady := true, fbW := 3, fbH := 6, seReady := true, en := true, mode := .binary, acc := List.replicate 18 0
    pp := [(0, 0), (1, 9), (2, 255), (3, 1), (4, 0), (5, 0), (6, 0), (7, 0), (8, 0), (9, 7), (10, 7), (11, 7), (12, 0), (13, 0),
      (14, 128), (15, 0), (16, 255), (17, 0)] }

/-- One cell, DITHERED, with the accumulator 200 and the intensity 100 (the example of R214). -/
def cell1 : State :=
  { State.reset with
    fbReady := true, fbW := 1, fbH := 1, seReady := true, en := true, mode := .dithered, acc := [200], pp := [(0, 100)] }

/-! ## Well-formedness: one ill-formed term for each check (R91, R92, R172) -/

/-- `PX 10 20 FF0000` and a line feed. -/
def lineT1 : TextLine := ⟨[0x31, 0x30], some 0x20, [0x32, 0x30], some 0x20, [0x46, 0x46, 0x30, 0x30, 0x30, 0x30], some 0x0A⟩

theorem test_wellFormed_line : (Instr.txtPx lineT1).wellFormed = true := by decide
theorem test_illFormed_no_x : (Instr.txtPx { lineT1 with xDigits := [] }).wellFormed = false := by decide
theorem test_illFormed_x_not_digits : (Instr.txtPx { lineT1 with xDigits := [0x2D, 0x31] }).wellFormed = false := by decide
theorem test_illFormed_sep1 : (Instr.txtPx { lineT1 with sep1 := some 0x09 }).wellFormed = false := by decide
theorem test_illFormed_no_y : (Instr.txtPx { lineT1 with yDigits := [] }).wellFormed = false := by decide
theorem test_illFormed_y_not_digits : (Instr.txtPx { lineT1 with yDigits := [0x3A] }).wellFormed = false := by decide
theorem test_illFormed_sep2 : (Instr.txtPx { lineT1 with sep2 := none }).wellFormed = false := by decide
theorem test_illFormed_colour : (Instr.txtPx { lineT1 with colour := [0x46, 0x46, 0x30, 0x30, 0x30] }).wellFormed = false := by decide
theorem test_illFormed_term : (Instr.txtPx { lineT1 with term := some 0x0D }).wellFormed = false := by decide
theorem test_illFormed_width : (Instr.fbInit 0 8 (.rational 1)).wellFormed = false := by decide
theorem test_illFormed_height : (Instr.fbInit 8 0 (.rational 1)).wellFormed = false := by decide
theorem test_illFormed_gamma : (Instr.fbInit 8 8 (.rational 0)).wellFormed = false := by decide
theorem test_wellFormed_fbInit : (Instr.fbInit 8 8 (.rational 1)).wellFormed = true := by decide

/-! ## Decoding: every operation from a word written out of the spec's encoding of it -/

/-- T1's bytes, as 95_test_vectors.md prints them. -/
theorem test_decode_txtPx : decode .text [0x50, 0x58, 0x20, 0x31, 0x30, 0x20, 0x32, 0x30, 0x20, 0x46, 0x46, 0x30, 0x30, 0x30, 0x30, 0x0A] =
    .ok (.txtPx lineT1) := by decide

/-- R96: x[7:0], x[15:8], y[7:0], y[15:8], r, g, b; header 0, 0. -/
theorem test_decode_bin0 : decode .binary [0b00000000, 0b00000000, 0x0A, 0x01, 0x14, 0x02, 0xFF, 0x80, 0x01] =
    .ok (.bin0 0x010A 0x0214 0xFF 0x80 0x01) := by decide

/-- R96, R104: the same with a last byte, carried and discarded; header 0, alpha 1. -/
theorem test_decode_bin0a : decode .binary [0x00, 0b00000001, 0x0A, 0x00, 0x14, 0x00, 0xFF, 0x00, 0x00, 0x80] =
    .ok (.bin0a 10 20 0xFF 0 0 0x80) := by decide

/-- B7: the high nibble of byte 1 belongs to y. -/
theorem test_decode_bin1 : decode .binary [0x01, 0x00, 0x05, 0xF0, 0x00, 0x0A, 0x0B, 0x0C] = .ok (.bin1 5 15 10 11 12) := by decide

/-- B8. -/
theorem test_decode_bin1a : decode .binary [0x01, 0x01, 0x0A, 0x40, 0x01, 0xFF, 0x00, 0x00, 0xFF] = .ok (.bin1a 10 20 0xFF 0 0 0xFF) := by
  decide

/-- B9. -/
theorem test_decode_bin2 : decode .binary [0x02, 0x00, 0x0A, 0x40, 0x01, 0xE0] = .ok (.bin2 10 20 0xE0) := by decide

/-- B10. -/
theorem test_decode_bin2a : decode .binary [0x02, 0x01, 0x0A, 0x40, 0x01, 0xE7] = .ok (.bin2a 10 20 0xE7) := by decide

/-- B12: the alpha bit has no effect on variant 3. -/
theorem test_decode_bin3 : decode .binary [0x03, 0x01, 0x1C, 0x00, 0x00, 0x00] = .ok (.bin3 0x1C 0 0) := by decide

/-- The opcodes of R107; the operand bytes are the model's own packing (notes/assumptions/2.md). -/
theorem test_decode_fbInit : decode .command [0x01, 0x08, 0x04, 0x00, 0x00, 0x02, 0x00] = .ok (.fbInit 8 4 (.rational 2)) := by decide
theorem test_decode_fbInit_irrational : decode .command [0x01, 0x08, 0x04, 0x01, 0x00, 0x01, 0x07] = .ok (.fbInit 8 4 (.irrational 1 7)) := by
  decide
theorem test_decode_fbOrient : decode .command [0x02, 0x01, 0x00] = .ok (.fbOrient true false) := by decide
theorem test_decode_fbClear : decode .command [0x03] = .ok .fbClear := by decide
theorem test_decode_fbWrite : decode .command [0x04, 0x01, 0x00, 0x00, 0x03, 0xFF] = .ok (.fbWrite (-1) 3 0xFF) := by decide
theorem test_decode_fbText : decode .command [0x05, 0x02, 0x41, 0x21, 0x00, 0x04, 0x00, 0x00, 0xFF] = .ok (.fbText [0x41, 0x21] 4 0 0xFF) := by
  decide
theorem test_decode_pdInit : decode .command [0x10, 0x39, 0x05, 0x3A, 0x05] = .ok (.pdInit 1337 1338) := by decide
theorem test_decode_pdRxtext : decode .command [0x11, 0x03, 0x50, 0x58, 0x20] = .ok (.pdRxtext [0x50, 0x58, 0x20]) := by decide
theorem test_decode_pdRxbin : decode .command [0x12, 0x02, 0x03, 0x00] = .ok (.pdRxbin [0x03, 0x00]) := by decide
theorem test_decode_seInit : decode .command [0x20, 0x01] = .ok (.seInit .dithered) := by decide
theorem test_decode_seEnable : decode .command [0x21] = .ok .seEnable := by decide
theorem test_decode_seDisable : decode .command [0x22] = .ok .seDisable := by decide
theorem test_decode_seTick : decode .command [0x23] = .ok .seTick := by decide

/-- R106 (a), (c), (f), (i): each refused by name. -/
theorem test_decode_unknown_format : decode .binary [0x04, 0x00, 0x01, 0x00] = .error .unknownFormat := by decide
theorem test_decode_short_header : decode .binary [0x03, 0x00] = .error .shortHeader := by decide
theorem test_decode_short_record : decode .binary [0x02, 0x00, 0x01, 0x02, 0x03] = .error .shortRecord := by decide
theorem test_decode_bad_prefix : decode .text [0x70, 0x78, 0x20, 0x31] = .error .badPrefix := by decide
theorem test_decode_reserved : decode .command [0x06] = .error .reservedOpcode := by decide

/-! ## FB -/

/-- R172, G1: a second FB_INIT is refused; the first keeps the dimensions. -/
theorem test_fbInit : nextIs (exec (.fbInit 8 4 (.rational 2)) State.reset) (fun s => s.fbReady && s.fbW == 8 && s.fbH == 4 && !s.hflip) = true := by
  decide
theorem test_fbInit_twice : refusedAs (exec (.fbInit 8 4 (.rational 2)) plane84) .fbAlreadyReady = true := by decide

/-- R172 types the exponent real: an irrational one above 0 is accepted, one below 0 refused. -/
theorem test_fbInit_irrational : nextIs (exec (.fbInit 8 4 (.irrational 0 0)) State.reset) (fun s => s.fbReady) = true ∧
    refusedAs (exec (.fbInit 8 4 (.irrational (-1) 0)) State.reset) .badFbOperand = true := by decide

/-- G2's landmarks, and the last entry before 255. -/
theorem test_gamma_two : [11, 12, 64, 128, 180, 181, 254, 255].map (gammaEntry (.rational 2)) = [0, 1, 16, 64, 127, 128, 253, 255] := by decide

/-- F7: with HFLIP, (3, 2) is stored at (4, 2), index 20. -/
theorem test_fbWrite_flipped : exec (.fbWrite 3 2 128) { plane84 with hflip := true } =
    .next { plane84 with hflip := true, pp := [(20, plane84.gamma 128)], report := ⟨.bool true, none⟩ } := by rfl

/-- F10, F11, F12: dropped, and reported false. -/
theorem test_fbWrite_dropped : (nextIs (exec (.fbWrite 8 0 255) plane84) fun s => s.pp == [] && s.report.result == .bool false) = true ∧
    (nextIs (exec (.fbWrite 0 4 255) plane84) fun s => s.pp == [] && s.report.result == .bool false) = true ∧
    (nextIs (exec (.fbWrite (-1) 0 255) plane84) fun s => s.pp == [] && s.report.result == .bool false) = true := by decide

/-- F17: FB_ORIENT moves no cell. -/
theorem test_fbOrient : nextIs (exec (.fbOrient true false) { plane84 with pp := [(0, 255)] })
    (fun s => s.hflip && !s.vflip && s.pp == [(0, 255)]) = true := by decide

/-- R175 on a 2 x 2 plane. -/
theorem test_fbClear : nextIs (exec .fbClear { plane84 with fbW := 2, fbH := 2, pp := [(1, 9)] })
    (fun s => s.pp == [(0, 0), (1, 0), (2, 0), (3, 0)]) = true := by decide

/-- The test font of the vectors X: `A`, `!`, `:`, `.`; every other glyph blank. -/
def testFont (ch : Fin 128) (k : Fin 5) : BitVec 7 :=
  (if ch.val = 0x41 then [0x7E, 0x11, 0x11, 0x11, 0x7E]
    else if ch.val = 0x21 then [0x00, 0x00, 0x5F, 0x00, 0x00]
    else if ch.val = 0x3A then [0x00, 0x03, 0x00, 0x03, 0x00]
    else if ch.val = 0x2E then [0x00, 0x00, 0x00, 0x40, 0x00]
    else [0, 0, 0, 0, 0]).getD k.val 0

/-- X2. -/
theorem test_text_X2 : textLayout testFont 3 0 0 [0x41, 0x21] =
    ([(0, 1), (0, 2), (0, 3), (0, 4), (0, 5), (0, 6), (1, 0), (1, 4), (2, 0), (2, 4), (3, 0), (3, 4), (4, 1), (4, 2), (4, 3), (4, 4),
      (4, 5), (4, 6), (6, 0), (6, 1), (6, 2), (6, 3), (6, 4), (6, 6)], 8) := by decide

/-- X3, X6, and X11 with a blank advance of 3. -/
theorem test_text_X3_X6_X11 : textLayout testFont 3 1 2 [0x3A] = ([(2, 1), (2, 2), (4, 1), (4, 2)], 6) ∧
    textLayout testFont 3 0 5 [0xC3, 0xA9] = ([], 5) ∧ (textLayout testFont 3 0 0 [0x21, 0x20, 0x21]).2 = 7 := by decide

/-- X5: FB_TEXT of an empty text returns x. -/
theorem test_fbText_empty : nextIs (exec (.fbText [] 9 0 255) plane84) (fun s => s.pp == [] && s.report == ⟨.int 9, none⟩) = true := by decide

/-! ## PD -/

/-- I1, I4. -/
theorem test_pdInit : (nextIs (exec (.pdInit 1337 1338) State.reset) fun s =>
      s.pdReady && s.textPort == 1337 && s.binPort == 1338 && s.report.result == .bool true) = true ∧
    (nextIs (exec (.pdInit 0 0) State.reset) fun s => !s.pdReady && s.report.result == .bool false) = true := by decide

/-- T1: one write at (10, 20), that is index 20 * 16 + 10, and the cursor moves from 0 to 16. -/
theorem test_txtPx : exec (.txtPx lineT1) panel1632 = .next { panel1632 with
    pp := [(330, panel1632.gamma (Config.rgbToGray 255 0 0))], pd := ⟨0, 16, 0, false, 0, 0⟩ } := by rfl

/-- T16, T18: without its line feed the pixel is written, then the datagram stops; a bad green pair is one draw, red and blue exact. -/
theorem test_txtPx_stops : exec (.txtPx { lineT1 with colour := [0x46, 0x46, 0x5A, 0x5A, 0x30, 0x30], term := none }) panel1632 =
    .next { panel1632 with
      pp := [(330, panel1632.gamma (Config.rgbToGray 255 (Config.draw 0) 0))], draws := 1, report := ⟨.none, some .noTerminator⟩ } := by rfl

/-- T9: no resynchronisation after a bad line; T4: the empty datagram. -/
theorem test_pdRxtext : (nextIs (exec (.pdRxtext ([0x50, 0x58, 0x20, 0x31, 0x20, 0x31, 0x20, 0x46, 0x46, 0x46, 0x46, 0x46, 0x46, 0x0A] ++
      [0x48, 0x45, 0x4C, 0x4C, 0x4F, 0x0A])) panel1632)
      fun s => s.pp.map (·.1) == [17] && s.report.cause == some .badPrefix) = true ∧
    stoppedBy (exec (.pdRxtext []) panel1632) .endOfData = true := by decide

/-- T11, T14, T15: BAD_NUMBER, BAD_SEPARATOR, SHORT_COLOUR. -/
theorem test_pdRxtext_causes :
    stoppedBy (exec (.pdRxtext [0x50, 0x58, 0x20, 0x20, 0x31, 0x20, 0x32, 0x20, 0x46, 0x46, 0x46, 0x46, 0x46, 0x46, 0x0A]) panel1632) .badNumber =
      true ∧
    stoppedBy (exec (.pdRxtext [0x50, 0x58, 0x20, 0x31, 0x09, 0x32, 0x20, 0x46, 0x46, 0x46, 0x46, 0x46, 0x46, 0x0A]) panel1632) .badSeparator =
      true ∧
    stoppedBy (exec (.pdRxtext [0x50, 0x58, 0x20, 0x31, 0x20, 0x32, 0x20, 0x46, 0x46, 0x46, 0x46, 0x0A]) panel1632) .shortColour = true := by
  decide

/-- B2: the alpha byte is skipped and the 7-byte tail is less than one record; B15: an unknown format draws nothing. -/
theorem test_pdRxbin : (nextIs (exec (.pdRxbin [0x00, 0x01, 0x0A, 0x00, 0x14, 0x00, 0xFF, 0x00, 0x00, 0x80, 0x03, 0x00, 0x04, 0x00, 0x00, 0xFF,
      0x00]) panel1632) fun s => s.pp.map (·.1) == [330] && s.report.cause == some .endOfData) = true ∧
    (nextIs (exec (.pdRxbin [0x04, 0x00, 0x01, 0x00, 0x02, 0x00, 0xFF, 0x00, 0x00]) panel1632)
      fun s => s.pp == [] && s.report.cause == some .unknownFormat) = true := by decide

/-- B17: the second record, x = 16 = W, stops; the third is never written. -/
theorem test_pdRxbin_stops : (nextIs (exec (.pdRxbin [0x02, 0x00, 0x01, 0x20, 0x00, 0xFF, 0x10, 0x00, 0x00, 0xFF, 0x02, 0x20, 0x00, 0xFF])
    panel1632) fun s => s.pp.map (·.1) == [33] && s.report.cause == some .outOfBounds) = true := by decide

/-- One record of each binary layout: its cell, its colour, its size. -/
theorem test_bin0 : exec (.bin0 10 20 255 0 0) panel1632 = .next { panel1632 with
    pp := [(330, panel1632.gamma (Config.rgbToGray 255 0 0))], pd := ⟨0, 7, 0, false, 0, 0⟩ } := by rfl
theorem test_bin0a : exec (.bin0a 10 20 255 0 0 0x80) panel1632 = .next { panel1632 with
    pp := [(330, panel1632.gamma (Config.rgbToGray 255 0 0))], pd := ⟨0, 8, 0, false, 0, 0⟩ } := by rfl
theorem test_bin1 : exec (.bin1 5 15 10 11 12) panel1632 = .next { panel1632 with
    pp := [(245, panel1632.gamma (Config.rgbToGray 10 11 12))], pd := ⟨0, 6, 0, false, 0, 0⟩ } := by rfl
theorem test_bin1a : exec (.bin1a 15 1 0 0 255 0) panel1632 = .next { panel1632 with
    pp := [(31, panel1632.gamma (Config.rgbToGray 0 0 255))], pd := ⟨0, 7, 0, false, 0, 0⟩ } := by rfl
theorem test_bin2 : exec (.bin2 1 2 0x1F) panel1632 = .next { panel1632 with
    pp := [(33, panel1632.gamma (Config.rgbToGray 0 224 192))], pd := ⟨0, 4, 0, false, 0, 0⟩ } := by rfl
theorem test_bin2a : exec (.bin2a 10 20 0xE7) panel1632 = .next { panel1632 with
    pp := [(330, panel1632.gamma (Config.rgbToGray 192 128 64))], pd := ⟨0, 4, 0, false, 0, 0⟩ } := by rfl
theorem test_bin3 : exec (.bin3 0xFF 3 4) panel1632 = .next { panel1632 with
    pp := [(67, panel1632.gamma (Config.rgbToGray 224 224 192))], pd := ⟨0, 3, 0, false, 0, 0⟩ } := by rfl

/-- B4, B20: outside the panel, at x = 256 and at y = 32 = H. -/
theorem test_binary_outside : stoppedBy (exec (.bin0 256 0 255 255 255) panel1632) .outOfBounds = true ∧
    stoppedBy (exec (.bin1 0 32 255 255 255) panel1632) .outOfBounds = true := by decide

/-- The colour expansion table of section 2.2, two rows of it. -/
theorem test_colour_expansion : expand332 0x49 = ⟨64, 64, 64⟩ ∧ expand2222 0x49 = ⟨64, 0, 128⟩ ∧ expand332 0xE7 = ⟨224, 32, 192⟩ ∧
    expand2222 0xE7 = ⟨192, 128, 64⟩ := by decide

/-! ## SE -/

/-- R201's example, its shape: 16 accumulators, each its own draw. -/
theorem test_seInit : nextIs (exec (.seInit .dithered) { plane84 with fbW := 4 })
    (fun s => s.acc.length == 16 && s.draws == 16 && s.seReady && !s.en && s.mode == .dithered) = true := by decide

/-- R220's example. -/
theorem test_seEnable : nextIs (exec .seEnable { engine36 with en := false })
    (fun s => s.trace == [.power true, .attach] && s.pins.colPwr && !s.pins.rowEn && s.en) = true := by decide

/-- E8, R221: blanked first, powered off last; ROW_SEL keeps its value. -/
theorem test_seDisable : nextIs (exec .seDisable { engine36 with pins := ⟨true, 3, true, false, false, true⟩ })
    (fun s => s.trace == [.blank, .detach, .power false] && s.pins == ⟨false, 3, true, false, false, false⟩ && !s.en) = true := by decide

/-- S2, tick 1. -/
theorem test_seTick_binary : nextIs (exec .seTick engine36)
    (fun s => s.trace == [.blank, .shift false, .shift true, .shift true, .shift false, .shift false, .shift true, .latch, .select 0] &&
      s.phase == 1 && s.frameCnt == 0) = true := by decide

/-- R214's example with PHASE 0, then S2's tick 4: FRAME comes last and carries the count before it. -/
theorem test_seTick_dithered : nextIs (exec .seTick cell1)
    (fun s => s.trace == [.blank, .shift true, .latch, .select 0] && s.acc == [44] && s.phase == 1) = true := by decide
theorem test_seTick_frame : nextIs (exec .seTick { engine36 with phase := 3 })
    (fun s => s.trace == [.blank, .shift true, .shift true, .shift true, .latch, .select 3, .frame 0] && s.phase == 0 && s.frameCnt == 1) =
      true := by decide

/-- R40, R45: SHIFT leaves its bit in COL_DATA and COL_CLK 0, LATCH leaves COL_LATCH 0; a phase without rows pulses COL_LATCH alone. -/
theorem test_seTick_pins :
    (nextIs (exec .seTick { engine36 with pins := ⟨true, 3, false, true, true, true⟩ })
      fun s => s.pins == ⟨true, 0, true, false, false, true⟩) = true ∧
    (nextIs (exec .seTick { engine36 with fbH := 1, phase := 1, acc := [0, 0, 0], pins := ⟨true, 0, true, true, true, true⟩ })
      fun s => s.pins == ⟨true, 1, true, true, false, true⟩) = true := by decide

/-- S1 for H = 9 and H = 2. -/
theorem test_rows : rowsOf 0 9 = [0, 4, 8] ∧ rowsOf 1 9 = [1, 5] ∧ rowsOf 3 9 = [3, 7] ∧ rowsOf 1 2 = [1] ∧ rowsOf 2 2 = [] := by decide

/-- D1. -/
theorem test_dither_D1 : (scans 0 (List.replicate 8 128)).1 = [false, true, false, true, false, true, false, true] := by decide

/-! ## The step, the outside -/

/-- R254: a tick that falls due while a phase step is running is refused (U5); HOST never issues SE_TICK (R107). -/
theorem test_step_refusals : refusedAs (exec .seTick { engine36 with tick := some [] }) .phaseStepRunning = true ∧
    refusedAs (step { engine36 with inbox := [[0x23]] }) .tickFromHost = true := by decide

/-- P5: HOST's store comes between the tick's first read and its second. -/
theorem test_step_race : nextIs (step { engine36 with host := .storing [(1, 0)] Report.done, tick := some [1, 2] })
    (fun s => s.pp.take 2 == [(0, 0), (1, 0)] && s.tick == some [1, 2]) = true := by decide

/-- E9. -/
theorem test_discovery : discoveryDatagram [0x31, 0x30, 0x2E, 0x31] { plane84 with fbW := 16, fbH := 32, binPort := 1338 } =
    [0x70, 0x69, 0x78, 0x65, 0x6C, 0x76, 0x6C, 0x6F, 0x65, 0x64, 0x3A, 0x30, 0x2E, 0x30, 0x30, 0x20, 0x31, 0x30, 0x2E, 0x31, 0x3A, 0x31,
      0x33, 0x33, 0x38, 0x20, 0x31, 0x36, 0x2A, 0x33, 0x32] := by decide

/-- The host's interface: a row's word placed after reset is the operation that the next step runs; SE_TICK comes from TIMER. -/
theorem test_withFetchWord : decodeTableWord 8 0x10 = some (.pdInit 0 0) ∧ decodeTableWord 16 0x0101 = some (.bin1a 0 0 0 0 0 0) ∧
    decodeTableWord 8 0x23 = some .seTick ∧ stoppedBy (step (State.reset.withFetchWord 8 0x11)) .endOfData = false ∧
    refusedAs (step (State.reset.withFetchWord 8 0x23)) .timerNotAttached = true ∧
    nextIs (step (State.reset.withFetchWord 8 0x10)) (fun s => s.report.result == .bool false) = true := by decide

/-- Every row of spec/opcode_table.json: its width in bits and its match. -/
def tableRows : List (Nat × Nat) :=
  [(24, 0x205850), (16, 0x0000), (16, 0x0100), (16, 0x0001), (16, 0x0101), (16, 0x0002), (16, 0x0102), (16, 0x0003)] ++
    ([0x01, 0x02, 0x03, 0x04, 0x05, 0x10, 0x11, 0x12, 0x20, 0x21, 0x22, 0x23].map fun b => (8, b))

/-- Placed after reset, each row's word is the very operation that the next step runs. -/
theorem test_withFetchWord_runs : (tableRows.all fun r =>
    match nextAction (State.reset.withFetchWord r.1 r.2), decodeTableWord r.1 r.2 with
    | .run i _, some j => i == j
    | _, _ => false) = true := by decide

/-! ## Witnesses: states and operands that meet the hypotheses of the obligations, clause by clause -/

/-- A running engine with a framebuffer of 2 x 5, gamma 1: an initialised machine that meets the invariant. -/
def running : State :=
  { State.reset with
    fbReady := true, fbW := 2, fbH := 5, gt := gammaTable (.rational 1), pp := [(0, 7), (9, 255)], seReady := true, en := true, mode := .dithered
    acc := List.replicate 10 128, trace := [.power true, .attach], pins := { Pins.zero with colPwr := true } }

theorem running_inv : running.Inv where
  planeCanonical := by decide
  planeInRange := by
    intro a v h
    simp only [running, Memory.read?] at h
    split at h
    · subst_vars; decide
    · split at h
      · subst_vars; decide
      · cases h
  planeUntouched := by intro h; cases h
  dimensions := by intro _; decide
  gammaEnds := by
    intro _
    constructor <;> apply BitVec.eq_of_toNat_eq
    · exact (gammaTable_toNat (.rational 1) 0).trans (gammaEntry_ends (.rational 1)).1
    · exact (gammaTable_toNat (.rational 1) 255).trans (gammaEntry_ends (.rational 1)).2
  gammaMonotone := by
    intro _ i j h
    show ((gammaTable (.rational 1))[i.toNat]).toNat ≤ ((gammaTable (.rational 1))[j.toNat]).toNat
    rw [gammaTable_toNat, gammaTable_toNat]
    exact gammaEntry_mono (.rational 1) h j.isLt
  portsDistinct := by intro h; cases h
  engineAfterFramebuffer := by intro _; rfl
  enabledAfterInit := by intro _; rfl
  accumulators := by intro _; decide
  silentBeforeInit := by intro h; cases h
  pinsFollowTrace := by decide
  framesNumbered := by decide
  noBleed := by decide
  poweredWhileEnabled := by decide
  darkWhileDisabled := by intro h; cases h
  phaseStep := by intro _ h; cases h
  chainBetween := by intro _; decide
  chainDuring := by intro _ h; cases h
  pendingStores := by intro _ _ h; cases h
  parser := by intro _ _ h; cases h

theorem running_canTick : running.CanTick := ⟨rfl, rfl, rfl, rfl, by decide⟩

/-- The square root of 2, an exponent that no rational number is. -/
theorem denotes_sqrt_two : (Exponent.irrational 1 0).Denotes (√2) := by
  refine ⟨irrational_sqrt_two, ?_, ?_⟩
  · rw [Int.cast_one, Real.lt_sqrt] <;> norm_num
  · rw [Int.cast_one, Real.sqrt_lt'] <;> norm_num

theorem witness_FbInitEstablishesFramebuffer : plane84.fbReady = true ∧ State.reset.fbReady = false ∧
    (Exponent.rational 1).Denotes 1 ∧ (Exponent.rational 0).Denotes 0 ∧ (Exponent.irrational 1 0).Denotes (√2) ∧
    ¬(1 ≤ 0 ∧ 1 ≤ 8 ∧ (0 : ℝ) < 1) ∧ ¬(1 ≤ 8 ∧ 1 ≤ 0 ∧ (0 : ℝ) < 1) ∧ ¬(1 ≤ 8 ∧ 1 ≤ 8 ∧ (0 : ℝ) < 0) ∧ (0 : ℝ) < √2 := by
  refine ⟨rfl, rfl, ?_, ?_, denotes_sqrt_two, by norm_num, by norm_num, by norm_num, by positivity⟩ <;> simp [Exponent.Denotes]
theorem witness_GammaTableProperties : ((0 : ℝ) < 1 / 2 ∧ (Exponent.rational (1 / 2)).Denotes (1 / 2)) ∧
    ((0 : ℝ) < √2 ∧ (Exponent.irrational 1 0).Denotes (√2) ∧ 1 ≤ √2) ∧ (Exponent.rational 1).Denotes 1 ∧ (Exponent.rational 2).Denotes 2 ∧
    (0 : Fin 256) ≤ 255 := by
  refine ⟨⟨by norm_num, ?_⟩, ⟨by positivity, denotes_sqrt_two, ?_⟩, ?_, ?_, by decide⟩
  · simp [Exponent.Denotes]
  · simp [Real.one_le_sqrt]
  · simp [Exponent.Denotes]
  · simp [Exponent.Denotes]
theorem witness_FbOrientSetsFlipsOnly : State.reset.fbReady = false ∧ plane84.fbReady = true := by decide
theorem witness_FbClearZeroesEveryCell : State.reset.fbReady = false ∧ plane84.fbReady = true ∧ 31 < plane84.cells ∧ plane84.cells ≤ 32 := by
  decide
theorem witness_FbWriteClips : plane84.fbReady = true ∧ ((0 : Int) ≤ 7 ∧ (7 : Int) < plane84.fbW ∧ (0 : Int) ≤ 3 ∧ (3 : Int) < plane84.fbH) ∧
    ¬((0 : Int) ≤ 8 ∧ (8 : Int) < plane84.fbW ∧ (0 : Int) ≤ 0 ∧ (0 : Int) < plane84.fbH) ∧
    ¬((0 : Int) ≤ 0 ∧ (0 : Int) < plane84.fbW ∧ (0 : Int) ≤ -1 ∧ (-1 : Int) < plane84.fbH) := by decide
theorem witness_FbWriteStoresGammaAtFlippedCell : State.reset.fbReady = false ∧ plane84.fbReady = true ∧ (0 : Int) ≤ 7 ∧
    (7 : Int) < plane84.fbW ∧ (0 : Int) ≤ 3 ∧ (3 : Int) < plane84.fbH := by decide
theorem witness_PlaneStoreThenRead : 31 < plane84.fbW * plane84.fbH ∧ 30 ≠ 31 ∧ plane84.pp.read? 5 = none := by decide
theorem witness_FbTextIsItsPixelWrites : State.reset.fbReady = false ∧ plane84.fbReady = true := by decide
theorem witness_FbTextSkipsNonAscii : plane84.fbReady = true ∧ ∀ ch ∈ ([0xC3, 0x80] : List Byte), 127 < ch.toNat := by decide
theorem witness_TextLayoutByGlyph : 127 < (0x80 : Byte).toNat ∧ (0x7F : Byte).toNat < 128 ∧ (∀ k, testFont 0x20 k = 0) ∧
    testFont 0x3A 1 ≠ 0 ∧ testFont 0x3A 3 ≠ 0 ∧ (∀ k, k < 1 → testFont 0x3A k = 0) ∧ (∀ k, 3 < k → testFont 0x3A k = 0) := by decide
theorem witness_PdInitNeedsDistinctPorts : panel1632.pdReady = true ∧ State.reset.pdReady = false ∧ (0 : Port) = 0 ∧ (1337 : Port) ≠ 1338 := by
  decide
theorem witness_DecimalFieldValue : (∀ d ∈ ([0x30, 0x39] : List Byte), 0x30 ≤ d.toNat ∧ d.toNat ≤ 0x39) ∧
    ∀ b, ([0x2F, 0x31] : List Byte).head? = some b → ¬(0x30 ≤ b.toNat ∧ b.toNat ≤ 0x39) := by
  refine ⟨by decide, ?_⟩
  rintro b ⟨⟩
  decide
theorem witness_TextLineFields : decodeText ([0x50, 0x58, 0x20, 0x31, 0x20, 0x32, 0x20, 0x46, 0x46, 0x46, 0x46, 0x46, 0x46] ++ []) =
      .ok (.txtPx ⟨[0x31], some 0x20, [0x32], some 0x20, [0x46, 0x46, 0x46, 0x46, 0x46, 0x46], none⟩, []) ∧
    decodeText [0x50, 0x58, 0x20, 0x2D, 0x31] = .ok (.txtPx ⟨[], some 0x2D, [0x31], none, [], none⟩, []) := by decide
theorem witness_HexColourField : hexValue 0x46 = some 15 ∧ hexValue 0x61 = some 10 ∧ hexValue 0x5A = none ∧ hexValue 0x3A = none := by decide

/-- The lines of the text statements: T1 with and without its line feed, and one for each test that fails (T12, T14, T13, T20, T6, T8, T15). -/
theorem witness_TextRecordWritesItsPixel : panel1632.canParse = true ∧ lineT1.xDigits ≠ [] ∧ lineT1.sep1 = some 0x20 ∧
    lineT1.yDigits ≠ [] ∧ lineT1.sep2 = some 0x20 ∧ decimalValue lineT1.xDigits < panel1632.fbW ∧
    decimalValue lineT1.yDigits < panel1632.fbH ∧ textColour lineT1.colour panel1632.draws = some (⟨255, 0, 0⟩, 0) ∧
    lineT1.term = some 0x0A ∧ ({ lineT1 with term := none } : TextLine).term ≠ some 0x0A := by decide
theorem witness_TextRecordStopsBeforeWriting : panel1632.canParse = true ∧ lineT1.xDigits ≠ [] ∧ lineT1.yDigits ≠ [] ∧
    ({ lineT1 with xDigits := [] } : TextLine).xDigits = [] ∧ ({ lineT1 with sep1 := some 0x09 } : TextLine).sep1 ≠ some 0x20 ∧
    ({ lineT1 with yDigits := [] } : TextLine).yDigits = [] ∧ ({ lineT1 with sep2 := none } : TextLine).sep2 ≠ some 0x20 ∧
    panel1632.fbW ≤ decimalValue [0x31, 0x36] ∧ panel1632.fbH ≤ decimalValue [0x33, 0x32] ∧
    decimalValue [0x31, 0x35] < panel1632.fbW ∧ decimalValue [0x33, 0x31] < panel1632.fbH ∧ ([0x46, 0x46, 0x46, 0x46, 0x0A] : List Byte).length < 6 := by
  decide
theorem witness_BinaryRecordWritesItsPixel : panel1632.canParse = true ∧ recordLayout (.bin0 15 31 1 2 3) = some .bin0 ∧
    (recordCoords (.bin0 15 31 1 2 3)).1 < panel1632.fbW ∧ (recordCoords (.bin0 15 31 1 2 3)).2 < panel1632.fbH ∧
    recordLayout (.bin3 0xFF 15 31) = some .bin3 ∧ (recordCoords (.bin3 0xFF 15 31)).1 < panel1632.fbW ∧
    (recordCoords (.bin3 0xFF 15 31)).2 < panel1632.fbH := by decide
theorem witness_BinaryRecordOutsideStops : panel1632.canParse = true ∧ recordLayout (.bin2 16 0 0) = some .bin2 ∧
    panel1632.fbW ≤ (recordCoords (.bin2 16 0 0)).1 ∧ recordLayout (.bin1a 0 32 0 0 0 0) = some .bin1a ∧
    panel1632.fbH ≤ (recordCoords (.bin1a 0 32 0 0 0 0)).2 := by decide
theorem witness_UnknownFormatDrawsNothing : panel1632.canParse = true ∧ 3 < (4 : Byte).toNat ∧ 3 < (255 : Byte).toNat := by decide
theorem witness_ShortHeaderDrawsNothing : panel1632.canParse = true ∧ ([7] : List Byte).length < 2 ∧ ([3, 1] : List Byte).length = 2 ∧
    ([3, 1] : List Byte).head? = some 3 := by decide

/-- T1 being parsed, its cursor at its one record; and T9 with its cursor at the bad line. -/
def parsingText : State := { panel1632 with host := .parsing .text (encode (.txtPx lineT1)), pd := ⟨16, 0, 0, false, 0, 0⟩ }
def parsingBadLine : State := { panel1632 with host := .parsing .text [0x48, 0x45, 0x4C, 0x4C, 0x4F, 0x0A], pd := ⟨6, 0, 0, false, 0, 0⟩ }

/-- B11 being parsed, its cursor at its first record; and a datagram of one layout with a tail one byte short. -/
def parsingBinary : State :=
  { panel1632 with host := .parsing .binary [0x03, 0x00, 0xFF, 0x01, 0x20, 0x00, 0x03, 0x40, 0x00], pd := ⟨9, 3, 3, false, 3, 0xFF⟩ }
def parsingTail : State := { panel1632 with host := .parsing .binary [0x02, 0x00, 0x01, 0x20, 0x00], pd := ⟨5, 2, 2, false, 4, 0⟩ }

theorem hostGoes_unscheduled {s : State} (h : s.sched = []) : HostGoes s .whole s := .inl ⟨h, rfl, rfl⟩
theorem hostGoes_scheduled (s : State) (g : Grain) (ts : List Turn) : HostGoes (s.withSched (⟨.host, g⟩ :: ts)) g (s.withSched ts) :=
  .inr ⟨ts, rfl, rfl⟩
theorem timerGoes_scheduled (s : State) (g : Grain) (ts : List Turn) : TimerGoes (s.withSched (⟨.timer, g⟩ :: ts)) g (s.withSched ts) :=
  ⟨ts, rfl, rfl⟩

theorem witness_BinaryRecordNeedsItsBytes : (HostGoes parsingTail .whole parsingTail ∧ parsingTail.host = .parsing .binary [0x02, 0x00, 0x01, 0x20, 0x00] ∧
      parsingTail.pd.len - parsingTail.pd.pos < parsingTail.pd.recSize) ∧
    HostGoes (parsingBinary.withSched [⟨.host, .split⟩]) .split parsingBinary ∧
    (parsingBinary.withSched [⟨.host, .split⟩]).host = .parsing .binary [0x03, 0x00, 0xFF, 0x01, 0x20, 0x00, 0x03, 0x40, 0x00] ∧
    layoutOf parsingBinary.pd.fmt parsingBinary.pd.alpha = some .bin3 ∧ parsingBinary.pd.recSize = Layout.bin3.recordSize ∧
    parsingBinary.pd.len = ([0x03, 0x00, 0xFF, 0x01, 0x20, 0x00, 0x03, 0x40, 0x00] : List Byte).length ∧
    parsingBinary.pd.recSize ≤ parsingBinary.pd.len - parsingBinary.pd.pos :=
  ⟨⟨hostGoes_unscheduled rfl, by decide, by decide⟩, hostGoes_scheduled _ _ _, by decide, by decide, by decide, by decide, by decide⟩
theorem witness_TextPrefixTest : (HostGoes (parsingBadLine.withSched [⟨.host, .whole⟩]) .whole parsingBadLine ∧ parsingBadLine.host = .parsing .text [0x48, 0x45, 0x4C, 0x4C, 0x4F, 0x0A] ∧
      parsingBadLine.pd.len = ([0x48, 0x45, 0x4C, 0x4C, 0x4F, 0x0A] : List Byte).length ∧ parsingBadLine.pd.pos < parsingBadLine.pd.len ∧
      (([0x48, 0x45, 0x4C, 0x4C, 0x4F, 0x0A] : List Byte).drop parsingBadLine.pd.pos).take 3 ≠ [0x50, 0x58, 0x20]) ∧
    HostGoes parsingText .whole parsingText ∧ parsingText.host = .parsing .text (encode (.txtPx lineT1)) ∧
    parsingText.pd.len = (encode (.txtPx lineT1)).length ∧ parsingText.pd.pos < parsingText.pd.len ∧
    ((encode (.txtPx lineT1)).drop parsingText.pd.pos).take 3 = [0x50, 0x58, 0x20] :=
  ⟨⟨hostGoes_scheduled _ _ _, by decide, by decide, by decide, by decide⟩, hostGoes_unscheduled rfl, by decide, by decide, by decide, by decide⟩
theorem witness_EveryDatagramEnds : panel1632.canParse = true ∧ 512 ≤ panel1632.cells ∧
    (Instr.pdRxtext [] = .pdRxtext [] ∨ Instr.pdRxtext [] = .pdRxbin []) := by decide
theorem witness_DatagramForgetsParserState : panel1632.canParse = true ∧ panel1632.pd ≠ ⟨7, 3, 3, true, 3, 0xFF⟩ ∧
    (Instr.pdRxbin [0] = .pdRxtext [0] ∨ Instr.pdRxbin [0] = .pdRxbin [0]) := by decide
theorem witness_TextDatagramRunsItsRecords : panel1632.canParse = true ∧ (Instr.txtPx lineT1).source = .text ∧
    (Instr.txtPx lineT1).wellFormed = true ∧ (recordCoords (.txtPx lineT1)).1 < panel1632.fbW ∧
    (recordCoords (.txtPx lineT1)).2 < panel1632.fbH ∧ ([] : List Byte).take 3 ≠ textPrefix ∧
    ([0x50, 0x58] : List Byte).take 3 ≠ textPrefix := by decide
theorem witness_BinaryDatagramRunsItsRecords : panel1632.canParse = true ∧ layoutOf 3 (alphaBit 1) = some .bin3 ∧
    recordLayout (.bin3 0x1C 0 0) = some .bin3 ∧ (recordCoords (.bin3 0x1C 0 0)).1 < panel1632.fbW ∧
    (recordCoords (.bin3 0x1C 0 0)).2 < panel1632.fbH ∧ sharedColour (.bin3 0x1C 0 0) = some 0x1C ∧
    ([1, 2] : List Byte).length < Layout.bin3.recordSize ∧ layoutOf 0 (alphaBit 0xFE) = some .bin0 ∧
    recordLayout (.bin0 15 31 1 2 3) = some .bin0 ∧ sharedColour (.bin0 15 31 1 2 3) = none := by decide
/-- After T1: its line with x = 16 = W, off the panel as in T26; and a line that ends inside its colour, as in T15. -/
theorem witness_TextDatagramEndsAtBadRecord : panel1632.canParse = true ∧ (Instr.txtPx lineT1).source = .text ∧
    (Instr.txtPx lineT1).wellFormed = true ∧ (recordCoords (.txtPx lineT1)).1 < panel1632.fbW ∧
    (recordCoords (.txtPx lineT1)).2 < panel1632.fbH ∧
    decodeText (encode (.txtPx { lineT1 with xDigits := [0x31, 0x36] }) ++ [0x50]) =
      .ok (.txtPx { lineT1 with xDigits := [0x31, 0x36] }, [0x50]) ∧
    (Instr.txtPx { lineT1 with xDigits := [0x31, 0x36] }).wellFormed = true ∧
    ¬(recordCoords (.txtPx { lineT1 with xDigits := [0x31, 0x36] })).1 < panel1632.fbW ∧
    decodeText [0x50, 0x58, 0x20, 0x31, 0x20, 0x32, 0x20, 0x46] = .ok (.txtPx ⟨[0x31], some 0x20, [0x32], some 0x20, [0x46], none⟩, []) ∧
    ¬(Instr.txtPx ⟨[0x31], some 0x20, [0x32], some 0x20, [0x46], none⟩).wellFormed = true := by decide

/-- B17's records: (1, 2) on the panel, then x = 16 = W. -/
theorem witness_BinaryDatagramEndsOutsidePanel : panel1632.canParse = true ∧ layoutOf 2 (alphaBit 0) = some .bin2 ∧
    recordLayout (.bin2 1 2 0xFF) = some .bin2 ∧ recordLayout (.bin2 16 0 0xFF) = some .bin2 ∧ sharedColour (.bin2 16 0 0xFF) = none ∧
    (recordCoords (.bin2 1 2 0xFF)).1 < panel1632.fbW ∧ (recordCoords (.bin2 1 2 0xFF)).2 < panel1632.fbH ∧
    ¬(recordCoords (.bin2 16 0 0xFF)).1 < panel1632.fbW := by decide
theorem witness_SeInitSeedsAndBlanks : running.seReady = true ∧ State.reset.seReady = false ∧ State.reset.fbReady = false ∧
    plane84.seReady = false ∧ plane84.fbReady = true ∧ 31 < plane84.fbW * plane84.fbH := by decide
theorem witness_SeEnablePowersAndAttaches : State.reset.seReady = false ∧ running.seReady = true ∧ running.en = true ∧
    ({ running with en := false } : State).en = false ∧ ({ running with en := false } : State).tick = none := by decide
theorem witness_SeDisableBlanksFirst : State.reset.seReady = false ∧ running.seReady = true ∧ running.tick = none ∧
    ({ engine36 with tick := some [2, 12, 13, 14] } : State).seReady = true ∧
    ({ engine36 with tick := some [2, 12, 13, 14] } : State).tick = some [2, 12, 13, 14] := by decide
theorem witness_SeTickRunsOnePhaseStep : ¬(State.reset.seReady = true ∧ State.reset.en = true) ∧ running.CanTick ∧
    running.mode = .dithered ∧ 0 ∈ running.currentCells ∧ 2 ∉ running.currentCells ∧ engine36.CanTick ∧ engine36.mode = .binary ∧
    running.currentCells.getLast? = some 9 ∧ ({ engine36 with fbH := 1, phase := 1, acc := [0, 0, 0] } : State).CanTick ∧
    ({ engine36 with fbH := 1, phase := 1, acc := [0, 0, 0] } : State).currentCells = [] :=
  ⟨by decide, running_canTick, by decide, by decide, by decide, ⟨rfl, rfl, rfl, rfl, by decide⟩, by decide, by decide,
    ⟨rfl, rfl, rfl, rfl, by decide⟩, by decide⟩
theorem witness_RowsOfPhase : 0 < 4 ∧ 3 < 4 ∧ 3 < 9 ∧ ¬ 2 < 2 := by decide
theorem witness_DitherDutyCycle : 1 ≤ (200 : Byte).toNat ∧ (scans 0 (List.replicate 5 200)).1 = [false, true, true, true, false] ∧
    (scans 0 (List.replicate 2 128)).1[0]? = some false ∧ (scans 0 (List.replicate 2 128)).1[1]? = some true := by decide
theorem witness_FourTicksOneFrame : running.CanTick := running_canTick
theorem witness_PanelShowsThePhase : running.Inv ∧ running.CanTick ∧ (nextIs (exec .seTick running) fun _ => true) = true ∧
    4 < running.fbH ∧ 1 < running.fbW ∧ running.beginPhaseStep.Inv ∧ running.beginPhaseStep.tick ≠ none :=
  ⟨running_inv, running_canTick, by decide, by decide, by decide, running_inv.beginPhaseStep rfl rfl, by decide⟩
theorem witness_UninitialisedOperationsRefused : State.reset.fbReady = false ∧ State.reset.pdReady = false ∧ plane84.pdReady = false ∧
    State.reset.seReady = false ∧ (Instr.txtPx lineT1).source ≠ .command := by decide

/-- One operation of each owner comes to a next state in an initialised machine. -/
theorem witness_InitialisedOnce : (nextIs (exec (.fbOrient true true) running) fun _ => true) = true ∧ running.fbReady = true ∧
    running.seReady = true ∧ (nextIs (exec .seTick running) fun _ => true) = true ∧ panel1632.pdReady = true ∧
    (nextIs (exec (.pdRxtext []) panel1632) fun _ => true) = true := by decide
theorem witness_PlaneHasOneOwner : (nextIs (exec .seTick running) fun s => s.pp == running.pp) = true ∧
    (nextIs (exec (.fbInit 1 1 (.rational 1)) State.reset) fun _ => true) = true := by decide
theorem witness_EngineHasOneOwner : (nextIs (exec .fbClear running) fun s => s.acc == running.acc) = true ∧
    (nextIs (exec (.pdInit 1 2) running) fun _ => true) = true := by decide
theorem witness_TimerLeavesHostAlone : (nextIs (step { running with sched := [⟨.timer, .whole⟩] }) fun _ => true) = true ∧
    (nextIs (step { running with sched := [⟨.timer, .split⟩] }) fun s => s.tick == some [0, 1, 8, 9]) = true := by decide

/-- P5: the first store of FB_CLEAR and the first read of the tick, in either order. -/
def racing : State := { engine36 with host := .storing [(1, 0), (2, 0)] Report.done, tick := some [1, 2] }

theorem witness_StoreRacesScan : racing.host = .storing ((1, 0) :: [(2, 0)]) Report.done ∧ racing.tick = some (1 :: [2]) ∧
    1 < racing.cells ∧ racing.mode = .binary ∧ ({ racing with mode := .dithered } : State).mode = .dithered ∧ racing.acc[1]? = some 0 ∧
    ({ racing with sched := [⟨.host, .whole⟩, ⟨.timer, .split⟩] } : State).sched = ⟨.host, .whole⟩ :: ⟨.timer, .split⟩ :: [] ∧
    ({ racing with sched := [⟨.timer, .split⟩, ⟨.host, .split⟩] } : State).sched = ⟨.timer, .split⟩ :: ⟨.host, .split⟩ :: [] := by decide
theorem witness_SplitOperationsEqualWhole :
    beginSplit .fbClear plane84 = some (.next (plane84.withHost (.storing plane84.clearStores Report.done))) ∧
    beginSplit (.fbText [] 0 0 9) plane84 = some (.next (plane84.withHost (.storing [] ⟨.int 0, none⟩))) ∧
    beginSplit (.pdRxtext [0x50]) panel1632 =
      some (.next ((panel1632.withPd ⟨1, 0, 0, false, 0, 0⟩).withHost (.parsing .text [0x50]))) ∧
    beginSplit (.pdRxbin [0x02, 0x00]) panel1632 =
      some (.next ((panel1632.withPd ⟨2, 2, 2, false, 4, 0⟩).withHost (.parsing .binary [0x02, 0x00]))) := ⟨by rfl, by rfl, by rfl, by rfl⟩
theorem witness_SplitTickEqualsWhole : (nextIs (beginTick running) fun s => s.tick == some [0, 1, 8, 9]) = true ∧ running.CanTick :=
  ⟨by decide, running_canTick⟩

/-- A HOST with one command word waiting. -/
def waiting (w : List Byte) : State := { running with inbox := [w] }

theorem witness_StepRunsWhatStandsNext :
    (HostGoes ((waiting [0x03]).withSched [⟨.host, .whole⟩]) .whole (waiting [0x03]) ∧ (waiting [0x03]).host = .idle ∧
      (waiting [0x03]).inbox = [0x03] :: [] ∧ decodeCommand [0x03] = .ok .fbClear ∧ Instr.fbClear ≠ .seTick) ∧
    (HostGoes ((waiting [0x21]).withSched [⟨.host, .split⟩]) .split (waiting [0x21]) ∧ decodeCommand [0x21] = .ok .seEnable ∧
      Instr.seEnable ≠ .seTick ∧ beginSplit .seEnable running = none) ∧
    (HostGoes parsingText .whole parsingText ∧ parsingText.host = .parsing .text (encode (.txtPx lineT1)) ∧
      parsingText.pd.pos < parsingText.pd.len ∧
      decodeText (((encode (.txtPx lineT1)).take parsingText.pd.len).drop parsingText.pd.pos) = .ok (.txtPx lineT1, [])) ∧
    (HostGoes (parsingBinary.withSched [⟨.host, .split⟩]) .split parsingBinary ∧
      parsingBinary.host = .parsing .binary [0x03, 0x00, 0xFF, 0x01, 0x20, 0x00, 0x03, 0x40, 0x00] ∧
      parsingBinary.pd.recSize ≤ parsingBinary.pd.len - parsingBinary.pd.pos ∧
      layoutOf parsingBinary.pd.fmt parsingBinary.pd.alpha = some .bin3 ∧
      decodeRecord parsingBinary.pd.col .bin3 (([0x03, 0x00, 0xFF, 0x01, 0x20, 0x00, 0x03, 0x40, 0x00] : List Byte).drop parsingBinary.pd.pos) =
        .ok (.bin3 0xFF 1 2, [0x03, 0x40, 0x00])) ∧
    TimerGoes (running.withSched [⟨.timer, .whole⟩]) .whole running ∧ running.tick = none :=
  ⟨⟨hostGoes_scheduled _ _ _, by decide, by decide, by decide, by decide⟩, ⟨hostGoes_scheduled _ _ _, by decide, by decide, by decide⟩,
    ⟨hostGoes_unscheduled rfl, by decide, by decide, by decide⟩, ⟨hostGoes_scheduled _ _ _, by decide, by decide, by decide, by decide⟩,
    timerGoes_scheduled _ _ _, by decide⟩
theorem witness_TurnsTakenInPart :
    (HostGoes ((waiting [0x03]).withSched [⟨.host, .split⟩]) .split (waiting [0x03]) ∧ (waiting [0x03]).host = .idle ∧
      (waiting [0x03]).inbox = [0x03] :: [] ∧ decodeCommand [0x03] = .ok .fbClear ∧
      (nextIs ((beginSplit .fbClear running).getD (.refused .fbNotReady)) fun s => s.pp == running.pp) = true) ∧
    (HostGoes (racing.withSched [⟨.host, .split⟩]) .split racing ∧ racing.host = .storing ((1, 0) :: [(2, 0)]) Report.done ∧
      1 < racing.cells ∧ (racing.withHost (.storing [] Report.done)).host = .storing [] Report.done) ∧
    (TimerGoes (running.withSched [⟨.timer, .split⟩]) .split running ∧ running.tick = none ∧ running.CanTick ∧
      ¬(State.reset.seReady = true ∧ State.reset.en = true)) ∧
    (TimerGoes (racing.withSched [⟨.timer, .whole⟩]) .whole racing ∧ racing.tick = some (1 :: [2]) ∧ 1 < racing.acc.length ∧
      (racing.withTick (some [])).tick = some []) :=
  ⟨⟨hostGoes_scheduled _ _ _, by decide, by decide, by decide, by decide⟩, ⟨hostGoes_scheduled _ _ _, by decide, by decide, by decide⟩,
    ⟨timerGoes_scheduled _ _ _, by decide, running_canTick, by decide⟩, timerGoes_scheduled _ _ _, by decide, by decide, by decide⟩
theorem witness_HostPollsAndRefuses : HostGoes State.reset .whole State.reset ∧ State.reset.host = .idle ∧ State.reset.inbox = [] ∧
    HostGoes ((waiting [0x06]).withSched [⟨.host, .split⟩]) .split (waiting [0x06]) ∧ (waiting [0x06]).host = .idle ∧
    (waiting [0x06]).inbox = (0x06 :: []) :: [] ∧
    (0x06 : Byte) ∉ [0x01, 0x02, 0x03, 0x04, 0x05, 0x10, 0x11, 0x12, 0x20, 0x21, 0x22, 0x23] ∧ (waiting [0x23]).inbox = [0x23] :: [] :=
  ⟨hostGoes_unscheduled rfl, rfl, rfl, hostGoes_scheduled _ _ _, by decide, by decide, by decide, by decide⟩
theorem witness_StepKeepsInvariant : (running.withSched [⟨.timer, .whole⟩]).Inv ∧
    (nextIs (step (running.withSched [⟨.timer, .whole⟩])) fun s => s.phase == 1) = true :=
  ⟨running_inv.withSched _, by decide⟩
theorem witness_InvariantExcludesFaults : running.Inv := running_inv
theorem witness_RecordsRoundTrip : (Instr.txtPx lineT1).source ≠ .command ∧ (Instr.txtPx lineT1).wellFormed = true ∧
    (Instr.bin0 0xFFFF 0xFFFF 0 0 0).source ≠ .command ∧ (Instr.bin0 0xFFFF 0xFFFF 0 0 0).wellFormed = true := by decide
theorem witness_CommandsRoundTrip : (Instr.fbInit 300 4096 (.irrational 2 7)).source = .command ∧ (Instr.seTick).source = .command := by decide
theorem witness_DecodingDropsNothing : decodeText (encode (.txtPx lineT1) ++ [0x50]) = .ok (.txtPx lineT1, [0x50]) ∧
    decodeRecord 0 .bin2 [0x0A, 0x40, 0x01, 0xE0, 0x77] = .ok (.bin2 10 20 0xE0, [0x77]) := by decide

end Sys2Proof.Tests
end

section
/-! SUPPORT. The proofs about the state (10_state.md): a datagram from its first byte to its end, what each operation and each turn can
change, and that every step keeps the invariant. -/

namespace Sys2Proof.Machine

/-! ## A datagram from its first byte to its end -/

/-- R132: the state in which a text datagram has been taken into the buffer. -/
def State.loadText (s : State) (bytes : List Byte) : State :=
  (s.withPd { s.pd with len := bytes.length, pos := 0 }).withHost (.parsing .text bytes)

theorem beginText_of_canParse {s : State} (h : s.canParse = true) (bytes : List Byte) :
    beginText bytes s = .next (s.loadText bytes) := if_pos h

theorem beginBinary_of_canParse {s : State} (h : s.canParse = true) (bytes : List Byte) :
    beginBinary bytes s = .next (s.loadBinary bytes) := if_pos h

theorem beginText_eq_next {s t : State} {bytes : List Byte} (e : beginText bytes s = .next t) :
    s.canParse = true ∧ t = s.loadText bytes := by
  unfold beginText at e
  split at e
  · exact ⟨‹_›, by cases e; rfl⟩
  · cases e

theorem beginBinary_eq_next {s t : State} {bytes : List Byte} (e : beginBinary bytes s = .next t) :
    s.canParse = true ∧ t = s.loadBinary bytes := by
  unfold beginBinary at e
  split at e
  · exact ⟨‹_›, by cases e; rfl⟩
  · cases e

theorem exec_pdRxtext {s : State} (h : s.canParse = true) (bytes : List Byte) :
    exec (.pdRxtext bytes) s = parseAll (bytes.length + 1) (s.loadText bytes) := by
  show andThen (beginText bytes s) _ = _
  rw [beginText_of_canParse h, andThen_next]

theorem exec_pdRxbin {s : State} (h : s.canParse = true) (bytes : List Byte) :
    exec (.pdRxbin bytes) s = parseAll (bytes.length + 1) (s.loadBinary bytes) := by
  show andThen (beginBinary bytes s) _ = _
  rw [beginBinary_of_canParse h, andThen_next]

theorem loadText_parserChanges (s : State) (bytes : List Byte) : ParserChanges s (s.loadText bytes) := ⟨⟨[], by simp, rfl⟩, rfl⟩

theorem loadText_ready (s : State) (bytes : List Byte) : ParserReady .text bytes (s.loadText bytes).pd :=
  ⟨rfl, Nat.zero_le _, by simp⟩

/-- A loop that begins with HOST idle has nothing to do. -/
theorem parseAll_idle {s : State} (h : s.host = .idle) (n : Nat) : parseAll n s = .next s := by
  cases n with
  | zero => rfl
  | succ n => rw [parseAll, h]

/-- Passes as many as the datagram has bytes, and one more, end it. -/
theorem parseAll_length_ends {channel : Channel} {bytes : List Byte} {s : State} (hc : s.canParse = true)
    (hh : s.host = .parsing channel bytes) (hr : ParserReady channel bytes s.pd) :
    ∃ t, parseAll (bytes.length + 1) s = .next t ∧ ParserChanges s t ∧ t.host = .idle := by
  obtain ⟨t, -, ht, hch, hi, -⟩ := parseAll_ends hc hh hr (n := bytes.length + 1) (by rw [hr.1]; omega)
  exact ⟨t, ht, hch, hi⟩

/-- R132, R143: a whole datagram, in a machine that can parse, comes to its end. -/
theorem exec_datagram_ends {i : Instr} {bytes : List Byte} {s : State} (hc : s.canParse = true)
    (hi : i = .pdRxtext bytes ∨ i = .pdRxbin bytes) :
    ∃ t, exec i s = .next t ∧ ParserChanges s t ∧ t.host = .idle := by
  rcases hi with rfl | rfl
  · have hl := loadText_parserChanges s bytes
    obtain ⟨t, ht, hch, hidle⟩ := parseAll_length_ends (hl.canParse.trans hc) rfl (loadText_ready s bytes)
    exact ⟨t, (exec_pdRxtext hc bytes).trans ht, hl.trans hch, hidle⟩
  · rw [exec_pdRxbin hc]
    obtain ⟨hl, ⟨hidle, -⟩ | ⟨hh, hr⟩⟩ := loadBinary_cases s bytes
    · exact ⟨_, parseAll_idle hidle _, hl, hidle⟩
    · obtain ⟨t, ht, hch, hidle⟩ := parseAll_length_ends (hl.canParse.trans hc) hh hr
      exact ⟨t, ht, hl.trans hch, hidle⟩

/-! ## An operation begun and taken in part -/

/-- R70: what HOST has done when it has begun an operation and made no plane access: it has the operation's stores still to make, or a
datagram in the buffer. -/
theorem beginSplit_eq_next {i : Instr} {s t : State} (e : beginSplit i s = some (.next t)) :
    (s.fbReady = true ∧ ∃ todo r, (∀ c ∈ todo, c.1 < s.cells) ∧ t = s.withHost (.storing todo r)) ∨
    (s.canParse = true ∧ ∃ bytes, t = s.loadText bytes ∨ t = s.loadBinary bytes) := by
  cases i <;> simp only [beginSplit, Option.some.injEq, reduceCtorEq] at e
  case fbClear =>
    split at e
    · cases e; exact .inl ⟨‹_›, _, _, State.clearStores_lt rfl, rfl⟩
    · cases e
  case fbText =>
    split at e
    · cases e; exact .inl ⟨‹_›, _, _, s.pixelStores_lt _ _, rfl⟩
    · cases e
  case pdRxtext bytes =>
    obtain ⟨hc, rfl⟩ := beginText_eq_next e
    exact .inr ⟨hc, bytes, .inl rfl⟩
  case pdRxbin bytes =>
    obtain ⟨hc, rfl⟩ := beginBinary_eq_next e
    exact .inr ⟨hc, bytes, .inr rfl⟩

/-- The operations that a turn taken in part only begins. -/
theorem beginSplit_ne_none (i : Instr) (s : State) : beginSplit i s ≠ none ↔
    i = .fbClear ∨ (∃ text x y k, i = .fbText text x y k) ∨ (∃ bytes, i = .pdRxtext bytes) ∨ ∃ bytes, i = .pdRxbin bytes := by
  cases i <;> simp [beginSplit]

/-! ## Every operation and every turn keeps the invariant -/

/-- A state that differs from one with the invariant in what PD and HOST's stores can change, with HOST idle, has it. -/
theorem State.Inv.idleAfter {s t : State} (h : s.Inv) (hc : ParserChanges s t) (hf : s.fbReady = true) (hi : t.host = .idle) : t.Inv :=
  h.parserChanges hc (.inl hf) (by simp [hi]) (by simp [hi])

theorem canParse_fbReady {s : State} (h : s.canParse = true) : s.fbReady = true := (Bool.and_eq_true_iff.1 h).2

theorem finishPhaseStep_seReady {s t : State} (e : finishPhaseStep s = .next t) : t.seReady = s.seReady := by
  rw [(timerChanges_finishPhaseStep e).1]

theorem State.Inv.seTick {s t : State} (h : s.Inv) (e : exec .seTick s = .next t) : t.Inv := by
  obtain ⟨u, hu, hk⟩ := andThen_eq_next.1 (show andThen (beginTick s) Machine.finishPhaseStep = .next t from e)
  obtain ⟨-, he, -, ht, rfl⟩ := beginTick_eq_next hu
  exact ((h.beginPhaseStep he ht).finishPhaseStep hk).1

/-- Every host command keeps the invariant. -/
theorem State.Inv.command {i : Instr} {s t : State} (h : s.Inv) (hi : i.source = .command) (e : exec i s = .next t) : t.Inv := by
  have stores (hi : i = .fbClear ∨ (∃ x y k, i = .fbWrite x y k) ∨ ∃ a x y k, i = .fbText a x y k) : t.Inv := by
    obtain ⟨hf, cs, r, hlt, rfl⟩ := exec_stores e hi
    exact h.stores hf hlt r
  have datagram (bytes : List Byte) (hi : i = .pdRxtext bytes ∨ i = .pdRxbin bytes) : t.Inv := by
    obtain ⟨hc, -⟩ := exec_parser e (.inr ⟨bytes, hi⟩)
    obtain ⟨u, hu, hch, hidle⟩ := exec_datagram_ends hc hi
    obtain rfl : u = t := by simpa [hu] using e
    exact h.idleAfter hch (canParse_fbReady hc) hidle
  cases i
  case fbInit =>
    obtain ⟨hf, hw, hh, -, rfl⟩ := execFbInit_eq_next e
    exact h.withFramebuffer hf hw hh
  case fbOrient =>
    obtain ⟨-, rfl⟩ := execFbOrient_eq_next e
    exact (h.withFlips _ _).endHostOp _
  case fbClear => exact stores (.inl rfl)
  case fbWrite => exact stores (.inr (.inl ⟨_, _, _, rfl⟩))
  case fbText => exact stores (.inr (.inr ⟨_, _, _, _, rfl⟩))
  case pdInit =>
    obtain ⟨hp, ⟨hne, rfl⟩ | ⟨-, rfl⟩⟩ := execPdInit_eq_next e
    · exact (h.withPorts hp hne).endHostOp _
    · exact h.endHostOp _
  case pdRxtext bytes => exact datagram bytes (.inl rfl)
  case pdRxbin bytes => exact datagram bytes (.inr rfl)
  case seInit =>
    obtain ⟨hn, hf, rfl⟩ := execSeInit_eq_next e
    exact ((h.withEngine _ hn hf (by simp [seeds])).withDraws _).endHostOp _
  case seEnable =>
    obtain ⟨hr, ⟨-, rfl⟩ | ⟨-, u, hu, rfl⟩⟩ := execSeEnable_eq_next e
    · exact h.endHostOp _
    · obtain ⟨hui, hut⟩ := h.finishPhaseStep hu
      exact (hui.enable ((finishPhaseStep_seReady hu).trans hr) hut).endHostOp _
  case seDisable =>
    obtain ⟨hr, u, hu, rfl⟩ := execSeDisable_eq_next e
    obtain ⟨hui, hut⟩ := h.finishPhaseStep hu
    exact (hui.disable ((finishPhaseStep_seReady hu).trans hr) hut).endHostOp _
  case seTick => exact h.seTick e
  all_goals exact absurd hi (by simp [Instr.source])

/-- An operation begun in part keeps it. -/
theorem State.Inv.beginSplit {i : Instr} {s t : State} (h : s.Inv) (e : beginSplit i s = some (.next t)) : t.Inv := by
  obtain ⟨hf, todo, r, hlt, rfl⟩ | ⟨hc, bytes, rfl | rfl⟩ := beginSplit_eq_next e
  · refine h.parserChanges ⟨⟨[], by simp, rfl⟩, rfl⟩ (.inr rfl) ?_ (by simp)
    rintro todo' r' ⟨⟩
    exact ⟨hf, hlt⟩
  · refine h.parserChanges (loadText_parserChanges s bytes) (.inr rfl) (by simp [State.loadText]) ?_
    rintro channel bytes' ⟨⟩
    exact ⟨hc, loadText_ready s bytes⟩
  · obtain ⟨hl, ⟨hidle, -⟩ | ⟨hh, hr⟩⟩ := loadBinary_cases s bytes
    · exact h.idleAfter hl (canParse_fbReady hc) hidle
    · refine h.parserChanges hl (.inl (canParse_fbReady hc)) (by simp [hh]) ?_
      intro channel bytes' e'
      obtain ⟨rfl, rfl⟩ : Channel.binary = channel ∧ bytes = bytes' := by simpa [hh] using e'
      exact ⟨hc, hr⟩

/-- A command that HOST issues, whole or in part, keeps it. -/
theorem State.Inv.issue {g : Grain} {i : Instr} {s t : State} (h : s.Inv) (hi : i.source = .command)
    (e : (issue g i s).outcome = .next t) : t.Inv := by
  unfold Machine.issue at e
  split at e
  · cases e
  · cases g with
    | whole => exact h.command hi e
    | split =>
      cases hb : Machine.beginSplit i s with
      | none => rw [hb] at e; exact h.command hi e
      | some o => rw [hb] at e; cases e; exact h.beginSplit hb

/-- HOST's next command word, or a poll that finds none, keeps it. -/
theorem State.Inv.hostFetch {g : Grain} {s t : State} (h : s.Inv) (e : (hostFetch g s).outcome = .next t) : t.Inv := by
  unfold Machine.hostFetch at e
  split at e
  · cases e; exact h
  · split at e
    · exact (h.withInbox _).issue (decodeCommand_source ‹_›) e
    · cases e

/-- One pass of the parser's loop keeps it. -/
theorem State.Inv.parseStep {channel : Channel} {bytes : List Byte} {s t : State} (h : s.Inv) (hh : s.host = .parsing channel bytes)
    (e : parseStep channel bytes s = .next t) : t.Inv := by
  obtain ⟨hpd, hfb, hready⟩ := h.parser channel bytes hh
  have hc : s.canParse = true := by simp [State.canParse, hpd, hfb]
  obtain ⟨u, hu, hch, hcase⟩ := parseStep_next hc hh hready
  obtain rfl : u = t := by simpa [hu] using e
  rcases hcase with ⟨hidle, -⟩ | ⟨hp, -, -, hr⟩
  · exact h.idleAfter hch hfb hidle
  · refine h.parserChanges hch (.inl hfb) (by simp [hp]) ?_
    intro channel' bytes' e'
    obtain ⟨rfl, rfl⟩ : channel = channel' ∧ bytes = bytes' := by simpa [hp] using e'
    exact ⟨hc, hr⟩

/-- The next store of an operation in progress, or its end, keeps it. -/
theorem State.Inv.storeAction {todo : List Host.Cell} {r : Report} {s t : State} (h : s.Inv) (hh : s.host = .storing todo r)
    (e : storeAction todo r s = .next t) : t.Inv := by
  obtain ⟨hf, hlt⟩ := h.pendingStores todo r hh
  cases todo with
  | nil => cases e; exact h.endHostOp r
  | cons c cs =>
    obtain ⟨hc, rfl⟩ := storeCell_eq_next.1 e
    refine h.parserChanges ⟨⟨[c], by simpa using hc, rfl⟩, rfl⟩ (.inl hf) ?_ (by simp)
    rintro todo' r' ⟨⟩
    exact ⟨hf, fun d hd => hlt d (List.mem_cons_of_mem _ hd)⟩

theorem State.Inv.hostTurn {g : Grain} {s t : State} (h : s.Inv) (e : (hostTurn g s).outcome = .next t) : t.Inv := by
  cases hh : s.host with
  | idle => rw [hostTurn_idle hh] at e; exact h.hostFetch e
  | storing todo r => rw [hostTurn_storing hh] at e; exact h.storeAction hh e
  | parsing channel bytes =>
    obtain ⟨-, -, hready⟩ := h.parser channel bytes hh
    rw [hostTurn_parsing hh hready] at e
    exact h.parseStep hh e

theorem State.Inv.timerTurn {g : Grain} {s t : State} (h : s.Inv) (e : (timerTurn g s).outcome = .next t) : t.Inv := by
  cases ht : s.tick with
  | none =>
    cases g with
    | whole => rw [timerTurn_whole ht] at e; exact h.seTick e
    | split =>
      rw [timerTurn_split ht] at e
      obtain ⟨-, he, -, -, rfl⟩ := beginTick_eq_next e
      exact h.beginPhaseStep he ht
  | some todo =>
    rw [timerTurn_scanning ht] at e
    cases todo with
    | nil => cases e; exact h.endPhaseStep ht
    | cons a as => exact (h.scanCell ht e).1

/-! ## Parser registers that agree where a datagram reads them (R29, R156) -/

/-- Two contents of the parser's registers stand at the same byte, and the same stands at every byte from which they fetch a record. -/
def SameRecords (channel : Channel) (bytes : List Byte) (pd pd' : PdRegs) : Prop :=
  pd'.pos = pd.pos ∧ ∀ n, fetchRecord channel bytes { pd' with pos := n } = fetchRecord channel bytes { pd with pos := n }

theorem SameRecords.fetchRecord_eq {channel : Channel} {bytes : List Byte} {pd pd' : PdRegs} (h : SameRecords channel bytes pd pd') :
    fetchRecord channel bytes pd' = fetchRecord channel bytes pd := by
  have := h.2 pd.pos
  rwa [← h.1, show { pd with pos := pd'.pos } = pd by rw [h.1]] at this

theorem SameRecords.advance {channel : Channel} {bytes : List Byte} {pd pd' : PdRegs} (h : SameRecords channel bytes pd pd') (n : Nat) :
    SameRecords channel bytes { pd with pos := pd.pos + n } { pd' with pos := pd'.pos + n } :=
  ⟨congrArg (· + n) h.1, h.2⟩

/-- R132: a text datagram reads the length and the cursor only, and sets both. -/
theorem sameRecords_text (bytes : List Byte) (pd pd' : PdRegs) (len : Nat) :
    SameRecords .text bytes { pd with len := len, pos := 0 } { pd' with len := len, pos := 0 } := ⟨rfl, fun _ => rfl⟩

/-- A layout other than BIN3's has no shared colour byte to read (R96 to R99). -/
theorem decodeRecord_col {l : Layout} (h : l ≠ .bin3) (col col' : Byte) (bs : List Byte) :
    decodeRecord col' l bs = decodeRecord col l bs := by
  cases l <;> first | exact absurd rfl h | (unfold decodeRecord; split <;> simp_all)

theorem fetchRecord_binary_col {pd : PdRegs} {l : Layout} (hl : layoutOf pd.fmt pd.alpha = some l) (h : l ≠ .bin3) (bytes : List Byte)
    (col : Byte) : fetchRecord .binary bytes { pd with col := col } = fetchRecord .binary bytes pd := by
  simp only [fetchRecord, hl, decodeRecord_col h pd.col col]

/-- R143: a header that the parser accepts sets every register that its records read. -/
theorem sameRecords_header {pd pd' : PdRegs} {bytes : List Byte} (h : (headerRegs pd bytes).2 = none) :
    SameRecords .binary bytes (headerRegs pd bytes).1 (headerRegs pd' bytes).1 := by
  unfold headerRegs at h ⊢
  split at h
  · rename_i fmt flags rest
    cases hl : layoutOf fmt (alphaBit flags) with
    | none => simp [hl] at h
    | some l =>
      cases l <;> simp only [hl] at h ⊢
      case bin3 =>
        cases rest with
        | nil => simp at h
        | cons col rest => exact ⟨rfl, fun _ => rfl⟩
      all_goals exact ⟨rfl, fun n => fetchRecord_binary_col (pd := ⟨_, n, fmt, alphaBit flags, _, pd.col⟩) hl (by decide) _ pd'.col⟩
  · simp at h

/-- Why a header stops its datagram, if it does, depends on its bytes only. -/
theorem headerRegs_cause (pd pd' : PdRegs) (bytes : List Byte) : (headerRegs pd' bytes).2 = (headerRegs pd bytes).2 := by
  unfold headerRegs
  split
  · rename_i fmt flags rest
    cases layoutOf fmt (alphaBit flags) with
    | none => rfl
    | some l => cases l <;> cases rest <;> rfl
  · rfl

/-- A binary datagram is taken into the buffer alike in states that differ in the parser's registers only. -/
theorem loadBinary_withPd (s : State) (pd : PdRegs) (bytes : List Byte) :
    (s.withPd pd).loadBinary bytes = (s.loadBinary bytes).withPd (headerRegs pd bytes).1 := by
  have hcause := headerRegs_cause s.pd pd bytes
  rcases hq : headerRegs s.pd bytes with ⟨regs, c⟩
  rcases hq' : headerRegs pd bytes with ⟨regs', c'⟩
  rw [hq, hq'] at hcause
  cases hcause
  simp only [State.loadBinary, State.withPd_pd, hq, hq']
  cases c <;> rfl

/-- The header of a datagram that is then being parsed has set the registers. -/
theorem loadBinary_regs {s : State} {bytes : List Byte} (h : (s.loadBinary bytes).host = .parsing .binary bytes) :
    (headerRegs s.pd bytes).2 = none ∧ (s.loadBinary bytes).pd = (headerRegs s.pd bytes).1 := by
  rcases hq : headerRegs s.pd bytes with ⟨regs, _ | c⟩
  · exact ⟨rfl, by simp only [State.loadBinary, hq]; rfl⟩
  · simp only [State.loadBinary, hq] at h
    cases h

/-- The loop over a datagram does the same to all but the parser's registers, whatever these hold where no record is read from them. -/
theorem parseAll_elsewhere {n : Nat} {channel : Channel} {bytes : List Byte} {s t : State} {pd : PdRegs} (hc : s.canParse = true)
    (hh : s.host = .parsing channel bytes) (hr : ParserReady channel bytes s.pd) (hs : SameRecords channel bytes s.pd pd)
    (e : parseAll n s = .next t) : ∃ pd', parseAll n (s.withPd pd) = .next (t.withPd pd') := by
  induction n generalizing s pd with
  | zero => cases e; exact ⟨pd, rfl⟩
  | succ n ih =>
    obtain ⟨u, hu, hch, hcase⟩ := parseStep_next hc hh hr
    obtain ⟨k, hk, helse⟩ := parseStep_elsewhere hu
    have hsched : (s.withPd pd).withSched u.sched = s.withPd pd := by rw [hch.2]; rfl
    have hv : parseStep channel bytes (s.withPd pd) = .next (u.withPd { pd with pos := pd.pos + k }) := by
      rw [← hsched]; exact helse pd u.sched hs.fetchRecord_eq
    rw [parseAll, hh] at e
    simp only [hu, andThen_next] at e
    rw [parseAll, State.withPd_host, hh]
    simp only [hv, andThen_next]
    rcases hcase with ⟨hidle, -⟩ | ⟨hp, -, -, hready⟩
    · rw [parseAll_idle hidle] at e
      cases e
      exact ⟨_, parseAll_idle (by exact hidle) n⟩
    · exact ih (hch.canParse.trans hc) hp hready (hk ▸ hs.advance k) e

/-! ## What each operation can change, by its owner (R26, R35, R200, R256) -/

/-- All that SE_ENABLE, SE_DISABLE and SE_TICK can change: what TIMER changes, EN, and what HOST is doing and reports. -/
def EngineChanges (s t : State) : Prop :=
  t = { s with
    acc := t.acc, phase := t.phase, frameCnt := t.frameCnt, pins := t.pins, trace := t.trace, tick := t.tick, en := t.en
    host := t.host, report := t.report } ∧ t.acc.length = s.acc.length

/-- TIMER's changes, then events, EN and the end of the operation. -/
theorem TimerChanges.switched {s u : State} (h : TimerChanges s u) (es : List Event) (en : Bool) (r : Report) :
    EngineChanges s (((u.emitAll es).withEn en).endHostOp r) := by
  obtain ⟨hu, hl⟩ := h
  rw [State.emitAll_eq]
  exact ⟨by rw [hu]; rfl, hl⟩

/-- What an operation that comes to a next state has changed. -/
def ExecChanges (i : Instr) (s t : State) : Prop :=
  match i with
  | .fbInit w h g => s.fbReady = false ∧ t = (s.withFramebuffer w h (gammaTable g)).endHostOp Report.done
  | .fbOrient h v => t = (s.withFlips h v).endHostOp Report.done
  | .pdInit a b => s.pdReady = false ∧ ∃ r, t = (s.withPorts a b).endHostOp r ∨ t = s.endHostOp r
  | .seInit m => s.seReady = false ∧
      t = ((s.withEngine m (seeds s.draws s.cells)).withDraws (s.draws + s.cells)).endHostOp Report.done
  | .seEnable | .seDisable | .seTick => EngineChanges s t
  | _ => ParserChanges s t

theorem exec_changes {i : Instr} {s t : State} (e : exec i s = .next t) : ExecChanges i s t := by
  have stores (hi : i = .fbClear ∨ (∃ x y k, i = .fbWrite x y k) ∨ ∃ a x y k, i = .fbText a x y k) : ParserChanges s t := by
    obtain ⟨-, cs, r, hlt, rfl⟩ := exec_stores e hi
    exact parserChanges_stores hlt r
  cases i
  case fbInit =>
    obtain ⟨hf, -, -, -, rfl⟩ := execFbInit_eq_next e
    exact ⟨hf, rfl⟩
  case fbOrient => exact (execFbOrient_eq_next e).2
  case fbClear => exact stores (.inl rfl)
  case fbWrite => exact stores (.inr (.inl ⟨_, _, _, rfl⟩))
  case fbText => exact stores (.inr (.inr ⟨_, _, _, _, rfl⟩))
  case pdInit =>
    obtain ⟨hp, ⟨-, rfl⟩ | ⟨-, rfl⟩⟩ := execPdInit_eq_next e
    · exact ⟨hp, _, .inl rfl⟩
    · exact ⟨hp, _, .inr rfl⟩
  case pdRxtext bytes => exact (exec_parser e (.inr ⟨bytes, .inl rfl⟩)).2
  case pdRxbin bytes => exact (exec_parser e (.inr ⟨bytes, .inr rfl⟩)).2
  case seInit =>
    obtain ⟨hn, -, rfl⟩ := execSeInit_eq_next e
    exact ⟨hn, rfl⟩
  case seEnable =>
    obtain ⟨-, ⟨-, rfl⟩ | ⟨-, u, hu, rfl⟩⟩ := execSeEnable_eq_next e
    · exact ⟨rfl, rfl⟩
    · exact (timerChanges_finishPhaseStep hu).switched [.power true, .attach] true _
  case seDisable =>
    obtain ⟨-, u, hu, rfl⟩ := execSeDisable_eq_next e
    exact (timerChanges_finishPhaseStep hu).switched [.blank, .detach, .power false] false _
  case seTick =>
    obtain ⟨ht, hl⟩ := timerChanges_execSeTick e
    exact ⟨by rw [ht], hl⟩
  all_goals exact (exec_parser e (.inl (by simp [Instr.source]))).2

/-! ## One whole phase step (R210 to R216) -/

/-- R40, R45: after a run of SHIFTs COL_DATA holds the last bit and COL_CLK is 0; without one nothing has moved. -/
theorem State.shifts_pins (s : State) (as : List Nat) (p : Pins) :
    (s.shifts as).foldl Pins.apply p = as.getLast?.elim p fun a => { p with colData := s.bitOf a, colClk := false } := by
  induction as using List.reverseRecOn with
  | nil => rfl
  | append_singleton as a ih =>
    have hs : s.shifts (as ++ [a]) = s.shifts as ++ [.shift (s.bitOf a)] := List.map_append
    rw [hs, List.foldl_append, ih, List.getLast?_concat]
    cases as.getLast? <;> rfl

/-- SE_TICK, field by field, where everything it needs holds. -/
theorem exec_seTick_of_canTick {s : State} (h : s.CanTick) :
    exec .seTick s = .next { s with
      trace := s.trace ++ ([.blank] ++ s.shifts s.currentCells ++ s.closingEvents)
      pins := { (s.shifts s.currentCells).foldl Pins.apply s.pins with rowEn := true, rowSel := s.phase, colLatch := false }
      phase := s.phase + 1, frameCnt := if s.phase = 3 then s.frameCnt + 1 else s.frameCnt, acc := s.accAll s.currentCells } := by
  have ⟨_, _, _, ht, _⟩ := h
  refine (execSeTick_of_canTick h).trans (congrArg _ ?_)
  rw [State.endPhaseStep_eq, State.emitAll_eq, State.emitAll_eq, State.closingEvents_pins, State.shifts_pins, State.shifts_pins]
  cases s.currentCells.getLast? <;> simp [State.withAcc, State.emit, State.closingEvents, Pins.apply, ht]

theorem beginTick_refused {s : State} (h : ¬(s.seReady = true ∧ s.en = true)) : beginTick s = .refused .timerNotAttached := by
  rw [← Bool.and_eq_true] at h
  exact if_neg h

theorem beginTick_of_canTick {s : State} (h : s.CanTick) : beginTick s = .next s.beginPhaseStep := by
  obtain ⟨hr, he, hf, ht, -⟩ := h
  simp [beginTick, hr, he, hf, ht]

/-! ## What each kind of turn does (R70, R73) -/

/-- The next command word, where HOST is between operations. -/
theorem hostTurn_command {s : State} {w : List Byte} {ws : List (List Byte)} {i : Instr} (h : s.host = .idle) (hin : s.inbox = w :: ws)
    (hd : decodeCommand w = .ok i) (g : Grain) : hostTurn g s = issue g i (s.withInbox ws) := by
  rw [hostTurn_idle h, hostFetch, hin]
  simp only [hd]

theorem issue_run {g : Grain} {i : Instr} {s : State} (hi : i ≠ .seTick) (h : g = .whole ∨ beginSplit i s = none) :
    issue g i s = .run i s := by
  unfold issue
  rw [if_neg hi]
  cases g with
  | whole => rfl
  | split =>
    have hs : beginSplit i s = none := by simpa using h
    simp only [hs]

theorem issue_split {i : Instr} {s : State} {o : Out} (h : beginSplit i s = some o) : issue .split i s = .act o := by
  have hi : i ≠ .seTick := by rintro rfl; cases h
  unfold issue
  rw [if_neg hi]
  simp only [h]

theorem fetchRecord_text_record {bytes rest : List Byte} {pd : PdRegs} {i : Instr} (hp : pd.pos < pd.len)
    (hd : decodeText ((bytes.take pd.len).drop pd.pos) = .ok (i, rest)) : fetchRecord .text bytes pd = .record i := by
  simp only [fetchRecord, if_neg (Nat.not_le.2 hp), hd]

theorem fetchRecord_binary_record {bytes rest : List Byte} {pd : PdRegs} {l : Layout} {i : Instr} (hp : pd.recSize ≤ pd.len - pd.pos)
    (hl : layoutOf pd.fmt pd.alpha = some l) (hd : decodeRecord pd.col l (bytes.drop pd.pos) = .ok (i, rest)) :
    fetchRecord .binary bytes pd = .record i := by
  simp only [fetchRecord, if_neg (Nat.not_lt.2 hp), hl, hd]

/-- The record at the cursor is executed, whatever the grain. -/
theorem step_record {s u : State} {g : Grain} {channel : Channel} {bytes : List Byte} {i : Instr} (h : HostGoes s g u)
    (hh : s.host = .parsing channel bytes) (hf : fetchRecord channel bytes s.pd = .record i) : step s = exec i u := by
  rw [step_of_hostGoes h, hostTurn_record (h.host.trans hh) (h.pd ▸ hf)]
  rfl

/-- A datagram taken into the buffer has changed the parser's registers, and what HOST is doing and reports. -/
theorem loadBinary_frame (s : State) (bytes : List Byte) :
    s.loadBinary bytes =
      { s with host := (s.loadBinary bytes).host, pd := (s.loadBinary bytes).pd, report := (s.loadBinary bytes).report } := by
  unfold State.loadBinary
  split <;> rfl

/-- The next store of an operation in progress. -/
theorem step_store {s u : State} {g : Grain} {c : Host.Cell} {cs : List Host.Cell} {r : Report} (h : HostGoes s g u)
    (hh : s.host = .storing (c :: cs) r) (hc : c.1 < s.cells) :
    step s = .next { u with pp := s.pp.write c.1 c.2, host := .storing cs r } := by
  rw [step_of_hostGoes h, hostTurn_storing (h.host.trans hh)]
  obtain ⟨ts, rfl⟩ : ∃ ts, u = s.withSched ts := ⟨_, h.eq_withSched⟩
  exact storeCell_of_lt (by exact hc) c.2

/-- The scan of a cell of the plane that has an accumulator where one is read. -/
theorem scanCell_of_accumulator {s : State} {a : Nat} (h : a < s.cells) (ha : s.mode = .dithered → a < s.acc.length) :
    scanCell a s = .next ((s.withAcc (s.accAfter a)).emit (.shift (s.bitOf a))) := by
  cases hm : s.mode with
  | binary => simp only [scanCell, if_pos h, hm, State.accAfter, State.bitOf]; rfl
  | dithered => exact scanCell_of_lt h (ha hm)

/-- The next cell of a phase step in progress. -/
theorem step_scan {s u : State} {g : Grain} {a : Nat} {as : List Nat} (h : TimerGoes s g u) (ht : s.tick = some (a :: as))
    (hc : a < s.cells) (ha : s.mode = .dithered → a < s.acc.length) :
    step s = .next { u with
      trace := s.trace ++ [.shift (s.bitOf a)], pins := { s.pins with colData := s.bitOf a, colClk := false }, acc := s.accAfter a
      tick := some as } := by
  rw [step_of_timerGoes h, timerTurn_scanning (h.tick.trans ht)]
  obtain ⟨ts, -, rfl⟩ := h
  exact scanCell_of_accumulator (s := (s.withSched ts).withTick (some as)) hc ha

/-- The end of a phase step in progress whose cells are all read. -/
theorem step_endPhaseStep {s u : State} {g : Grain} (h : TimerGoes s g u) (ht : s.tick = some []) :
    step s = .next { u with
      trace := s.trace ++ s.closingEvents, pins := { s.pins with colLatch := false, rowSel := s.phase, rowEn := true }, tick := none
      phase := s.phase + 1, frameCnt := if s.phase = 3 then s.frameCnt + 1 else s.frameCnt } := by
  rw [step_of_timerGoes h, timerTurn_scanning (h.tick.trans ht)]
  obtain ⟨ts, -, rfl⟩ := h
  show Host.Outcome.next (State.endPhaseStep _) = _
  rw [State.endPhaseStep_eq, State.emitAll_eq, State.closingEvents_pins]
  rfl

/-! ## What a cell's scan reads, by the mode (R213, R214) -/

theorem State.bitOf_binary {s : State} (h : s.mode = .binary) (a : Nat) : s.bitOf a = binaryBit (s.readCell a) := by
  simp only [State.bitOf, h]

theorem State.bitOf_dithered {s : State} (h : s.mode = .dithered) (a : Nat) : s.bitOf a = ditherBit (s.acc.getD a 0) (s.readCell a) := by
  simp only [State.bitOf, h]

theorem State.accAfter_binary {s : State} (h : s.mode = .binary) (a : Nat) : s.accAfter a = s.acc := by
  simp only [State.accAfter, h]

theorem State.accAfter_dithered {s : State} (h : s.mode = .dithered) (a : Nat) :
    s.accAfter a = s.acc.set a (ditherRest (s.acc.getD a 0) (s.readCell a)) := by
  simp only [State.accAfter, h]

/-! ## The two agents at one cell (R65, R66, R70) -/

/-- HOST's store to a cell and TIMER's read of it, in either order: TIMER reads the plane `m`, from before the store or from after it. -/
theorem store_races_scan {s : State} {a : Nat} {v read : Byte} {cs : List Host.Cell} {r : Report} {as : List Nat} {g h : Grain}
    {ts : List Turn} (hh : s.host = .storing ((a, v) :: cs) r) (ht : s.tick = some (a :: as)) (hc : a < s.cells)
    (ha : s.mode = .dithered → a < s.acc.length)
    (hs : (s.sched = ⟨.host, g⟩ :: ⟨.timer, h⟩ :: ts ∧ read = v) ∨
      (s.sched = ⟨.timer, h⟩ :: ⟨.host, g⟩ :: ts ∧ read = s.readCell a)) :
    ∃ m t, (s.withPp m).readCell a = read ∧ step s = .next t ∧ step t = .next { s with
      pp := s.pp.write a v, host := .storing cs r, tick := some as, sched := ts
      pins := { s.pins with colData := (s.withPp m).bitOf a, colClk := false }
      trace := s.trace ++ [.shift ((s.withPp m).bitOf a)], acc := (s.withPp m).accAfter a } := by
  obtain ⟨hs, rfl⟩ | ⟨hs, rfl⟩ := hs
  · have hstore := step_store (.inr ⟨_, hs, rfl⟩) hh hc
    exact ⟨s.pp.write a read, _, s.readCell_withPp_write_same a read, hstore, step_scan ⟨ts, rfl, rfl⟩ ht hc ha⟩
  · have hscan := step_scan ⟨_, hs, rfl⟩ ht hc ha
    exact ⟨s.pp, _, rfl, hscan, Eq.trans (step_store (g := g) (.inr ⟨ts, rfl, rfl⟩) hh hc) rfl⟩

end Sys2Proof.Machine

open Sys2Proof Sys2Proof.Machine

/-! ## The obligations of the state -/

/-- Settles O54: whichever agent's turn is next, its action keeps the invariant. -/
theorem stepKeepsInvariant : Obligations.StepKeepsInvariant := by
  intro s t h e
  rw [step_eq] at e
  unfold nextAction at e
  split at e
  · exact h.hostTurn e
  · rename_i turn ts _
    unfold takeTurn at e
    split at e
    · exact (h.withSched ts).hostTurn e
    · exact (h.withSched ts).timerTurn e

/-- Settles O26: the text channel sets both registers that it reads, and a header that selects a layout sets all that its records read. -/
theorem datagramForgetsParserState : Obligations.DatagramForgetsParserState := by
  intro bytes s pd hc i hi
  obtain ⟨t, ht, -⟩ := exec_datagram_ends hc hi
  suffices ∃ pd', exec i (s.withPd pd) = .next (t.withPd pd') by
    obtain ⟨pd', hu⟩ := this
    exact ⟨t, t.withPd pd', ht, hu, rfl⟩
  have hc' : (s.withPd pd).canParse = true := hc
  rcases hi with rfl | rfl
  · rw [exec_pdRxtext hc] at ht
    rw [exec_pdRxtext hc']
    exact parseAll_elsewhere ((loadText_parserChanges s bytes).canParse.trans hc) rfl (loadText_ready s bytes)
      (sameRecords_text bytes s.pd pd bytes.length) ht
  · rw [exec_pdRxbin hc] at ht
    rw [exec_pdRxbin hc', loadBinary_withPd]
    obtain ⟨hl, ⟨hidle, -⟩ | ⟨hh, hr⟩⟩ := loadBinary_cases s bytes
    · rw [parseAll_idle hidle] at ht
      cases ht
      exact ⟨_, parseAll_idle (by exact hidle) _⟩
    · obtain ⟨hnone, hregs⟩ := loadBinary_regs hh
      exact parseAll_elsewhere (hl.canParse.trans hc) hh hr (hregs ▸ sameRecords_header hnone) ht

/-- Settles O42: FB_INIT, SE_INIT and PD_INIT are refused a second time, and no other operation writes what they establish. -/
theorem initialisedOnce : Obligations.InitialisedOnce := by
  intro i s t e
  have h := exec_changes e
  cases i
  case fbInit => obtain ⟨hf, rfl⟩ := h; simp [hf]
  case fbOrient => obtain rfl := h; simp
  case pdInit => obtain ⟨hp, r, rfl | rfl⟩ := h <;> simp [hp]
  case seInit => obtain ⟨hn, rfl⟩ := h; simp [hn]
  case seEnable | seDisable | seTick =>
    obtain ⟨ht, hl⟩ := h
    exact ⟨by rw [ht]; simp, fun hs => ⟨by rw [ht]; exact hs, by rw [ht], hl⟩, by rw [ht]; simp⟩
  all_goals
    have ht : ParserChanges s t := h
    rw [ht.2]; simp

/-- Settles O43: what each of these operations changes leaves out the plane. -/
theorem planeHasOneOwner : Obligations.PlaneHasOneOwner := by
  intro i s t e hi
  have h := exec_changes e
  cases i
  case fbInit => obtain ⟨-, rfl⟩ := h; rfl
  case fbOrient => obtain rfl := h; rfl
  case pdInit => obtain ⟨-, r, rfl | rfl⟩ := h <;> rfl
  case seInit => obtain ⟨-, rfl⟩ := h; rfl
  case seEnable | seDisable | seTick =>
    obtain ⟨ht, -⟩ := h
    rw [ht]
  all_goals exact hi.elim

/-- Settles O44: what FB's and PD's operations change leaves out all of SE. -/
theorem engineHasOneOwner : Obligations.EngineHasOneOwner := by
  intro i s t e hi
  have h := exec_changes e
  cases i
  case fbInit => obtain ⟨-, rfl⟩ := h; simp [SameEngine]
  case fbOrient => obtain rfl := h; simp [SameEngine]
  case pdInit => obtain ⟨-, r, rfl | rfl⟩ := h <;> simp [SameEngine]
  case seInit | seEnable | seDisable | seTick => exact hi.elim
  all_goals
    have ht : ParserChanges s t := h
    rw [ht.2]; simp [SameEngine]

/-- Settles O34: SE_TICK in closed form, its pins by the last SHIFT and its accumulators by the scans of cells that differ. -/
theorem seTickRunsOnePhaseStep : Obligations.SeTickRunsOnePhaseStep := by
  intro s
  refine ⟨fun h => ?_, fun h => ⟨_, exec_seTick_of_canTick h, ?_⟩⟩
  · show andThen (beginTick s) _ = _
    rw [beginTick_refused h, andThen_refused]
  · have ⟨_, _, _, _, hl⟩ := h
    have hlt : ∀ a ∈ s.currentCells, a < s.acc.length := fun a ha => hl ▸ phaseCells_lt ha
    refine ⟨by simp [State.closingEvents, State.shifts], rfl, rfl, fun hm => State.accAll_binary hm _, s.accAll_length _,
      fun a ha => s.accAll_other _ ha, fun hm a ha => ?_, rfl, rfl, rfl, ?_, fun a ha => ?_, fun hn => ?_, rfl⟩
    · exact ⟨_, List.getElem?_eq_getElem (hlt a ha), by
        rw [← List.getD_eq_getElem _ 0 (hlt a ha)]; exact State.accAll_mem hm (phaseCells_nodup _ _ _) ha (hlt a ha)⟩
    · rw [State.shifts_pins]; cases s.currentCells.getLast? <;> rfl
    · rw [State.shifts_pins, ha]; exact ⟨rfl, rfl⟩
    · rw [hn]; exact ⟨rfl, rfl⟩

/-- Settles O46: the plane that TIMER reads is the one before or the one after the store. -/
theorem storeRacesScan : Obligations.StoreRacesScan := by
  intro s a v cs r as g h ts hh ht hc read hs
  refine ⟨fun hm => ?_, fun hm x hx => ?_⟩
  · obtain ⟨m, t, hread, h1, h2⟩ := store_races_scan hh ht hc (by simp [hm]) hs
    have hm' : (s.withPp m).mode = .binary := hm
    rw [State.bitOf_binary hm', State.accAfter_binary hm', hread] at h2
    exact ⟨t, _, h1, h2, rfl⟩
  · obtain ⟨ha, rfl⟩ := List.getElem?_eq_some_iff.1 hx
    obtain ⟨m, t, hread, h1, h2⟩ := store_races_scan hh ht hc (fun _ => ha) hs
    have hm' : (s.withPp m).mode = .dithered := hm
    rw [State.bitOf_dithered hm', State.accAfter_dithered hm', hread, State.withPp_acc, List.getD_eq_getElem _ _ ha] at h2
    exact ⟨t, _, h1, h2, rfl⟩

/-- Settles O49: the turn of each agent, by what stands next for it. -/
theorem stepRunsWhatStandsNext : Obligations.StepRunsWhatStandsNext := by
  refine ⟨fun s u g w ws i hg hh hin hd hi h => ?_, fun s u g bytes rest i hg hh hp hd => ?_,
    fun s u g bytes rest l i hg hh hp hl hd => ?_, fun s u hg ht => ?_⟩
  · rw [step_of_hostGoes hg, hostTurn_command (hg.host.trans hh) (hg.inbox.trans hin) hd, issue_run (s := u.withInbox ws) hi h]
    rfl
  · exact step_record hg hh (fetchRecord_text_record hp hd)
  · exact step_record hg hh (fetchRecord_binary_record hp hl hd)
  · rw [step_of_timerGoes hg, timerTurn_whole (hg.tick.trans ht)]
    rfl

/-- Settles O50: one clause for each kind of turn taken in part. -/
theorem turnsTakenInPart : Obligations.TurnsTakenInPart := by
  refine ⟨fun s u w ws i o hg hh hin hd hb => ⟨?_, ?_⟩, beginSplit_ne_none, fun s u g r hg => ⟨fun hh => ?_, fun c cs hh hc => ?_⟩,
    fun s u hg ht => ⟨fun hn => ?_, fun hcan => ?_⟩, fun s u g hg => ⟨fun ht => ?_, fun a as ht hc ha => ?_⟩⟩
  · rw [step_of_hostGoes hg, hostTurn_command (hg.host.trans hh) (hg.inbox.trans hin) hd, issue_split (s := u.withInbox ws) hb]
    rfl
  · rintro t rfl
    obtain ⟨-, todo, r, -, rfl⟩ | ⟨-, bytes, rfl | rfl⟩ := beginSplit_eq_next hb
    · rfl
    · rfl
    · exact loadBinary_frame _ bytes
  · rw [step_of_hostGoes hg, hostTurn_storing (hg.host.trans hh)]
    rfl
  · exact step_store hg hh hc
  · rw [step_of_timerGoes hg, timerTurn_split (hg.tick.trans ht)]
    obtain ⟨ts, -, rfl⟩ := hg
    exact beginTick_refused hn
  · rw [step_of_timerGoes hg, timerTurn_split (hg.tick.trans ht)]
    obtain ⟨ts, -, rfl⟩ := hg
    exact beginTick_of_canTick (s := s.withSched ts) hcan
  · exact step_endPhaseStep hg ht
  · exact ⟨_, step_scan hg ht hc ha, rfl, fun hm => State.accAfter_binary hm a, fun hm => State.accAfter_dithered hm a⟩

end

section
/-! SUPPORT. The proofs about the memory (20_memory.md): reads and stores of one cell, that an operation taken in parts by one agent alone
does what the whole operation does, and that no step from a state with the invariant faults. -/

namespace Sys2Proof.Machine

/-! ## An operation in parts is the whole operation (R70) -/

/-- What comes after an action matters in the states that the action leads to only. -/
theorem andThen_congr {o : Out} {k l : State → Out} (h : ∀ t, o = .next t → k t = l t) : andThen o k = andThen o l := by
  cases o with
  | next t => exact h t rfl
  | fault _ | refused _ => rfl

/-- So many single actions of HOST as there are stores, and one for the end, are the rest of the operation. -/
theorem storeActions_eq_finishStores {todo : List Host.Cell} {r : Report} {s : State} (h : s.host = .storing todo r) :
    storeActions (todo.length + 1) s = finishStores todo r s := by
  induction todo generalizing s with
  | nil => rw [storeActions, h]; rfl
  | cons c cs ih =>
    rw [storeActions, h, finishStores]
    refine andThen_congr fun t e => ih ?_
    rw [(storeCell_eq_next.1 e).2]; rfl

/-- So many single actions of TIMER as there are cells to read, and one for the end, are the rest of the phase step. -/
theorem scanActions_eq_scanAll {todo : List Nat} {s : State} (h : s.tick = some todo) :
    scanActions (todo.length + 1) s = scanAll todo s := by
  induction todo generalizing s with
  | nil => rw [scanActions, h]; rfl
  | cons a as ih =>
    rw [scanActions, h, scanAll]
    refine andThen_congr fun t e => ih ?_
    rw [(scanCell_eq_next e).2]; rfl

/-! ## The schedule of one agent's turns -/

/-- The outcome with another schedule in its next state. -/
def Out.withSched (o : Out) (ts : List Turn) : Out := andThen o fun t => .next (t.withSched ts)

theorem Out.withSched_andThen (o : Out) (ts : List Turn) (k : State → Out) :
    andThen (o.withSched ts) k = andThen o fun t => k (t.withSched ts) := andThen_assoc ..

/-- A plane store reads no schedule. -/
theorem storeCell_withSched (a : Nat) (v : Byte) (s : State) (ts : List Turn) :
    storeCell a v (s.withSched ts) = Out.withSched (storeCell a v s) ts := by
  by_cases h : a < s.cells
  · rw [storeCell_of_lt h, storeCell_of_lt (by exact h)]; rfl
  · rw [storeCell, storeCell, if_neg h, if_neg (by exact h)]; rfl

/-- A HOST action of an operation that makes its stores reads no schedule. -/
theorem storeAction_withSched (todo : List Host.Cell) (r : Report) (s : State) (ts : List Turn) :
    storeAction todo r (s.withSched ts) = Out.withSched (storeAction todo r s) ts := by
  cases todo with
  | nil => rfl
  | cons c cs => exact storeCell_withSched c.1 c.2 (s.withHost (.storing cs r)) ts

/-- A cell's scan reads no schedule. -/
theorem scanCell_withSched (a : Nat) (s : State) (ts : List Turn) :
    scanCell a (s.withSched ts) = Out.withSched (scanCell a s) ts := by
  by_cases h : a < s.cells
  · rw [scanCell, scanCell, if_pos h, if_pos (by exact h), State.withSched_mode, State.withSched_acc]
    cases s.mode with
    | binary => rfl
    | dithered => cases s.acc[a]? <;> rfl
  · rw [scanCell, scanCell, if_neg h, if_neg (by exact h)]; rfl

/-- A TIMER action of a phase step in progress reads no schedule. -/
theorem scanAction_withSched (todo : List Nat) (s : State) (ts : List Turn) :
    scanAction todo (s.withSched ts) = Out.withSched (scanAction todo s) ts := by
  cases todo with
  | nil => exact congrArg Host.Outcome.next (by simp only [State.endPhaseStep_eq, State.emitAll_eq]; rfl)
  | cons a as => exact scanCell_withSched a (s.withTick (some as)) ts

/-- The next turn of the schedule, then the rest. -/
theorem steps_turn (n : Nat) (turn : Turn) (ts : List Turn) (s : State) :
    steps (n + 1) (s.withSched (turn :: ts)) = andThen (takeTurn turn (s.withSched ts)).outcome (steps n) := by
  rw [steps, step_eq]; rfl

theorem takeTurn_storing {todo : List Host.Cell} {r : Report} {s : State} (g : Grain) (h : s.host = .storing todo r) (ts : List Turn) :
    (takeTurn ⟨.host, g⟩ (s.withSched ts)).outcome = Out.withSched (storeAction todo r s) ts := by
  rw [takeTurn, hostTurn_storing (by exact h)]; exact storeAction_withSched todo r s ts

theorem takeTurn_scanning {todo : List Nat} {s : State} (g : Grain) (h : s.tick = some todo) (ts : List Turn) :
    (takeTurn ⟨.timer, g⟩ (s.withSched ts)).outcome = Out.withSched (scanAction todo s) ts := by
  rw [takeTurn, timerTurn_scanning (by exact h)]; exact scanAction_withSched todo s ts

/-- A run of equal turns whose first comes to `o`, whatever the schedule, and whose others then do what `k` does: together they do `o`, then
`k`, and are off the schedule. -/
theorem steps_replicate_succ {turn : Turn} {n : Nat} {ts : List Turn} {s : State} {o : Out} {k : State → Out}
    (h : ∀ us, (takeTurn turn (s.withSched us)).outcome = Out.withSched o us)
    (hk : ∀ t, o = .next t → steps n (t.withSched (List.replicate n turn ++ ts)) = k (t.withSched ts)) :
    steps (n + 1) (s.withSched (List.replicate (n + 1) turn ++ ts)) = andThen (Out.withSched o ts) k := by
  rw [List.replicate_succ, List.cons_append, steps_turn, h, Out.withSched_andThen, Out.withSched_andThen]
  exact andThen_congr hk

/-- The turns of HOST, one for each store and one for the end, do the rest of the operation. -/
theorem steps_storing {todo : List Host.Cell} {r : Report} {s : State} (g : Grain) (ts : List Turn) (h : s.host = .storing todo r) :
    steps (todo.length + 1) (s.withSched (List.replicate (todo.length + 1) ⟨.host, g⟩ ++ ts)) = finishStores todo r (s.withSched ts) := by
  induction todo generalizing s with
  | nil => exact steps_replicate_succ (k := .next) (takeTurn_storing g h) fun _ _ => rfl
  | cons c cs ih =>
    refine (steps_replicate_succ (takeTurn_storing g h) fun t e => ih ?_).trans
      (congrArg (andThen · (finishStores cs r)) (storeAction_withSched (c :: cs) r s ts).symm)
    rw [(storeCell_eq_next.1 e).2]; rfl

/-- The turns of TIMER, one for each cell to read and one for the end, do the rest of the phase step. -/
theorem steps_scanning {todo : List Nat} {s : State} (g : Grain) (ts : List Turn) (h : s.tick = some todo) :
    steps (todo.length + 1) (s.withSched (List.replicate (todo.length + 1) ⟨.timer, g⟩ ++ ts)) = scanAll todo (s.withSched ts) := by
  induction todo generalizing s with
  | nil =>
    refine (steps_replicate_succ (k := .next) (takeTurn_scanning g h) fun _ _ => rfl).trans ?_
    rw [← scanAction_withSched]; rfl
  | cons a as ih =>
    refine (steps_replicate_succ (takeTurn_scanning g h) fun t e => ih ?_).trans
      (congrArg (andThen · (scanAll as)) (scanAction_withSched (a :: as) s ts).symm)
    rw [(scanCell_eq_next e).2]; rfl

/-- One pass of the parser's loop reads no schedule. -/
theorem parseStep_withSched {channel : Channel} {bytes : List Byte} {s t : State} (e : parseStep channel bytes s = .next t)
    (ts : List Turn) : parseStep channel bytes (s.withSched ts) = .next (t.withSched ts) := by
  obtain ⟨n, hpd, helse⟩ := parseStep_elsewhere e
  have h := helse s.pd ts rfl
  rw [← hpd] at h
  exact h

/-- Some number of HOST's turns, one for each pass of the parser's loop, do the rest of the datagram. -/
theorem steps_parsing {fuel : Nat} {channel : Channel} {bytes : List Byte} {s : State} (g : Grain) (ts : List Turn)
    (hc : s.canParse = true) (hh : s.host = .parsing channel bytes) (hr : ParserReady channel bytes s.pd)
    (hn : s.pd.len - s.pd.pos < fuel) :
    ∃ n, steps n (s.withSched (List.replicate n ⟨.host, g⟩ ++ ts)) = parseAll fuel (s.withSched ts) := by
  induction fuel generalizing s with
  | zero => omega
  | succ fuel ih =>
    obtain ⟨t, ht, hch, hcase⟩ := parseStep_next hc hh hr
    have hturn (us : List Turn) : (takeTurn ⟨.host, g⟩ (s.withSched us)).outcome = Out.withSched (.next t) us :=
      (hostTurn_parsing (by exact hh) (by exact hr) g).trans (parseStep_withSched ht us)
    have hloop : parseAll (fuel + 1) (s.withSched ts) = parseAll fuel (t.withSched ts) := by
      rw [parseAll, State.withSched_host, hh]
      exact congrArg (andThen · (parseAll fuel)) (parseStep_withSched ht ts)
    rw [hloop]
    rcases hcase with ⟨hidle, -⟩ | ⟨hp, hpos, hlen, hready⟩
    · exact ⟨1, steps_replicate_succ hturn fun _ e => by cases e; exact (parseAll_idle (by exact hidle) fuel).symm⟩
    · obtain ⟨n, hsteps⟩ := ih (hch.canParse.trans hc) hp hready (by have := hready.2.1; omega)
      exact ⟨n + 1, steps_replicate_succ hturn fun _ e => by cases e; exact hsteps⟩

/-- What HOST is doing counts for nothing in the stores that it still has to make. -/
theorem finishStores_withHost (todo : List Host.Cell) (r : Report) (s : State) (a : HostActivity) :
    finishStores todo r (s.withHost a) = finishStores todo r s := by
  cases todo <;> rfl

/-- FB_CLEAR and FB_TEXT are their beginning and the stores that it leaves. -/
theorem beginSplit_stores {i : Instr} {s t : State} (hi : i = .fbClear ∨ ∃ text x y k, i = .fbText text x y k)
    (e : beginSplit i s = some (.next t)) : ∃ todo r, t = s.withHost (.storing todo r) ∧ exec i s = finishStores todo r t := by
  rcases hi with rfl | ⟨text, x, y, k, rfl⟩
  all_goals
    simp only [beginSplit, Option.some.injEq] at e
    split at e
    · cases e
      exact ⟨_, _, rfl, (if_pos ‹_›).trans (finishStores_withHost _ _ s _).symm⟩
    · cases e

/-- A datagram begun and carried on by HOST's turns comes to what the whole of it comes to. -/
theorem steps_datagram {i : Instr} {s t : State} {bytes : List Byte} (g : Grain) (hi : i = .pdRxtext bytes ∨ i = .pdRxbin bytes)
    (e : beginSplit i s = some (.next t)) : ∃ n, steps n (t.withSched (List.replicate n ⟨.host, g⟩ ++ s.sched)) = exec i s := by
  rcases hi with rfl | rfl <;> rw [beginSplit, Option.some.injEq] at e
  · obtain ⟨hc, rfl⟩ := beginText_eq_next e
    rw [exec_pdRxtext hc]
    exact steps_parsing g s.sched hc rfl (loadText_ready s bytes) (Nat.lt_succ_self _)
  · obtain ⟨hc, rfl⟩ := beginBinary_eq_next e
    rw [exec_pdRxbin hc]
    obtain ⟨hl, ⟨hidle, -⟩ | ⟨hh, hr⟩⟩ := loadBinary_cases s bytes
    all_goals have hsched : (s.loadBinary bytes).withSched s.sched = s.loadBinary bytes := by rw [hl.2]; rfl
    · exact ⟨0, hsched ▸ (parseAll_idle hidle _).symm⟩
    · obtain ⟨n, hsteps⟩ := steps_parsing (fuel := bytes.length + 1) g s.sched (hl.canParse.trans hc) hh hr (by rw [hr.1]; omega)
      exact ⟨n, hsched ▸ hsteps⟩

/-! ## No step faults (R61, R62) -/

/-- The outcome is no fault. -/
def NoFault (o : Out) : Prop := ∀ f, o ≠ .fault f

theorem noFault_next (s : State) : NoFault (.next s) := nofun

theorem noFault_refused (r : Refusal) : NoFault (.refused r) := nofun

theorem NoFault.of_eq_next {o : Out} {t : State} (h : o = .next t) : NoFault o := h ▸ noFault_next t

theorem NoFault.andThen {o : Out} {k : State → Out} (h : NoFault o) (hk : ∀ t, o = .next t → NoFault (k t)) :
    NoFault (andThen o k) := by
  intro f e
  obtain e | ⟨t, ht, e⟩ := andThen_eq_fault.1 e
  · exact h f e
  · exact hk t ht f e

theorem NoFault.ite {o o' : Out} {p : Prop} [Decidable p] (h : NoFault o) (h' : NoFault o') : NoFault (if p then o else o') := by
  split <;> assumption

/-- An operation that is refused without an initialisation. -/
theorem NoFault.guard {o : Out} {r : Refusal} {p : Prop} [Decidable p] (h : NoFault o) : NoFault (if p then o else .refused r) :=
  .ite h (noFault_refused r)

theorem beginTick_noFault (s : State) : NoFault (beginTick s) := by
  refine .guard (.guard ?_)
  cases s.tick with
  | none => exact noFault_next _
  | some _ => exact noFault_refused _

theorem finishStores_noFault {cs : List Host.Cell} {s : State} (h : ∀ c ∈ cs, c.1 < s.cells) (r : Report) :
    NoFault (finishStores cs r s) := .of_eq_next (finishStores_of_lt h r)

/-- The cells that a phase step in progress has yet to read are cells of the plane, each with its accumulator. -/
theorem State.Inv.todo_lt {s : State} (h : s.Inv) {todo : List Nat} (ht : s.tick = some todo) {a : Nat} (ha : a ∈ todo) :
    a < s.cells ∧ a < s.acc.length := by
  obtain ⟨-, hse, -⟩ := h.enabled_of_tick ht
  obtain ⟨-, -, hsuf⟩ := h.phaseStep todo ht
  have hc : a < s.cells := phaseCells_lt (hsuf.subset ha)
  exact ⟨hc, h.accumulators hse ▸ hc⟩

theorem finishPhaseStep_noFault {s : State} (h : s.Inv) : NoFault (finishPhaseStep s) := by
  unfold finishPhaseStep
  split
  · rename_i todo ht
    obtain ⟨-, -, hsuf⟩ := h.phaseStep todo ht
    exact .of_eq_next (scanAll_of_lt ((phaseCells_nodup _ _ _).sublist hsuf.sublist) (fun _ ha => (h.todo_lt ht ha).1)
      fun _ ha => (h.todo_lt ht ha).2)
  · exact noFault_next s

/-- R132, R143: a whole datagram, in a machine that cannot parse, is refused. -/
theorem exec_datagram_refused {i : Instr} {bytes : List Byte} {s : State} (hc : s.canParse = false)
    (hi : i = .pdRxtext bytes ∨ i = .pdRxbin bytes) : exec i s = .refused .pdNotReady := by
  rcases hi with rfl | rfl
  · simp only [exec, execPdRxtext, beginText, hc, Bool.false_eq_true, if_false, andThen_refused]
  · simp only [exec, execPdRxbin, beginBinary, hc, Bool.false_eq_true, if_false, andThen_refused]

/-- R61, R62: no operation executed whole faults. -/
theorem exec_noFault {s : State} (h : s.Inv) (i : Instr) : NoFault (exec i s) := by
  have record (hi : i.source ≠ .command) : NoFault (exec i s) := by
    cases hc : s.canParse with
    | true =>
      obtain ⟨t, ht, -⟩ := exec_record_next hi hc
      exact .of_eq_next ht
    | false => exact exec_record_refused hi hc ▸ noFault_refused _
  have datagram (bytes : List Byte) (hi : i = .pdRxtext bytes ∨ i = .pdRxbin bytes) : NoFault (exec i s) := by
    cases hc : s.canParse with
    | true =>
      obtain ⟨t, ht, -⟩ := exec_datagram_ends hc hi
      exact .of_eq_next ht
    | false => exact exec_datagram_refused hc hi ▸ noFault_refused _
  cases i
  case fbInit => exact .ite (noFault_refused _) (.ite (noFault_refused _) (noFault_next _))
  case fbOrient => exact .guard (noFault_next _)
  case fbClear => exact .guard (finishStores_noFault (State.clearStores_lt rfl) _)
  case fbWrite =>
    exact .guard (finishStores_noFault (fun _ hc => State.pixelStore_lt (Option.mem_toList.1 hc)) _)
  case fbText => exact .guard (finishStores_noFault (s.pixelStores_lt _ _) _)
  case pdInit => exact .ite (noFault_refused _) (.ite (noFault_next _) (noFault_next _))
  case pdRxtext bytes => exact datagram bytes (.inl rfl)
  case pdRxbin bytes => exact datagram bytes (.inr rfl)
  case seInit => exact .ite (noFault_refused _) (.guard (noFault_next _))
  case seEnable =>
    exact .guard (.ite (noFault_next _) ((finishPhaseStep_noFault h).andThen fun _ _ => noFault_next _))
  case seDisable => exact .guard ((finishPhaseStep_noFault h).andThen fun _ _ => noFault_next _)
  case seTick =>
    refine (beginTick_noFault s).andThen fun t e => ?_
    obtain ⟨-, he, -, ht, rfl⟩ := beginTick_eq_next e
    exact finishPhaseStep_noFault (h.beginPhaseStep he ht)
  all_goals exact record (by simp [Instr.source])

/-- Beginning an operation forms no access, so none can fail. -/
theorem beginSplit_noFault {i : Instr} {s : State} {o : Out} (e : beginSplit i s = some o) : NoFault o := by
  cases i <;> cases e <;> exact .guard (noFault_next _)

theorem issue_noFault {s : State} (h : s.Inv) (g : Grain) (i : Instr) : NoFault (issue g i s).outcome := by
  by_cases hi : i = .seTick
  · unfold issue; rw [if_pos hi]; exact noFault_refused _
  · cases g with
    | whole => rw [issue_run hi (.inl rfl)]; exact exec_noFault h i
    | split =>
      cases hb : beginSplit i s with
      | none => rw [issue_run hi (.inr hb)]; exact exec_noFault h i
      | some o => rw [issue_split hb]; exact beginSplit_noFault hb

theorem hostFetch_noFault {s : State} (h : s.Inv) (g : Grain) : NoFault (hostFetch g s).outcome := by
  unfold hostFetch
  split
  · exact noFault_next s
  · split
    · exact issue_noFault (h.withInbox _) g _
    · exact noFault_refused _

theorem hostTurn_noFault {s : State} (h : s.Inv) (g : Grain) : NoFault (hostTurn g s).outcome := by
  cases hh : s.host with
  | idle => rw [hostTurn_idle hh]; exact hostFetch_noFault h g
  | storing todo r =>
    obtain ⟨-, hlt⟩ := h.pendingStores todo r hh
    rw [hostTurn_storing hh]
    cases todo with
    | nil => exact noFault_next _
    | cons c cs => exact .of_eq_next (storeCell_of_lt (s := s.withHost (.storing cs r)) (hlt c List.mem_cons_self) c.2)
  | parsing channel bytes =>
    obtain ⟨hpd, hfb, hready⟩ := h.parser channel bytes hh
    obtain ⟨t, ht, -⟩ := parseStep_next (by simp [State.canParse, hpd, hfb]) hh hready
    rw [hostTurn_parsing hh hready]
    exact .of_eq_next ht

theorem timerTurn_noFault {s : State} (h : s.Inv) (g : Grain) : NoFault (timerTurn g s).outcome := by
  cases ht : s.tick with
  | none =>
    cases g with
    | whole => rw [timerTurn_whole ht]; exact exec_noFault h .seTick
    | split => rw [timerTurn_split ht]; exact beginTick_noFault s
  | some todo =>
    rw [timerTurn_scanning ht]
    cases todo with
    | nil => exact noFault_next _
    | cons a as =>
      obtain ⟨hc, ha⟩ := h.todo_lt ht List.mem_cons_self
      exact .of_eq_next (scanCell_of_lt (s := s.withTick (some as)) hc ha)

end Sys2Proof.Machine

open Sys2Proof Sys2Proof.Machine

/-! ## The obligations of the memory -/

/-- Settles O7: the laws of one store. -/
theorem planeStoreThenRead : Obligations.PlaneStoreThenRead := by
  intro s a v ha
  refine ⟨_, storeCell_of_lt ha v, s.readCell_withPp_write_same a v, fun b hb => s.readCell_withPp_write_other v hb, rfl,
    fun b hb => ?_⟩
  rw [State.readCell, hb]; rfl

/-- Settles O47: a turn of HOST is the next store or the next pass of the parser's loop, and reads no schedule. -/
theorem splitOperationsEqualWhole : Obligations.SplitOperationsEqualWhole := by
  refine ⟨fun i s t hi e => ?_, fun i s t g e => ?_⟩
  · obtain ⟨todo, r, rfl, he⟩ := beginSplit_stores hi e
    exact ⟨_, (storeActions_eq_finishStores rfl).trans he.symm⟩
  · have stores (hi : i = .fbClear ∨ ∃ text x y k, i = .fbText text x y k) :
        ∃ n, steps n (t.withSched (List.replicate n ⟨.host, g⟩ ++ s.sched)) = exec i s := by
      obtain ⟨todo, r, rfl, he⟩ := beginSplit_stores hi e
      exact ⟨_, (steps_storing g s.sched rfl).trans he.symm⟩
    obtain hi | hi | ⟨bytes, hi⟩ | ⟨bytes, hi⟩ := (beginSplit_ne_none i s).1 (by simp [e])
    · exact stores (.inl hi)
    · exact stores (.inr hi)
    · exact steps_datagram g (.inl hi) e
    · exact steps_datagram g (.inr hi) e

/-- Settles O48: a turn of TIMER is the next cell's scan or the end of the phase step, and reads no schedule. -/
theorem splitTickEqualsWhole : Obligations.SplitTickEqualsWhole := by
  refine ⟨fun s t e => ?_, fun s g ts h => ?_⟩
  · have he : exec .seTick s = finishPhaseStep t := by
      show andThen (beginTick s) _ = _
      rw [e, andThen_next]
    obtain ⟨-, -, -, -, rfl⟩ := beginTick_eq_next e
    exact ⟨_, (scanActions_eq_scanAll rfl).trans he.symm⟩
  · have ⟨_, _, _, ht, _⟩ := h
    show steps _ (s.withSched _) = andThen (beginTick (s.withSched ts)) _
    rw [steps_turn, takeTurn, timerTurn_split (by exact ht)]
    show andThen (beginTick (s.withSched _)) _ = _
    rw [beginTick_of_canTick (by exact h), beginTick_of_canTick (by exact h)]
    exact steps_scanning (s := s.beginPhaseStep) g ts rfl

/-- Settles O55: whichever agent's turn is next, its action does not fault. -/
theorem invariantExcludesFaults : Obligations.InvariantExcludesFaults := by
  intro s f h
  rw [step_eq]
  suffices NoFault (nextAction s).outcome from this f
  unfold nextAction
  split
  · exact hostTurn_noFault h .whole
  · rename_i turn ts _
    unfold takeTurn
    split
    · exact hostTurn_noFault (h.withSched ts) turn.grain
    · exact timerTurn_noFault (h.withSched ts) turn.grain

end

section
/-! SUPPORT. The proofs about the encodings (30_encoding.md): what each decoder reads from what was encoded, how any text line is cut into
its fields, the values of fields as numbers, and what HOST's fetch answers where there is no command to issue. -/

namespace Sys2Proof.Machine

/-! ## Text records (R91 to R93) -/

theorem isDigit_iff (b : Byte) : isDigit b = true ↔ 0x30 ≤ b.toNat ∧ b.toNat ≤ 0x39 := by
  simp [isDigit]

theorem isDigit_eq_false_iff (b : Byte) : isDigit b = false ↔ ¬(0x30 ≤ b.toNat ∧ b.toNat ≤ 0x39) := by
  rw [← isDigit_iff, Bool.not_eq_true]

/-- The text decoder reads a record exactly where `PX ` stands: the fields that the bytes after it are cut into. -/
theorem decodeText_eq_ok {bs rest : List Byte} {i : Instr} :
    decodeText bs = .ok (i, rest) ↔ ∃ line t, bs = textPrefix ++ line ∧ splitLine line = (t, rest) ∧ i = .txtPx t := by
  unfold decodeText
  constructor
  · intro h
    split at h
    · rename_i hp
      cases h
      exact ⟨bs.drop 3, _, by rw [← hp, List.take_append_drop], rfl, rfl⟩
    · cases h
  · rintro ⟨line, t, rfl, hs, rfl⟩
    simp [textPrefix, hs]

theorem decodeText_encode {t : TextLine} (h : t.wellFormed = true) (rest : List Byte) :
    decodeText (encode (.txtPx t) ++ rest) = .ok (.txtPx t, rest) :=
  decodeText_eq_ok.2 ⟨t.bytes ++ rest, t, List.append_assoc .., splitLine_bytes h rest, rfl⟩

theorem eq_txtPx_of_text {i : Instr} (h : i.source = .text) : ∃ t, i = .txtPx t := by
  cases i <;> first | exact ⟨_, rfl⟩ | cases h

theorem encode_of_decodeText {bs rest : List Byte} {i : Instr} (h : decodeText bs = .ok (i, rest)) : encode i ++ rest = bs := by
  obtain ⟨line, t, rfl, hs, rfl⟩ := decodeText_eq_ok.1 h
  have happ := splitLine_append line
  rw [hs] at happ
  rw [encode, List.append_assoc, happ]

/-! ## The cut of any text line -/

theorem nextByte_fst (bs : List Byte) : (nextByte bs).1 = bs.head? := by cases bs <;> rfl

@[simp] theorem nextByte_nil : nextByte [] = (none, []) := rfl

theorem nextByte_eq_none {bs : List Byte} (h : (nextByte bs).1 = none) : bs = [] := by
  rwa [nextByte_fst, List.head?_eq_none_iff] at h

/-- The next byte is the one that stands first, or none where nothing does. -/
theorem nextByte_toList_append {o : Option Byte} {rest : List Byte} (h : o = none → rest = []) :
    nextByte (o.toList ++ rest) = (o, rest) := by
  cases o with
  | none => rw [h rfl]; rfl
  | some b => rfl

theorem takeWhile_isDigit (bs : List Byte) : ∀ b ∈ bs.takeWhile isDigit, 0x30 ≤ b.toNat ∧ b.toNat ≤ 0x39 :=
  fun b hb => (isDigit_iff b).1 (List.mem_takeWhile_imp hb)

/-- The byte after the longest run of digits is no digit. -/
theorem nextByte_dropWhile_isDigit {bs : List Byte} {b : Byte} (h : (nextByte (bs.dropWhile isDigit)).1 = some b) :
    ¬(0x30 ≤ b.toNat ∧ b.toNat ≤ 0x39) := by
  have := List.head?_dropWhile_not isDigit bs
  rw [← nextByte_fst, h] at this
  exact (isDigit_eq_false_iff b).1 this

/-- Digits that no digit follows are the longest run of digits. -/
theorem cut_digits {ds rest : List Byte} (hd : ∀ d ∈ ds, 0x30 ≤ d.toNat ∧ d.toNat ≤ 0x39)
    (hr : ∀ b, rest.head? = some b → ¬(0x30 ≤ b.toNat ∧ b.toNat ≤ 0x39)) :
    (ds ++ rest).takeWhile isDigit = ds ∧ (ds ++ rest).dropWhile isDigit = rest :=
  takeWhile_digits (List.all_eq_true.2 fun d hm => (isDigit_iff d).2 (hd d hm)) fun b hb => (isDigit_eq_false_iff b).2 (hr b hb)

/-- A number field and the byte after it are read back from where they stand. -/
theorem cut_number {ds rest : List Byte} {sep : Option Byte} (hd : ∀ d ∈ ds, 0x30 ≤ d.toNat ∧ d.toNat ≤ 0x39)
    (hs : ∀ b, sep = some b → ¬(0x30 ≤ b.toNat ∧ b.toNat ≤ 0x39)) (hr : sep = none → rest = []) :
    (ds ++ (sep.toList ++ rest)).takeWhile isDigit = ds ∧
      nextByte ((ds ++ (sep.toList ++ rest)).dropWhile isDigit) = (sep, rest) := by
  obtain ⟨ht, hdrop⟩ := cut_digits (rest := sep.toList ++ rest) hd (by rwa [← nextByte_fst, nextByte_toList_append hr])
  rw [ht, hdrop, nextByte_toList_append hr]
  exact ⟨rfl, rfl⟩

/-- The colour field and the byte after it are read back from where they stand. -/
theorem cut_colour {cs rest : List Byte} {term : Option Byte} (hc : cs.length ≤ 6) (hs : cs.length < 6 → term = none ∧ rest = [])
    (hr : term = none → rest = []) :
    (cs ++ (term.toList ++ rest)).take 6 = cs ∧ nextByte ((cs ++ (term.toList ++ rest)).drop 6) = (term, rest) := by
  obtain hlt | heq := hc.lt_or_eq
  · obtain ⟨rfl, rfl⟩ := hs hlt
    simp [List.take_of_length_le hc, List.drop_of_length_le hc, nextByte]
  · rw [← heq, List.take_left, List.drop_left, nextByte_toList_append hr]
    exact ⟨rfl, rfl⟩

theorem splitLine_cutAsFormat (bs : List Byte) : CutAsFormat (splitLine bs).1 (splitLine bs).2 where
  xDigits := takeWhile_isDigit _
  sep1 := fun _ => nextByte_dropWhile_isDigit
  sep1Missing := fun h => by simp [splitLine, nextByte_eq_none h]
  yDigits := takeWhile_isDigit _
  sep2 := fun _ => nextByte_dropWhile_isDigit
  sep2Missing := fun h => by simp [splitLine, nextByte_eq_none h]
  colour := List.length_take_le 6 _
  colourShort := fun h => by
    simp only [splitLine, List.length_take] at h ⊢
    rw [List.drop_of_length_le (by omega)]
    exact ⟨rfl, rfl⟩
  termMissing := fun h => by simp [splitLine, nextByte_eq_none h]

/-- A line is cut in exactly one way. -/
theorem splitLine_eq_iff (bs rest : List Byte) (t : TextLine) :
    splitLine bs = (t, rest) ↔ bs = t.bytes ++ rest ∧ CutAsFormat t rest := by
  constructor
  · intro h
    have happ := splitLine_append bs
    have hcut := splitLine_cutAsFormat bs
    rw [h] at happ hcut
    exact ⟨happ.symm, hcut⟩
  · rintro ⟨rfl, h⟩
    obtain ⟨xs, s1, ys, s2, cs, tm⟩ := t
    obtain ⟨tx, nx⟩ := cut_number (rest := ys ++ (s2.toList ++ (cs ++ (tm.toList ++ rest)))) h.xDigits h.sep1 (fun e => by
      obtain ⟨rfl, rfl, rfl, rfl, rfl⟩ := h.sep1Missing e; rfl)
    obtain ⟨ty, ny⟩ := cut_number (rest := cs ++ (tm.toList ++ rest)) h.yDigits h.sep2 (fun e => by
      obtain ⟨rfl, rfl, rfl⟩ := h.sep2Missing e; rfl)
    obtain ⟨tc, nc⟩ := cut_colour h.colour h.colourShort h.termMissing
    simp only [TextLine.bytes, List.append_assoc, splitLine, tx, nx, ty, ny, tc, nc]

/-! ## Digits and colour characters (R92, R93, R141) -/

/-- R92: each digit multiplies what stands before it by ten. -/
theorem foldl_digits (ds : List Byte) (n : Nat) :
    ds.foldl (fun n d => 10 * n + (d.toNat - 0x30)) n =
      n * 10 ^ ds.length + ∑ k : Fin ds.length, (ds[k].toNat - 0x30) * 10 ^ (ds.length - 1 - k.val) := by
  induction ds generalizing n with
  | nil => simp
  | cons d ds ih =>
    have hfirst : ∑ k : Fin (d :: ds).length, ((d :: ds)[k].toNat - 0x30) * 10 ^ ((d :: ds).length - 1 - k.val) =
        (d.toNat - 0x30) * 10 ^ ds.length + ∑ k : Fin ds.length, (ds[k].toNat - 0x30) * 10 ^ (ds.length - 1 - k.val) := by
      refine (Fin.sum_univ_succ (n := ds.length) _).trans ?_
      simp [Nat.sub_sub, Nat.add_comm]
    rw [List.foldl_cons, ih, hfirst, List.length_cons, pow_succ]
    ring

theorem hexValue_isSome (b : Byte) : (hexValue b).isSome ↔
    (0x30 ≤ b.toNat ∧ b.toNat ≤ 0x39) ∨ (0x41 ≤ b.toNat ∧ b.toNat ≤ 0x46) ∨ (0x61 ≤ b.toNat ∧ b.toNat ≤ 0x66) := by
  unfold hexValue
  split_ifs <;> simp [*]

theorem hexPair_some {hi lo : Byte} {h l : BitVec 4} (hh : hexValue hi = some h) (hl : hexValue lo = some l) (d : Nat) :
    hexPair hi lo d = (h ++ l, d) := by
  simp only [hexPair, hh, hl]

theorem hexPair_none {hi lo : Byte} (h : hexValue hi = none ∨ hexValue lo = none) (d : Nat) :
    hexPair hi lo d = (Config.draw d, d + 1) := by
  unfold hexPair
  split
  · rename_i hh hl
    simp [hh, hl] at h
  · rfl

/-! ## Fields of bits as numbers (R94, R100 to R103) -/

/-- The value of two fields side by side. -/
theorem append_toNat {m n : Nat} (x : BitVec m) (y : BitVec n) : (x ++ y).toNat = x.toNat * 2 ^ n + y.toNat := by
  rw [BitVec.toNat_append, ← Nat.shiftLeft_add_eq_or_of_lt y.isLt, Nat.shiftLeft_eq]

/-- A mask of `w` bits from bit `p` up leaves the field that stands there. -/
theorem and_field (n p w : Nat) : n &&& (2 ^ w - 1) * 2 ^ p = n / 2 ^ p % 2 ^ w * 2 ^ p := by
  apply Nat.eq_of_testBit_eq
  intro i
  rw [Nat.testBit_and, Nat.testBit_mul_two_pow, Nat.testBit_mul_two_pow, Nat.testBit_two_pow_sub_one, Nat.testBit_mod_two_pow,
    Nat.testBit_div_two_pow]
  by_cases h : p ≤ i
  · rw [Nat.sub_add_cancel h]
    simp [h, Bool.and_comm]
  · simp [h]

theorem and_mask_toNat (c m : Byte) (p w : Nat) (hm : m.toNat = (2 ^ w - 1) * 2 ^ p) :
    (c &&& m).toNat = c.toNat / 2 ^ p % 2 ^ w * 2 ^ p := by
  rw [BitVec.toNat_and, hm, and_field]

theorem le16_toNat (lo hi : Byte) : (le16 lo hi).toNat = lo.toNat + 256 * hi.toNat := by
  rw [le16, append_toNat]; omega

theorem packedX_toNat (b0 b1 : Byte) : (packedX b0 b1).toNat = b0.toNat + 256 * (b1.toNat % 16) := by
  rw [packedX, append_toNat, BitVec.extractLsb'_toNat, Nat.shiftRight_zero]; omega

theorem packedY_toNat (b1 b2 : Byte) : (packedY b1 b2).toNat = b1.toNat / 16 + 16 * b2.toNat := by
  rw [packedY, append_toNat, BitVec.extractLsb'_toNat, Nat.shiftRight_eq_div_pow]; omega

theorem alphaBit_toNat (flags : Byte) : (alphaBit flags).toNat = flags.toNat % 2 := by
  rw [alphaBit, ← BitVec.testBit_toNat, Nat.toNat_testBit]; simp

/-! ## Headers (R95, R110) -/

/-- R95: the format byte, and the alpha bit above it, of each layout. -/
theorem layoutOf_eq_some (fmt : Byte) (alpha : Bool) (l : Layout) :
    layoutOf fmt alpha = some l ↔
      (l, fmt.toNat + 256 * alpha.toNat) ∈
        [(Layout.bin0, 0x0000), (.bin0a, 0x0100), (.bin1, 0x0001), (.bin1a, 0x0101), (.bin2, 0x0002), (.bin2a, 0x0102)] ∨
      l = .bin3 ∧ fmt.toNat = 0x0003 := by
  have hfmt : ∀ k : Byte, fmt = k ↔ fmt.toNat = k.toNat := fun k => BitVec.toNat_inj.symm
  have hlt := fmt.isLt
  simp only [layoutOf, hfmt]
  generalize fmt.toNat = n at hlt ⊢
  match n with
  | 0 | 1 | 2 | 3 => cases alpha <;> cases l <;> decide
  | n + 4 =>
    have hn : n ≠ 252 ∧ n ≠ 253 ∧ n ≠ 254 := by omega
    cases alpha <;> cases l <;> simp [hn]

/-- R110: what the masks of the table's rows leave of the header word. -/
theorem headerWord_mask (fmt flags : Byte) :
    (fmt.toNat + 256 * flags.toNat) &&& 0x01FF = fmt.toNat + 256 * (alphaBit flags).toNat ∧
      (fmt.toNat + 256 * flags.toNat) &&& 0x00FF = fmt.toNat := by
  rw [alphaBit_toNat]
  constructor
  · rw [show 0x01FF = 2 ^ 9 - 1 from rfl, Nat.and_two_pow_sub_one_eq_mod]; omega
  · rw [show 0x00FF = 2 ^ 8 - 1 from rfl, Nat.and_two_pow_sub_one_eq_mod]; omega

/-! ## Binary records (R94 to R101) -/

/-- A record in its layout decodes to itself, the shared colour byte being its own. -/
theorem decodeRecord_encode {i : Instr} {l : Layout} {col : Byte} (hl : recordLayout i = some l)
    (hc : ∀ c, sharedColour i = some c → c = col) (rest : List Byte) :
    decodeRecord col l ((encode i).drop l.firstOffset ++ rest) = .ok (i, rest) := by
  cases i <;> cases hl
  case' bin3 c x y => obtain rfl := hc c rfl
  all_goals
    simp [encode, Layout.firstOffset, le16Bytes, packedBytes, decodeRecord, le16_le16Bytes, packedX_packedBytes, packedY_packedBytes]

/-- The header of an encoded record chooses its layout, and holds its shared colour byte. -/
theorem decodeHeader_encode {i : Instr} {l : Layout} (hl : recordLayout i = some l) (rest : List Byte) :
    decodeHeader (encode i ++ rest) = .ok ((l, (sharedColour i).getD 0), (encode i).drop l.firstOffset ++ rest) := by
  cases i <;> cases hl <;> rfl

theorem decodeBinary_encode {i : Instr} {l : Layout} (hl : recordLayout i = some l) (rest : List Byte) :
    decodeBinary (encode i ++ rest) = .ok (i, rest) := by
  simp only [decodeBinary, decodeHeader_encode hl]
  exact decodeRecord_encode hl (fun c hc => by rw [hc]; rfl) rest

theorem recordLayout_of_binary {i : Instr} (h : i.source = .binary) : ∃ l, recordLayout i = some l := by
  cases i <;> first | exact ⟨_, rfl⟩ | cases h

/-- What a record was read from is its layout's part of its encoding. -/
theorem encode_of_decodeRecord {col : Byte} {l : Layout} {bs rest : List Byte} {i : Instr}
    (h : decodeRecord col l bs = .ok (i, rest)) : recordLayout i = some l ∧ (encode i).drop l.firstOffset ++ rest = bs := by
  unfold decodeRecord at h
  split at h
  all_goals cases h
  all_goals exact ⟨rfl, by simp [encode, Layout.firstOffset, le16Bytes_le16, packedBytes_packed]⟩

/-! ## Command words (R107) -/

@[simp] theorem withOperand_ok {α β : Type} (a : α) (bs : List Byte) (k : α → List Byte → Parsed β) :
    withOperand (.ok (a, bs)) k = k a bs := rfl

theorem takeByte_cons (b : Byte) (bs : List Byte) : takeByte (b :: bs) = .ok (b, bs) := rfl

theorem decodeCommandPrefix_cons {b : Byte} {op : Opcode} (h : commandTable.lookup b = some op) (bs : List Byte) :
    decodeCommandPrefix (b :: bs) = decodeOperands op bs := by
  simp only [decodeCommandPrefix, h]

/-- An opcode that the table lists, then operands that read back, are the command. -/
theorem decodeCommandPrefix_encode {i : Instr} (hi : i.source = .command) (rest : List Byte) :
    decodeCommandPrefix (encode i ++ rest) = .ok (i, rest) := by
  cases i <;> cases hi
  all_goals
    simp only [encode, List.append_assoc, List.cons_append, List.nil_append]
    rw [decodeCommandPrefix_cons rfl]
    simp only [decodeOperands, takeNat_natBytes, takeExponent_exponentBytes, takeBool_boolBytes, takeInt_intBytes, takeByte_cons,
      takeBytes_listBytes, takePort_le16Bytes, withOperand_ok]
  case seInit m => cases m <;> rfl

theorem decode_of_decodePrefix {src : Source} {bs : List Byte} {i : Instr} (h : decodePrefix src bs = .ok (i, [])) :
    decode src bs = .ok i := by
  rw [decode, h]
  rfl

theorem decodeCommand_reserved {b : Byte} (h : commandTable.lookup b = none) (bs : List Byte) :
    decodeCommand (b :: bs) = .error .reservedOpcode := by
  simp only [decodeCommand, decodeCommandPrefix, h, whole]

/-! ## A datagram that its header stops (R143) -/

/-- R106 (c): a datagram too short for its header. -/
theorem headerRegs_short {bytes : List Byte} (h : bytes.length < 2 ∨ bytes.length = 2 ∧ bytes.head? = some 3) (pd : PdRegs) :
    (headerRegs pd bytes).2 = some .shortHeader := by
  match bytes with
  | [] | [_] => rfl
  | [fmt, flags] =>
    obtain rfl : fmt = 3 := by simpa using h
    rfl
  | _ :: _ :: _ :: _ => simp at h

/-- A datagram that its header stops has changed the parser's registers, and ends with the header's cause. -/
theorem exec_pdRxbin_header_stop {s : State} {bytes : List Byte} {c : StopCause} (hc : s.canParse = true)
    (h : (headerRegs s.pd bytes).2 = some c) :
    exec (.pdRxbin bytes) s = .next ((s.withPd (headerRegs s.pd bytes).1).stopDatagram c) := by
  have hl : s.loadBinary bytes = (s.withPd (headerRegs s.pd bytes).1).stopDatagram c := by
    have hq : headerRegs s.pd bytes = ((headerRegs s.pd bytes).1, some c) := Prod.ext rfl h
    rw [State.loadBinary, hq]
  rw [exec_pdRxbin hc, hl, parseAll_idle rfl]

/-! ## HOST's fetch -/

theorem hostFetch_empty {s : State} (h : s.inbox = []) (g : Grain) : hostFetch g s = .act (.next s) := by
  simp only [hostFetch, h]

theorem hostFetch_error {s : State} {w : List Byte} {ws : List (List Byte)} {e : DecodeError} (hin : s.inbox = w :: ws)
    (hd : decodeCommand w = .error e) (g : Grain) : hostFetch g s = .act (.refused (commandRefusal e)) := by
  simp only [hostFetch, hin, hd]

end Sys2Proof.Machine

open Sys2Proof Sys2Proof.Machine

/-! ## The obligations of the encodings -/

/-- Settles O56: a text line is cut into its own fields, and a binary record's header chooses its layout. -/
theorem recordsRoundTrip : Obligations.RecordsRoundTrip := by
  intro i hi hw
  apply decode_of_decodePrefix
  rw [← List.append_nil (encode i)]
  cases hs : i.source with
  | text =>
    obtain ⟨t, rfl⟩ := eq_txtPx_of_text hs
    exact decodeText_encode hw []
  | binary =>
    obtain ⟨l, hl⟩ := recordLayout_of_binary hs
    exact decodeBinary_encode hl []
  | command => exact absurd hs hi

/-- Settles O12: each digit multiplies what stands before it by ten, and the field ends at the first byte that is none. -/
theorem decimalFieldValue : Obligations.DecimalFieldValue := by
  refine ⟨fun ds => ?_, fun ds rest hd hr => ?_⟩
  · rw [decimalValue, foldl_digits, Nat.zero_mul, Nat.zero_add]
  · exact (cut_digits hd hr).1

/-- Settles O13: the bytes after `PX ` are cut in exactly one way. -/
theorem textLineFields : Obligations.TextLineFields := by
  intro bytes rest t
  have hfields : [0x50, 0x58, 0x20] ++ t.xDigits ++ t.sep1.toList ++ t.yDigits ++ t.sep2.toList ++ t.colour ++ t.term.toList ++ rest =
      textPrefix ++ (t.bytes ++ rest) := by simp [textPrefix, TextLine.bytes]
  rw [hfields, decodeText_eq_ok]
  constructor
  · rintro ⟨line, t, rfl, hs, ⟨⟩⟩
    obtain ⟨rfl, hcut⟩ := (splitLine_eq_iff line rest t).1 hs
    exact ⟨rfl, hcut⟩
  · rintro ⟨rfl, hcut⟩
    exact ⟨_, t, rfl, (splitLine_eq_iff _ rest t).2 ⟨rfl, hcut⟩, rfl⟩

/-- Settles O22: the header stops the datagram before its first record. -/
theorem shortHeaderDrawsNothing : Obligations.ShortHeaderDrawsNothing :=
  fun _ s hc h => ⟨_, exec_pdRxbin_header_stop hc (headerRegs_short h s.pd), rfl⟩

/-- Settles O57: the opcode chooses the operands' readers, and each reads back what was written. -/
theorem commandsRoundTrip : Obligations.CommandsRoundTrip := by
  intro i hi
  apply decode_of_decodePrefix
  rw [← List.append_nil (encode i)]
  exact decodeCommandPrefix_encode hi []

/-- Settles O58: the fields of a line, and of a record of each layout, put back in order are the bytes read. -/
theorem decodingDropsNothing : Obligations.DecodingDropsNothing := by
  refine ⟨fun bs rest i h => encode_of_decodeText h, fun bs rest col l i h => ?_⟩
  obtain ⟨hl, hb⟩ := encode_of_decodeRecord h
  exact ⟨hl, hb, decodeRecord_length h⟩

/-- Settles O59: the header word under a mask is the format, and the alpha bit above it where the mask keeps that. -/
theorem headerWordSelectsLayout : Obligations.HeaderWordSelectsLayout := by
  intro fmt flags l
  obtain ⟨h9, h8⟩ := headerWord_mask fmt flags
  rw [h9, h8]
  exact layoutOf_eq_some fmt (alphaBit flags) l

/-- Settles O14: the digits by evaluation, a pair as the value of two fields side by side. -/
theorem hexColourField : Obligations.HexColourField := by
  refine ⟨by decide, by decide, hexValue_isSome, fun hi lo h l d hh hl => ?_, fun hi lo d h => hexPair_none h d,
    fun c0 c1 c2 c3 c4 c5 d => ⟨_, _, rfl, rfl, rfl, rfl, rfl⟩⟩
  rw [hexPair_some hh hl, append_toNat]
  omega

/-- Settles O19: the halves of a three-byte word, x low. -/
theorem binaryRecordFields : Obligations.BinaryRecordFields := by
  intro col b0 b1 b2 b3 b4 b5 b6 b7 rest
  have hlow : (b1 &&& 0x0F).toNat = b1.toNat % 16 := by rw [and_mask_toNat b1 0x0F 0 4 rfl]; omega
  have hhigh : (b1 >>> 4).toNat = b1.toNat / 16 := by rw [BitVec.toNat_ushiftRight, Nat.shiftRight_eq_div_pow]
  refine ⟨⟨le16 b0 b1, le16 b2 b3, le16_toNat b0 b1, le16_toNat b2 b3, rfl, rfl⟩, packedX b0 b1, packedY b1 b2, ?_, ?_, ?_, ?_,
    rfl, rfl, rfl, rfl, rfl⟩
  · rw [packedX_toNat, hlow]
  · rw [packedY_toNat, hhigh]
  · rw [packedX_toNat]; omega
  · rw [packedY_toNat]; omega

/-- Settles O20: each channel is a mask of the colour byte, shifted to the channel's top. -/
theorem colourByteExpansion : Obligations.ColourByteExpansion := by
  intro c
  have hc := c.isLt
  simp only [expand332, expand2222, BitVec.toNat_shiftLeft, Nat.shiftLeft_eq, and_mask_toNat c 0xE0 5 3 rfl,
    and_mask_toNat c 0x1C 2 3 rfl, and_mask_toNat c 0x03 0 2 rfl, and_mask_toNat c 0xC0 6 2 rfl, and_mask_toNat c 0x30 4 2 rfl,
    and_mask_toNat c 0x0C 2 2 rfl]
  omega

/-- Settles O51: HOST's fetch, by what the inbox holds. -/
theorem hostPollsAndRefuses : Obligations.HostPollsAndRefuses := by
  intro s u g hg hh
  have hidle := hg.host.trans hh
  rw [step_of_hostGoes hg, ← hg.inbox]
  refine ⟨fun hin => ?_, fun b bs ws hin hb => ?_, fun ws hin => ?_⟩
  · rw [hostTurn_idle hidle, hostFetch_empty hin]; rfl
  · have hnone : commandTable.lookup b = none := by
      rw [List.lookup_eq_none_iff]
      simpa [commandTable] using hb
    rw [hostTurn_idle hidle, hostFetch_error hin (decodeCommand_reserved hnone bs)]; rfl
  · rw [hostTurn_command hidle hin (i := .seTick) rfl]; rfl

/-- Settles O60: the decoder evaluated on each of the twelve words. -/
theorem sampleWordsDecode : Obligations.SampleWordsDecode := by
  unfold Obligations.SampleWordsDecode
  decide

end

section
/-! SUPPORT. The proofs about the parser (40_protocol_decoder.md): what one record does, by its tests; what one pass of the parser's loop
does, by what stands at the cursor; and that a datagram is its records executed one after another. -/

namespace Sys2Proof.Machine

/-! ## The one cell that a record writes (R65, R137, R146) -/

theorem storesOnly_write (s : State) {t : State} {a : Nat} {v : Byte} (h : t.pp = s.pp.write a v) : StoresOnly s t a v := by
  refine ⟨?_, fun b hb => ?_⟩
  · rw [h, Memory.read?_write_same]
  · rw [SameCell, h, Memory.read?_write_other _ _ hb]

theorem State.outside_eq_true_iff (s : State) (x y : Nat) : s.outside x y = true ↔ s.fbW ≤ x ∨ s.fbH ≤ y := by
  simp [State.outside]

theorem State.outside_eq_false_iff (s : State) (x y : Nat) : s.outside x y = false ↔ x < s.fbW ∧ y < s.fbH := by
  simp [State.outside]

/-- The coordinate lies off the panel exactly where it does not lie on it (D7). -/
theorem outside_of_not_onPanel {s : State} {i : Instr} (h : ¬ OnPanel s i) :
    s.outside (recordCoords i).1 (recordCoords i).2 = true := by
  rw [State.outside_eq_true_iff]
  unfold OnPanel at h
  omega

/-! ## Binary records (R143, R146 to R153) -/

/-- Every binary record is the common tail with its own coordinate, colour and size. -/
theorem exec_binary {i : Instr} {l : Layout} (hl : recordLayout i = some l) (s : State) :
    exec i s = binaryRecord (recordCoords i).1 (recordCoords i).2 (binaryColour i) l.recordSize s := by
  cases i <;> cases hl <;> rfl

theorem exec_binary_onPanel {i : Instr} {l : Layout} {s : State} (hl : recordLayout i = some l) (hc : s.canParse = true)
    (hp : OnPanel s i) :
    exec i s = .next ((s.withPp (s.pp.write (s.cellIndex (recordCoords i).1 (recordCoords i).2)
      (s.gamma (binaryColour i).gray))).advance l.recordSize) := by
  have hin : s.outside (recordCoords i).1 (recordCoords i).2 = false := (s.outside_eq_false_iff _ _).2 hp
  rw [exec_binary hl, binaryRecord, if_pos hc, hin, writePixel_of_lt _ hp.1 hp.2]
  rfl

theorem exec_binary_outside {i : Instr} {l : Layout} {s : State} (hl : recordLayout i = some l) (hc : s.canParse = true)
    (ho : s.outside (recordCoords i).1 (recordCoords i).2 = true) : exec i s = .next (s.stopDatagram .outOfBounds) := by
  rw [exec_binary hl, binaryRecord, if_pos hc, if_pos ho]

theorem source_of_recordLayout {i : Instr} {l : Layout} (hl : recordLayout i = some l) : i.source = .binary := by
  cases i <;> cases hl <;> rfl

theorem recordBytes_of_recordLayout {i : Instr} {l : Layout} (hl : recordLayout i = some l) : recordBytes i = l.recordSize := by
  cases i <;> cases hl <;> rfl

theorem encode_drop_length {i : Instr} {l : Layout} (hl : recordLayout i = some l) :
    ((encode i).drop l.firstOffset).length = l.recordSize := by
  cases i <;> cases hl <;> rfl

/-- R99: only a record of variant 3 shares a colour byte. -/
theorem eq_bin3_of_sharedColour {i : Instr} {l : Layout} {c : Byte} (hl : recordLayout i = some l) (h : sharedColour i = some c) :
    l = .bin3 := by
  cases i <;> cases h; cases hl; rfl

/-! ## Text records (R133, R135 to R140) -/

/-- R133 steps 2 to 5: both numbers and both single spaces stand in the line. -/
structure FieldsRead (t : TextLine) : Prop where
  x : t.xDigits ≠ []
  sep1 : t.sep1 = some 0x20
  y : t.yDigits ≠ []
  sep2 : t.sep2 = some 0x20

theorem exec_txtPx_fieldsRead {t : TextLine} {s : State} (hc : s.canParse = true) (h : FieldsRead t) :
    exec (.txtPx t) s = if s.outside (decimalValue t.xDigits) (decimalValue t.yDigits) then .next (s.stopDatagram .outOfBounds)
      else textTail t (decimalValue t.xDigits) (decimalValue t.yDigits) s := by
  simp only [exec, execTxtPx, hc, if_true, h.x, h.sep1, h.y, h.sep2, if_false, ne_eq, not_true_eq_false]

theorem exec_txtPx_not_fieldsRead {t : TextLine} {s : State} (hc : s.canParse = true) (h : ¬ FieldsRead t) :
    ∃ c, exec (.txtPx t) s = .next (s.stopDatagram c) := by
  show ∃ c, execTxtPx t s = _
  rw [execTxtPx, if_pos hc]
  split_ifs with hx hs1 hy hs2
  · exact ⟨_, rfl⟩
  · exact ⟨_, rfl⟩
  · exact ⟨_, rfl⟩
  · exact ⟨_, rfl⟩
  all_goals exact absurd ⟨hx, not_not.1 hs1, hy, not_not.1 hs2⟩ h

/-- R137: a coordinate off the panel ends the datagram. -/
theorem exec_txtPx_outside {t : TextLine} {s : State} (hc : s.canParse = true) (h : FieldsRead t)
    (ho : s.outside (decimalValue t.xDigits) (decimalValue t.yDigits) = true) :
    exec (.txtPx t) s = .next (s.stopDatagram .outOfBounds) := by
  rw [exec_txtPx_fieldsRead hc h, if_pos ho]

/-- R137: on the panel, what remains is the tail. -/
theorem exec_txtPx_inside {t : TextLine} {s : State} (hc : s.canParse = true) (h : FieldsRead t) (hp : OnPanel s (.txtPx t)) :
    exec (.txtPx t) s = textTail t (decimalValue t.xDigits) (decimalValue t.yDigits) s := by
  have hin : s.outside (decimalValue t.xDigits) (decimalValue t.yDigits) = false := (s.outside_eq_false_iff _ _).2 hp
  rw [exec_txtPx_fieldsRead hc h, hin, if_neg Bool.false_ne_true]

/-- R93, R138: six characters are a colour, whatever they are. -/
theorem textColour_of_length {cs : List Byte} (h : cs.length = 6) (d : Nat) : ∃ c d', textColour cs d = some (c, d') := by
  match cs, h with
  | [_, _, _, _, _, _], _ => exact ⟨_, _, rfl⟩

theorem textColour_short {cs : List Byte} (h : cs.length < 6) (d : Nat) : textColour cs d = none := by
  unfold textColour
  split
  · simp at h
  · rfl

/-- R138: on the panel, fewer than six characters of colour end it. -/
theorem exec_txtPx_short {t : TextLine} {s : State} (hc : s.canParse = true) (h : FieldsRead t) (hp : OnPanel s (.txtPx t))
    (hs : t.colour.length < 6) : exec (.txtPx t) s = .next (s.stopDatagram .shortColour) := by
  rw [exec_txtPx_inside hc h hp, textTail, textColour_short hs]

/-- The state after a text record's write (R139). -/
def State.afterTextWrite (s : State) (t : TextLine) (c : Rgb) (d : Nat) : State :=
  (s.withDraws d).withPp (s.pp.write (s.cellIndex (decimalValue t.xDigits) (decimalValue t.yDigits)) (s.gamma c.gray))

/-- R139, R140: the write comes before the terminator is looked at. -/
theorem exec_txtPx_writes {t : TextLine} {c : Rgb} {d : Nat} {s : State} (hc : s.canParse = true) (h : FieldsRead t)
    (hp : OnPanel s (.txtPx t)) (hcol : textColour t.colour s.draws = some (c, d)) :
    exec (.txtPx t) s = .next (if t.term = some 0x0A then (s.afterTextWrite t c d).advance (lineSize t)
      else (s.afterTextWrite t c d).stopDatagram .noTerminator) := by
  have hw : writePixel (decimalValue t.xDigits) (decimalValue t.yDigits) c.gray (s.withDraws d) = .next (s.afterTextWrite t c d) :=
    writePixel_of_lt (s := s.withDraws d) _ hp.1 hp.2
  rw [exec_txtPx_inside hc h hp, textTail, hcol]
  simp only [hw, andThen_next]
  split <;> rfl

/-- R91: what the printed format asks of a line. -/
theorem wellFormed_line_iff (t : TextLine) : t.wellFormed = true ↔
    FieldsRead t ∧ (∀ b ∈ t.xDigits ++ t.yDigits, isDigit b = true) ∧ t.colour.length = 6 ∧ t.term = some 0x0A := by
  simp only [TextLine.wellFormed, wellFormedNumber, Bool.and_eq_true, beq_iff_eq, Bool.not_eq_true', List.isEmpty_eq_false_iff,
    List.all_eq_true, List.mem_append]
  constructor
  · rintro ⟨⟨⟨⟨⟨⟨hx, hxd⟩, hs1⟩, hy, hyd⟩, hs2⟩, hcol⟩, hterm⟩
    exact ⟨⟨hx, hs1, hy, hs2⟩, fun b hb => hb.elim (hxd b) (hyd b), hcol, hterm⟩
  · rintro ⟨⟨hx, hs1, hy, hs2⟩, hd, hcol, hterm⟩
    exact ⟨⟨⟨⟨⟨⟨hx, fun b hb => hd b (.inl hb)⟩, hs1⟩, hy, fun b hb => hd b (.inr hb)⟩, hs2⟩, hcol⟩, hterm⟩

/-- A line that the decoder cut and that breaks the format, or lies off the panel, ends the datagram (R135 to R138, R140). -/
theorem exec_txtPx_bad {t : TextLine} {rest : List Byte} {s : State} (hc : s.canParse = true) (hcut : CutAsFormat t rest)
    (hbad : ¬(t.wellFormed = true ∧ OnPanel s (.txtPx t))) : ∃ u, exec (.txtPx t) s = .next u ∧ u.host = .idle := by
  by_cases hf : FieldsRead t
  · by_cases hp : OnPanel s (.txtPx t)
    · obtain hshort | hsix := hcut.colour.lt_or_eq
      · exact ⟨_, exec_txtPx_short hc hf hp hshort, rfl⟩
      · have hterm : t.term ≠ some 0x0A := fun hterm =>
          hbad ⟨(wellFormed_line_iff t).2 ⟨hf, fun b hb => (isDigit_iff b).2
            ((List.mem_append.1 hb).elim (hcut.xDigits b) (hcut.yDigits b)), hsix, hterm⟩, hp⟩
        obtain ⟨c, d, hcol⟩ := textColour_of_length hsix s.draws
        exact ⟨_, exec_txtPx_writes hc hf hp hcol, by rw [if_neg hterm]; rfl⟩
    · exact ⟨_, exec_txtPx_outside hc hf (outside_of_not_onPanel hp), rfl⟩
  · obtain ⟨c, h⟩ := exec_txtPx_not_fieldsRead hc hf
    exact ⟨_, h, rfl⟩

theorem encode_txtPx_length (t : TextLine) : (encode (.txtPx t)).length = lineSize t := List.length_append

/-! ## One pass of the parser's loop, by what stands at the cursor (R134, R145) -/

/-- The datagram's end, or bytes that do not begin with `PX `. -/
theorem fetchRecord_text_stop {bytes : List Byte} {pd : PdRegs} (hl : pd.len = bytes.length)
    (h : (bytes.drop pd.pos).take 3 ≠ textPrefix) :
    fetchRecord .text bytes pd = .stop (if bytes.drop pd.pos = [] then .endOfData else .badPrefix) := by
  simp only [fetchRecord, hl, List.take_length, decodeText, if_neg h, List.drop_eq_nil_iff]
  split <;> rfl

theorem fetchRecord_text_decoded {bytes rest : List Byte} {pd : PdRegs} {i : Instr} (hl : pd.len = bytes.length)
    (hd : decodeText (bytes.drop pd.pos) = .ok (i, rest)) : fetchRecord .text bytes pd = .record i := by
  obtain ⟨t, -, hlen⟩ := decodeText_source hd
  rw [List.length_drop] at hlen
  refine fetchRecord_text_record (rest := rest) ?_ (by rwa [hl, List.take_length])
  simp only [lineSize, textPrefix, List.length_cons] at hlen
  omega

/-- Where `PX ` stands, the decoder reads a record. -/
theorem decodeText_of_textPrefix {bs : List Byte} (h : bs.take 3 = textPrefix) : ∃ t rest, decodeText bs = .ok (.txtPx t, rest) :=
  ⟨_, _, if_pos h⟩

theorem fetchRecord_binary_stop {bytes : List Byte} {pd : PdRegs} (h : pd.len - pd.pos < pd.recSize) :
    fetchRecord .binary bytes pd = .stop .endOfData := if_pos h

/-- Where nothing more is to be read, HOST's step ends the datagram, whatever the grain. -/
theorem step_stop {s u : State} {g : Grain} {channel : Channel} {bytes : List Byte} {c : StopCause} (h : HostGoes s g u)
    (hh : s.host = .parsing channel bytes) (hf : fetchRecord channel bytes s.pd = .stop c) : step s = .next (u.stopDatagram c) := by
  rw [step_of_hostGoes h, hostTurn_stop (h.host.trans hh) (h.pd ▸ hf)]
  rfl

theorem parseStep_stop {channel : Channel} {bytes : List Byte} {s : State} {c : StopCause}
    (hf : fetchRecord channel bytes s.pd = .stop c) : parseStep channel bytes s = .next (s.stopDatagram c) := by
  rw [parseStep, hf]

theorem parseStep_record {channel : Channel} {bytes : List Byte} {s : State} {i : Instr} (hi : i.source ≠ .command)
    (hf : fetchRecord channel bytes s.pd = .record i) : parseStep channel bytes s = exec i s := by
  rw [parseStep, hf]
  exact runRecord_eq_exec hi s

/-! ## A datagram's records, one after another (R132, R143) -/

/-- A wire record in its format and on the panel: it draws, and the datagram goes on after it. -/
structure GoodRecord (s : State) (i : Instr) : Prop where
  source : i.source ≠ .command
  wellFormed : i.wellFormed = true
  onPanel : OnPanel s i

theorem recordBytes_pos {i : Instr} (hi : i.source ≠ .command) : 0 < recordBytes i := by
  cases hs : i.source with
  | text => obtain ⟨t, rfl⟩ := eq_txtPx_of_text hs; simp [recordBytes, lineSize, textPrefix]
  | binary =>
    obtain ⟨l, hl⟩ := recordLayout_of_binary hs
    rw [recordBytes_of_recordLayout hl]
    exact recordSize_pos l
  | command => exact absurd hs hi

theorem ParserChanges.onPanel_iff {s t : State} (h : ParserChanges s t) (i : Instr) : OnPanel t i ↔ OnPanel s i := by
  rw [h.2]; rfl

theorem GoodRecord.after {s t : State} {i : Instr} (h : GoodRecord s i) (hch : ParserChanges s t) : GoodRecord t i :=
  ⟨h.source, h.wellFormed, (hch.onPanel_iff i).2 h.onPanel⟩

theorem goodRecord_of_recordLayout {i : Instr} {l : Layout} {s : State} (hl : recordLayout i = some l) (hp : OnPanel s i) :
    GoodRecord s i := by
  refine ⟨by rw [source_of_recordLayout hl]; decide, ?_, hp⟩
  cases i <;> cases hl <;> rfl

/-- R159: a good record moves the cursor by its length, and HOST is still parsing. -/
theorem exec_goodRecord {i : Instr} {s : State} (hc : s.canParse = true) (h : GoodRecord s i) :
    ∃ t, exec i s = .next t ∧ ParserChanges s t ∧ t.host = s.host ∧ t.pd = { s.pd with pos := s.pd.pos + recordBytes i } := by
  suffices ∃ t, exec i s = .next t ∧ t.host = s.host ∧ t.pd = { s.pd with pos := s.pd.pos + recordBytes i } by
    obtain ⟨t, ht, hrest⟩ := this
    exact ⟨t, ht, (exec_parser ht (.inl h.source)).2, hrest⟩
  cases hs : i.source with
  | text =>
    obtain ⟨t, rfl⟩ := eq_txtPx_of_text hs
    obtain ⟨hf, -, hsix, hterm⟩ := (wellFormed_line_iff t).1 h.wellFormed
    obtain ⟨c, d, hcol⟩ := textColour_of_length hsix s.draws
    have hw := exec_txtPx_writes hc hf h.onPanel hcol
    rw [if_pos hterm] at hw
    exact ⟨_, hw, rfl, rfl⟩
  | binary =>
    obtain ⟨l, hl⟩ := recordLayout_of_binary hs
    rw [recordBytes_of_recordLayout hl]
    exact ⟨_, exec_binary_onPanel hl hc h.onPanel, rfl, rfl⟩
  | command => exact absurd hs h.source

/-- Wherever the bytes of the record stand at the cursor, the record is fetched, and they are as many as the cursor then moves. -/
structure FetchedFrom (channel : Channel) (bytes : List Byte) (pd : PdRegs) (i : Instr) (bs : List Byte) : Prop where
  length : bs.length = recordBytes i
  fetch : ∀ pos rest, bytes.drop pos = bs ++ rest → fetchRecord channel bytes { pd with pos := pos } = .record i

/-- Good records that stand one after another at the cursor are executed one after another; the pass after them, where it ends the
datagram, ends the loop. -/
theorem parseAll_records {channel : Channel} {bytes tail : List Byte} {is : List Instr} {f : Instr → List Byte} {s : State} {n : Nat}
    (hc : s.canParse = true) (hh : s.host = .parsing channel bytes) (hgood : ∀ i ∈ is, GoodRecord s i)
    (hfetch : ∀ i ∈ is, FetchedFrom channel bytes s.pd i (f i)) (hbytes : bytes.drop s.pd.pos = is.flatMap f ++ tail)
    (hn : (bytes.drop s.pd.pos).length < n) :
    ∃ v, execAll is s = .next v ∧ ParserChanges s v ∧ v.pd = { s.pd with pos := v.pd.pos } ∧ bytes.drop v.pd.pos = tail ∧
      ∀ t, parseStep channel bytes v = .next t → t.host = .idle → parseAll n s = .next t := by
  induction n generalizing is s with
  | zero => omega
  | succ n ih =>
    have hloop : parseAll (n + 1) s = andThen (parseStep channel bytes s) (parseAll n) := by rw [parseAll, hh]
    cases is with
    | nil =>
      refine ⟨s, rfl, parserChanges_refl s, rfl, hbytes, fun t ht hidle => ?_⟩
      rw [hloop, ht, andThen_next, parseAll_idle hidle]
    | cons i is =>
      obtain ⟨hi, his⟩ := List.forall_mem_cons.1 hgood
      obtain ⟨hfi, hfis⟩ := List.forall_mem_cons.1 hfetch
      rw [List.flatMap_cons, List.append_assoc] at hbytes
      obtain ⟨u, hu, hch, hhost, hpd⟩ := exec_goodRecord hc hi
      have hpass : parseStep channel bytes s = .next u := (parseStep_record hi.source (hfi.fetch _ _ hbytes)).trans hu
      have hdrop : bytes.drop u.pd.pos = is.flatMap f ++ tail := by
        rw [hpd, ← List.drop_drop, hbytes, ← hfi.length, List.drop_left]
      have hshort : (bytes.drop u.pd.pos).length < n := by
        have hpos := recordBytes_pos hi.source
        rw [hbytes, List.length_append, hfi.length] at hn
        rw [hdrop]
        omega
      obtain ⟨v, hv, hchv, hpdv, hend, hlast⟩ := ih (hch.canParse.trans hc) (hhost.trans hh) (fun j hj => (his j hj).after hch)
        (fun j hj => ⟨(hfis j hj).length, by rw [hpd]; exact (hfis j hj).fetch⟩) hdrop hshort
      refine ⟨v, ?_, hch.trans hchv, hpdv.trans (by rw [hpd]), hend, fun t ht hidle => ?_⟩
      · rw [execAll, hu, andThen_next, hv]
      · rw [hloop, hpass, andThen_next, hlast t ht hidle]

/-- R132, R143: a whole datagram comes to its end, with a cause that belongs to a datagram. -/
theorem exec_datagram_cause {i : Instr} {bytes : List Byte} {s : State} (hc : s.canParse = true)
    (hi : i = .pdRxtext bytes ∨ i = .pdRxbin bytes) :
    ∃ t c, exec i s = .next t ∧ ParserChanges s t ∧ t.host = .idle ∧ StopCause.number c ≤ 8 ∧ t.report = ⟨.none, some c⟩ := by
  rcases hi with rfl | rfl
  · have hl := loadText_parserChanges s bytes
    obtain ⟨t, c, ht, hch, hrest⟩ := parseAll_ends (hl.canParse.trans hc) rfl (loadText_ready s bytes) (Nat.lt_succ_self _)
    exact ⟨t, c, (exec_pdRxtext hc bytes).trans ht, hl.trans hch, hrest⟩
  · rw [exec_pdRxbin hc]
    obtain ⟨hl, ⟨hidle, c, hrest⟩ | ⟨hh, hr⟩⟩ := loadBinary_cases s bytes
    · exact ⟨_, c, parseAll_idle hidle _, hl, hidle, hrest⟩
    · obtain ⟨t, c, ht, hch, hrest⟩ := parseAll_ends (hl.canParse.trans hc) hh hr (n := bytes.length + 1) (by rw [hr.1]; omega)
      exact ⟨t, c, ht, hl.trans hch, hrest⟩

/-! ## The two channels' records at the cursor (R91, R94, R95, R99) -/

theorem fetchedFrom_text {i : Instr} (hs : i.source = .text) (hw : i.wellFormed = true) {bytes : List Byte} {pd : PdRegs}
    (hl : pd.len = bytes.length) : FetchedFrom .text bytes pd i (encode i) := by
  obtain ⟨t, rfl⟩ := eq_txtPx_of_text hs
  exact ⟨encode_txtPx_length t, fun pos rest h =>
    fetchRecord_text_decoded (pd := { pd with pos := pos }) hl (h ▸ decodeText_encode hw rest)⟩

theorem fetchedFrom_binary {i : Instr} {l : Layout} (hl : recordLayout i = some l) {bytes : List Byte} {pd : PdRegs}
    (hlen : pd.len = bytes.length) (hf : layoutOf pd.fmt pd.alpha = some l) (hr : pd.recSize = l.recordSize)
    (hcol : ∀ c, sharedColour i = some c → c = pd.col) :
    FetchedFrom .binary bytes pd i ((encode i).drop l.firstOffset) := by
  refine ⟨(encode_drop_length hl).trans (recordBytes_of_recordLayout hl).symm, fun pos rest h => ?_⟩
  refine fetchRecord_binary_record (pd := { pd with pos := pos }) ?_ hf (h ▸ decodeRecord_encode hl hcol rest)
  have := congrArg List.length h
  rw [List.length_drop, List.length_append, encode_drop_length hl] at this
  simp only [hr, hlen]
  omega

/-- R132: a text datagram's good records are executed one after another from its first byte on. -/
theorem exec_pdRxtext_records {is : List Instr} {tail bytes : List Byte} {s : State} (hc : s.canParse = true)
    (his : ∀ i ∈ is, i.source = .text ∧ i.wellFormed = true ∧ OnPanel s i) (hb : bytes = is.flatMap encode ++ tail) :
    ∃ v, execAll is (s.loadText bytes) = .next v ∧ ParserChanges s v ∧ v.pd.len = bytes.length ∧ bytes.drop v.pd.pos = tail ∧
      ∀ t, parseStep .text bytes v = .next t → t.host = .idle → exec (.pdRxtext bytes) s = .next t := by
  have hgood : ∀ i ∈ is, GoodRecord s i := fun i hi => by
    obtain ⟨hs, hw, hp⟩ := his i hi
    exact ⟨by rw [hs]; decide, hw, hp⟩
  have hload := loadText_parserChanges s bytes
  obtain ⟨v, hv, hch, hpd, hend, hlast⟩ := parseAll_records (s := s.loadText bytes) (hload.canParse.trans hc) rfl
    (fun i hi => (hgood i hi).after hload) (fun i hi => fetchedFrom_text (his i hi).1 (hgood i hi).wellFormed rfl) hb
    (Nat.lt_succ_self _)
  exact ⟨v, hv, hload.trans hch, by rw [hpd]; rfl, hend, fun t ht hidle => (exec_pdRxtext hc bytes).trans (hlast t ht hidle)⟩

/-- The bytes of a binary datagram: its header, the shared colour byte where the layout has one, and what follows (R94, R99). -/
def binaryDatagram (fmt flags col : Byte) (l : Layout) (body : List Byte) : List Byte :=
  fmt :: flags :: ((if l = .bin3 then [col] else []) ++ body)

theorem binaryDatagram_drop (fmt flags col : Byte) (l : Layout) (body : List Byte) :
    (binaryDatagram fmt flags col l body).drop l.firstOffset = body := by
  cases l <;> rfl

/-- R143: a datagram whose header selects a layout is being parsed from its first record on. -/
theorem loadBinary_layout {fmt flags col : Byte} {l : Layout} {body bytes : List Byte} (hf : layoutOf fmt (alphaBit flags) = some l)
    (hb : bytes = binaryDatagram fmt flags col l body) (s : State) :
    s.loadBinary bytes = (s.withPd ⟨bytes.length, l.firstOffset, fmt, alphaBit flags, l.recordSize,
      if l = .bin3 then col else s.pd.col⟩).withHost (.parsing .binary bytes) := by
  subst hb
  cases l <;> simp [State.loadBinary, headerRegs, binaryDatagram, hf]

/-- R143: a binary datagram's records, all of the header's layout and on the panel, are executed one after another. -/
theorem exec_pdRxbin_records {fmt flags col : Byte} {l : Layout} {is : List Instr} {tail bytes : List Byte} {s : State}
    (hc : s.canParse = true) (hf : layoutOf fmt (alphaBit flags) = some l)
    (his : ∀ i ∈ is, recordLayout i = some l ∧ ∀ c, sharedColour i = some c → c = col) (hon : ∀ i ∈ is, OnPanel s i)
    (hb : bytes = binaryDatagram fmt flags col l (is.flatMap (fun i => (encode i).drop l.firstOffset) ++ tail)) :
    ∃ v, execAll is (s.loadBinary bytes) = .next v ∧ ParserChanges s v ∧
      v.pd = ⟨bytes.length, v.pd.pos, fmt, alphaBit flags, l.recordSize, if l = .bin3 then col else s.pd.col⟩ ∧
      bytes.drop v.pd.pos = tail ∧
      ∀ t, parseStep .binary bytes v = .next t → t.host = .idle → exec (.pdRxbin bytes) s = .next t := by
  have hload := loadBinary_layout hf hb s
  have hch := (loadBinary_cases s bytes).1
  have hdrop : bytes.drop l.firstOffset = is.flatMap (fun i => (encode i).drop l.firstOffset) ++ tail := by
    rw [hb, binaryDatagram_drop]
  have hcol : ∀ i ∈ is, ∀ c, sharedColour i = some c → c = if l = .bin3 then col else s.pd.col := fun i hi c h => by
    obtain ⟨hl, hshared⟩ := his i hi
    rw [hshared c h, if_pos (eq_bin3_of_sharedColour hl h)]
  have hgood : ∀ i ∈ is, GoodRecord s i := fun i hi => goodRecord_of_recordLayout (his i hi).1 (hon i hi)
  rw [exec_pdRxbin hc]
  rw [hload] at hch ⊢
  obtain ⟨v, hv, hchv, hpd, hend, hlast⟩ := parseAll_records (n := bytes.length + 1) (tail := tail) (hch.canParse.trans hc) rfl
    (fun i hi => (hgood i hi).after hch) (fun i hi => fetchedFrom_binary (his i hi).1 rfl hf rfl (hcol i hi)) hdrop
    (by rw [List.length_drop]; omega)
  exact ⟨v, hv, hch.trans hchv, hpd, hend, hlast⟩

end Sys2Proof.Machine

open Sys2Proof Sys2Proof.Machine

/-! ## The obligations of the parser -/

/-- Settles O15: the write, then the terminator. -/
theorem textRecordWritesItsPixel : Obligations.TextRecordWritesItsPixel := by
  intro t c d s hc hx hs1 hy hs2 hw hh hcol
  refine ⟨_, exec_txtPx_writes hc ⟨hx, hs1, hy, hs2⟩ ⟨hw, hh⟩ hcol, storesOnly_write s ?_, fun hterm => ?_, fun hterm => ?_⟩
  · split <;> rfl
  · rw [if_pos hterm, lineSize, State.advance, ← Nat.add_assoc]; rfl
  · rw [if_neg hterm]; rfl

/-- Settles O16: the tests in the order in which they are made. -/
theorem textRecordStopsBeforeWriting : Obligations.TextRecordStopsBeforeWriting := by
  intro t s hc
  have hexec : exec (.txtPx t) s = execTxtPx t s := rfl
  refine ⟨fun hx => ?_, fun hx hs1 => ?_, fun hx hs1 hy => ?_, fun hx hs1 hy hs2 => ?_, fun hx hs1 hy hs2 ho => ?_,
    fun hx hs1 hy hs2 hw hh hcol => ?_⟩
  · rw [hexec, execTxtPx, if_pos hc, if_pos hx]; rfl
  · rw [hexec, execTxtPx, if_pos hc, if_neg hx, if_pos hs1]; rfl
  · rw [hexec, execTxtPx, if_pos hc, if_neg hx, if_neg (not_not.2 hs1), if_pos hy]; rfl
  · rw [hexec, execTxtPx, if_pos hc, if_neg hx, if_neg (not_not.2 hs1), if_neg hy, if_pos hs2]; rfl
  · exact exec_txtPx_outside hc ⟨hx, hs1, hy, hs2⟩ ((s.outside_eq_true_iff _ _).2 ho)
  · exact exec_txtPx_short hc ⟨hx, hs1, hy, hs2⟩ ⟨hw, hh⟩ hcol

/-- Settles O17: the common tail of the seven layouts, on the panel. -/
theorem binaryRecordWritesItsPixel : Obligations.BinaryRecordWritesItsPixel :=
  fun _ _ s hl hc hp => ⟨_, exec_binary_onPanel hl hc hp, storesOnly_write s rfl, rfl⟩

/-- Settles O21: no layout has such a format byte, so the header stops the datagram. -/
theorem unknownFormatDrawsNothing : Obligations.UnknownFormatDrawsNothing := by
  intro fmt flags rest s hc hfmt
  have hnone : layoutOf fmt (alphaBit flags) = none := by
    have hne : ∀ k : Byte, k.toNat ≤ 3 → fmt ≠ k := by rintro k hk rfl; omega
    rw [layoutOf, if_neg (hne 0 (by decide)), if_neg (hne 1 (by decide)), if_neg (hne 2 (by decide)), if_neg (hne 3 (by decide))]
  exact ⟨_, exec_pdRxbin_header_stop hc (c := .unknownFormat) (by simp only [headerRegs, hnone]), rfl⟩

/-- Settles O24: `PX ` is what makes the bytes at the cursor a record. -/
theorem textPrefixTest : Obligations.TextPrefixTest := by
  intro s u g bytes hg hh hlen hpos
  refine ⟨fun hpre => ?_, fun hpre => ?_⟩
  · have hleft : bytes.drop s.pd.pos ≠ [] := by rw [Ne, List.drop_eq_nil_iff]; omega
    rw [step_stop hg hh (fetchRecord_text_stop hlen hpre), if_neg hleft]
    rfl
  · obtain ⟨t, rest, hd⟩ := decodeText_of_textPrefix hpre
    exact ⟨t, rest, hd, (encode_of_decodeText hd).symm, step_record hg hh (fetchRecord_text_decoded hlen hd)⟩

/-- Settles O25: every pass of the loop ends the datagram or moves the cursor on, and all that it changes is the parser's to change. -/
theorem everyDatagramEnds : Obligations.EveryDatagramEnds := by
  intro bytes s hc i hi
  obtain ⟨t, c, ht, hch, hidle, hc8, hr⟩ := exec_datagram_cause hc hi
  obtain ⟨⟨cs, hlt, hpp⟩, hframe⟩ := hch
  refine ⟨t, c, ht, hr, hc8, fun a ha => ?_, by rw [← hidle]; exact hframe⟩
  rw [SameCell, hpp, Memory.read?_writeAll_other]
  intro d hd
  have := hlt d hd
  omega

/-- Settles O27: the bytes after the last record stop the loop. -/
theorem textDatagramRunsItsRecords : Obligations.TextDatagramRunsItsRecords := by
  intro is tail s hc his htail
  obtain ⟨v, hv, -, hlen, hend, hlast⟩ := exec_pdRxtext_records (tail := tail) hc his rfl
  have hstop := fetchRecord_text_stop hlen (hend.symm ▸ htail)
  rw [hend] at hstop
  rw [beginText_of_canParse hc, andThen_next, hv, andThen_next]
  exact hlast _ (parseStep_stop hstop) rfl

/-- Settles O28: fewer bytes than a record stop the loop. -/
theorem binaryDatagramRunsItsRecords : Obligations.BinaryDatagramRunsItsRecords := by
  intro fmt flags col l is tail s hc hf his htail bytes hb
  obtain ⟨v, hv, -, hpd, hend, hlast⟩ := exec_pdRxbin_records hc hf (fun i hi => ⟨(his i hi).1, (his i hi).2.2⟩)
    (fun i hi => (his i hi).2.1) (hb.trans (by rw [binaryDatagram, List.append_assoc]))
  have hshort : v.pd.len - v.pd.pos < v.pd.recSize := by
    rw [hpd, ← List.length_drop, hend]
    exact htail
  rw [beginBinary_of_canParse hc, andThen_next, hv, andThen_next]
  exact hlast _ (parseStep_stop (fetchRecord_binary_stop hshort)) rfl

/-- Settles O29: the bad record is executed as the last, and ends the datagram. -/
theorem textDatagramEndsAtBadRecord : Obligations.TextDatagramEndsAtBadRecord := by
  intro is i bad rest s hc his hd hbad
  obtain ⟨v, hv, hch, hlen, hend, hlast⟩ := exec_pdRxtext_records (tail := bad) hc his rfl
  have hcv := hch.canParse.trans hc
  rw [← hch.onPanel_iff i] at hbad
  obtain ⟨line, t, -, hsplit, rfl⟩ := decodeText_eq_ok.1 hd
  obtain ⟨u, hu, hidle⟩ := exec_txtPx_bad hcv ((splitLine_eq_iff _ _ _).1 hsplit).2 hbad
  have hpass := (parseStep_record (by simp [Instr.source]) (fetchRecord_text_decoded hlen (hend.symm ▸ hd))).trans hu
  refine ⟨_, v, u, beginText_of_canParse hc _, hv, hu, hlast u hpass hidle, hidle, fun hw => ?_⟩
  have hout := outside_of_not_onPanel fun hp => hbad ⟨hw, hp⟩
  exact Host.Outcome.next.inj (hu.symm.trans (exec_txtPx_outside hcv ((wellFormed_line_iff t).1 hw).1 hout))

/-- Settles O30: the record off the panel is executed as the last, and ends the datagram. -/
theorem binaryDatagramEndsOutsidePanel : Obligations.BinaryDatagramEndsOutsidePanel := by
  intro fmt flags col l is i rest s hc hf hrec hon hoff bytes hb
  rw [List.forall_mem_append, List.forall_mem_singleton] at hrec
  obtain ⟨his, hl, hcol⟩ := hrec
  obtain ⟨v, hv, hch, hpd, hend, hlast⟩ := exec_pdRxbin_records (is := is) (tail := (encode i).drop l.firstOffset ++ rest) hc hf his hon
    (hb.trans (by simp [binaryDatagram]))
  have hcv := hch.canParse.trans hc
  have hcol' : ∀ c, sharedColour i = some c → c = v.pd.col := fun c h => by
    rw [hpd, hcol c h, if_pos (eq_bin3_of_sharedColour hl h)]
  have hfetch : fetchRecord .binary bytes v.pd = .record i :=
    (fetchedFrom_binary (pd := v.pd) hl (by rw [hpd]) (by rw [hpd]; exact hf) (by rw [hpd]) hcol').fetch _ _ hend
  have hout := exec_binary_outside hl hcv (outside_of_not_onPanel ((hch.onPanel_iff i).not.2 hoff))
  exact ⟨_, v, beginBinary_of_canParse hc _, hv,
    hlast _ ((parseStep_record (by rw [source_of_recordLayout hl]; decide) hfetch).trans hout) rfl⟩

/-- Settles O11: after equal ports PD is still uninitialised, so it can parse no datagram. -/
theorem pdInitNeedsDistinctPorts : Obligations.PdInitNeedsDistinctPorts := by
  intro textPort binPort s
  have hexec : exec (.pdInit textPort binPort) s = execPdInit textPort binPort s := rfl
  rw [hexec, execPdInit]
  refine ⟨fun hr => if_pos hr, fun hr heq => ?_, fun hr hne => ?_⟩
  · have hc : s.canParse = false := by rw [State.canParse, hr, Bool.false_and]
    refine ⟨s.endHostOp ⟨.bool false, some .initConflict⟩, ?_, rfl, fun bytes => ⟨?_, ?_⟩⟩
    · rw [if_neg (by rw [hr]; decide), if_neg (by simp [portsDiffer, heq])]
    · exact exec_datagram_refused hc (.inl rfl)
    · exact exec_datagram_refused hc (.inr rfl)
  · rw [if_neg (by rw [hr]; decide), if_pos (by simp [portsDiffer, hne])]
    rfl

/-- Settles O18: the common tail of the seven layouts, off the panel. -/
theorem binaryRecordOutsideStops : Obligations.BinaryRecordOutsideStops :=
  fun _ _ s hl hc ho => exec_binary_outside hl hc ((s.outside_eq_true_iff _ _).2 ho)

/-- Settles O23: as many bytes as a record has are a record. -/
theorem binaryRecordNeedsItsBytes : Obligations.BinaryRecordNeedsItsBytes := by
  intro s u g bytes hg hh
  refine ⟨fun hshort => step_stop hg hh (fetchRecord_binary_stop hshort), fun l hl hr hlen henough => ?_⟩
  obtain ⟨i, rest, hd⟩ := decodeRecord_of_length (bs := bytes.drop s.pd.pos) s.pd.col (l := l) (by rw [List.length_drop]; omega)
  exact ⟨i, rest, hd, step_record hg hh (fetchRecord_binary_record henough hl hd)⟩

end

section
/-! SUPPORT. The proofs about the framebuffer (41_framebuffer_sink.md): the properties of the gamma table, the stores of FB_CLEAR, of
FB_WRITE and of FB_TEXT, and the pixels of a text. -/

namespace Sys2Proof.Machine

/-! ## The gamma table (R171, R173) -/

/-- An entry by its index, as the table's own `gammaTable_toNat` by a byte. -/
theorem gammaTable_getElem_toNat (g : Exponent) (i : Fin 256) : (gammaTable g)[i].toNat = gammaEntry g i.val :=
  gammaTable_toNat g (BitVec.ofFin i)

theorem gammaFree_le_self {g : Exponent} (h : atLeastOne g = true) (i : Nat) : gammaFree g i ≤ i := by
  induction i with
  | zero => exact Nat.le_refl _
  | succ i ih =>
    rw [gammaFree, if_pos h]
    exact Nat.max_le.2 ⟨Nat.le_succ_of_le ih, Nat.min_le_right _ _⟩

/-- R173: for an exponent of 1 or more no entry lies above the diagonal. -/
theorem gammaEntry_le_self {g : Exponent} (h : atLeastOne g = true) {i : Nat} (hi : i < 256) : gammaEntry g i ≤ i := by
  have hsquare : 2 * i * i ≤ 2 * i * 255 := Nat.mul_le_mul_left _ (by omega)
  have hfree := gammaFree_le_self h i
  unfold gammaEntry
  split
  · exact Nat.le_refl _
  split
  · omega
  split <;> omega

theorem gammaEntry_one (i : Nat) : gammaEntry (.rational 1) i = i := if_pos rfl

theorem gammaEntry_two (i : Nat) : gammaEntry (.rational 2) i = (2 * i * i + 255) / 510 := by
  rw [gammaEntry, if_neg (by decide), if_pos rfl]

/-! ## Runs of stores (R65) -/

theorem Memory.writeAll_append (m : Memory) (cs ds : List Host.Cell) : m.writeAll (cs ++ ds) = (m.writeAll cs).writeAll ds :=
  List.foldl_append

/-- So many single actions of HOST make the first stores of those that it has still to make. -/
theorem storeActions_append {cs ds : List Host.Cell} {r : Report} {s : State} (h : s.host = .storing (cs ++ ds) r)
    (hlt : ∀ c ∈ cs, c.1 < s.cells) :
    storeActions cs.length s = .next ((s.withPp (s.pp.writeAll cs)).withHost (.storing ds r)) := by
  induction cs generalizing s with
  | nil => rw [← List.nil_append ds, ← h]; rfl
  | cons c cs ih =>
    obtain ⟨hc, hcs⟩ := List.forall_mem_cons.1 hlt
    rw [List.length_cons, storeActions, h]
    show andThen (storeCell c.1 c.2 (s.withHost (.storing (cs ++ ds) r))) (storeActions cs.length) = _
    rw [storeCell_of_lt (by exact hc), andThen_next]
    exact ih rfl hcs

/-! ## FB_CLEAR (R175) -/

/-- Zeroes stored in the first `n` cells are what those cells read as after. -/
theorem Memory.read?_writeAll_zeroes (m : Memory) (n a : Nat) :
    (m.writeAll ((List.range n).map fun a => ((a, 0) : Host.Cell))).read? a = if a < n then some 0 else m.read? a := by
  split
  case isTrue ha =>
    obtain ⟨c, hc, -, hread⟩ := m.read?_writeAll_mem ((List.range n).map fun a => ((a, 0) : Host.Cell)) (a := a)
      ⟨(a, 0), List.mem_map_of_mem (List.mem_range.2 ha), rfl⟩
    obtain ⟨_, -, rfl⟩ := List.mem_map.1 hc
    exact hread
  case isFalse ha =>
    refine m.read?_writeAll_other _ fun c hc => ?_
    obtain ⟨b, hb, rfl⟩ := List.mem_map.1 hc
    exact fun e => ha (e ▸ List.mem_range.1 hb)

theorem State.clearStores_take {s : State} {n : Nat} (h : n ≤ s.cells) :
    s.clearStores.take n = (List.range n).map fun a => ((a, 0) : Host.Cell) := by
  rw [State.clearStores, ← List.map_take, List.take_range, Nat.min_eq_left h]

theorem exec_fbClear {s : State} (h : s.fbReady = true) :
    exec .fbClear s = .next ((s.withPp (s.pp.writeAll s.clearStores)).endHostOp Report.done) :=
  (if_pos h).trans (finishStores_of_lt (State.clearStores_lt rfl) _)

/-- FB_CLEAR begun and stopped after `n` of its stores. -/
theorem storeActions_fbClear {s : State} {n : Nat} (h : n ≤ s.cells) :
    storeActions n (s.withHost (.storing s.clearStores Report.done)) =
      .next ((s.withPp (s.pp.writeAll ((List.range n).map fun a => (a, 0)))).withHost (.storing (s.clearStores.drop n) Report.done)) := by
  have hlen : (s.clearStores.take n).length = n := by rw [State.clearStores_take h, List.length_map, List.length_range]
  have hlt : ∀ c ∈ s.clearStores.take n, c.1 < s.cells := fun c hc => State.clearStores_lt rfl c (List.mem_of_mem_take hc)
  have hrun := storeActions_append (s := s.withHost (.storing s.clearStores Report.done)) (r := Report.done)
    (congrArg (HostActivity.storing · Report.done) (List.take_append_drop n s.clearStores).symm) hlt
  rw [hlen, State.clearStores_take h] at hrun
  exact hrun

/-! ## FB_WRITE (R176 to R179) -/

/-- FB_WRITE's store, where it makes one, and its result: all that it does. -/
theorem exec_fbWrite {s : State} (h : s.fbReady = true) (x y : Int) (i : Byte) :
    exec (.fbWrite x y i) s =
      .next ((s.withPp (s.pp.writeAll (s.pixelStore x y i).toList)).endHostOp (writeReport (s.accepts x y))) :=
  (if_pos h).trans (finishStores_of_lt (fun _ hc => State.pixelStore_lt (Option.mem_toList.1 hc)) _)

/-- FB_WRITE of a coordinate of the plane. -/
theorem exec_fbWrite_accepted {s : State} {x y : Int} (h : s.fbReady = true) (ha : s.accepts x y = true) (i : Byte) :
    exec (.fbWrite x y i) s =
      .next ((s.withPp (s.pp.write (s.cellIndex x.toNat y.toNat) (s.gamma i))).endHostOp ⟨.bool true, none⟩) := by
  rw [exec_fbWrite h, State.pixelStore, if_pos ha, ha]
  rfl

/-- FB_WRITE of any other coordinate. -/
theorem exec_fbWrite_dropped {s : State} {x y : Int} (h : s.fbReady = true) (ha : ¬ s.accepts x y = true) (i : Byte) :
    exec (.fbWrite x y i) s = .next (s.endHostOp ⟨.bool false, some .writeDropped⟩) := by
  rw [exec_fbWrite h, State.pixelStore, if_neg ha, Bool.eq_false_iff.2 ha]
  rfl

/-- R177 on the integers: the mirror image of a coordinate of the axis. -/
theorem flipCoord_toNat {n : Nat} {x : Int} (f : Bool) (h0 : 0 ≤ x) (h : x < n) :
    (flipCoord f n x.toNat : Int) = if f then (n : Int) - 1 - x else x := by
  unfold flipCoord
  split <;> omega

/-! ## FB_TEXT (R182) -/

theorem exec_fbText {s : State} (h : s.fbReady = true) (text : List Byte) (x y : Int) (i : Byte) :
    exec (.fbText text x y i) s =
      .next ((s.withPp (s.pp.writeAll (s.textStores text x y i))).endHostOp (s.textReport text x y)) :=
  (if_pos h).trans (finishStores_of_lt (s.pixelStores_lt _ _) _)

/-- FB_TEXT sees of its text the pixels and the cursor alone. -/
theorem exec_fbText_congr {text text' : List Byte} {x y : Int} (h : textPixels text x y = textPixels text' x y) (i : Byte) (s : State) :
    exec (.fbText text x y i) s = exec (.fbText text' x y i) s := by
  show execFbText text x y i s = execFbText text' x y i s
  simp only [execFbText, State.textStores, State.textReport, h]

/-- FB_WRITEs one after another leave the plane that their stores, in order, leave. -/
theorem execAll_fbWrites {s : State} (h : s.fbReady = true) (ps : List (Int × Int)) (i : Byte) :
    ∃ u, execAll (ps.map fun p => .fbWrite p.1 p.2 i) s = .next u ∧
      u.pp = s.pp.writeAll (ps.filterMap fun p => s.pixelStore p.1 p.2 i) := by
  induction ps generalizing s with
  | nil => exact ⟨s, rfl, rfl⟩
  | cons p ps ih =>
    obtain ⟨u, hu, hpp⟩ := ih
      (s := (s.withPp (s.pp.writeAll (s.pixelStore p.1 p.2 i).toList)).endHostOp (writeReport (s.accepts p.1 p.2))) h
    refine ⟨u, ?_, hpp.trans ?_⟩
    · rw [List.map_cons, execAll, exec_fbWrite h, andThen_next, hu]
    · rw [List.filterMap_eq_flatMap_toList, List.filterMap_eq_flatMap_toList, List.flatMap_cons, Memory.writeAll_append]
      rfl

/-! ## The pixels of a text (R182 to R184) -/

theorem map_finRange_five (glyph : Fin 5 → BitVec 7) :
    (List.finRange 5).map glyph = [glyph 0, glyph 1, glyph 2, glyph 3, glyph 4] := rfl

section TextLayout
variable (font : Fin 128 → Fin 5 → BitVec 7) (blank : Nat) (y cx : Int) (text : List Byte)

/-- R184: a byte above 127 is a zero-width no-op. -/
theorem textLayout_nonAscii {ch : Byte} (h : 127 < ch.toNat) :
    textLayout font blank y cx (ch :: text) = textLayout font blank y cx text := by
  rw [textLayout, dif_neg (by omega)]

/-- R183: a glyph without content only advances the cursor. -/
theorem textLayout_blank {ch : Byte} {h : ch.toNat < 128} (hg : glyphContent ((List.finRange 5).map (font ⟨ch.toNat, h⟩)) = []) :
    textLayout font blank y cx (ch :: text) = textLayout font blank y (cx + blank) text := by
  rw [map_finRange_five] at hg
  simp only [textLayout, dif_pos h, hg]

/-- R182: a glyph with content draws it at the cursor and advances the cursor past it and one blank column. -/
theorem textLayout_lit {ch : Byte} {h : ch.toNat < 128} {cols : List (BitVec 7)} (hne : cols ≠ [])
    (hg : glyphContent ((List.finRange 5).map (font ⟨ch.toNat, h⟩)) = cols) :
    textLayout font blank y cx (ch :: text) =
      (columnsPixels y cx cols ++ (textLayout font blank y (cx + cols.length + 1) text).1,
        (textLayout font blank y (cx + cols.length + 1) text).2) := by
  rw [map_finRange_five] at hg
  obtain ⟨c, cols, rfl⟩ := List.exists_cons_of_ne_nil hne
  simp only [textLayout, dif_pos h, hg]

/-- R184: a text lays out as the same text without its bytes above 127. -/
theorem textLayout_filter_ascii :
    textLayout font blank y cx (text.filter fun ch => decide (ch.toNat ≤ 127)) = textLayout font blank y cx text := by
  induction text generalizing cx with
  | nil => rfl
  | cons ch text ih =>
    by_cases h : ch.toNat ≤ 127
    · rw [List.filter_cons_of_pos (by simpa using h)]
      simp only [textLayout, ih]
    · rw [List.filter_cons_of_neg (by simpa using h), ih, textLayout_nonAscii _ _ _ _ _ (by omega)]

end TextLayout

/-! ## The content of a glyph -/

theorem dropWhile_blank {pre cols : List (BitVec 7)} {c : BitVec 7} (hpre : ∀ b ∈ pre, b = 0) (hhead : cols.head? = some c)
    (hc : c ≠ 0) : (pre ++ cols).dropWhile (· == 0) = cols := by
  obtain ⟨cs, rfl⟩ := List.head?_eq_some_iff.1 hhead
  rw [List.dropWhile_append_of_pos fun b hb => by simpa using hpre b hb, List.dropWhile_cons_of_neg (by simpa using hc)]

/-- Columns from a lit one to a lit one between blank ones are the content. -/
theorem glyphContent_of_lit_ends {pre cols post : List (BitVec 7)} {c d : BitVec 7} (hpre : ∀ b ∈ pre, b = 0)
    (hpost : ∀ b ∈ post, b = 0) (hhead : cols.head? = some c) (hc : c ≠ 0) (hlast : cols.getLast? = some d) (hd : d ≠ 0) :
    glyphContent (pre ++ (cols ++ post)) = cols := by
  have hleft : (pre ++ (cols ++ post)).dropWhile (· == 0) = cols ++ post :=
    dropWhile_blank hpre (by rw [List.head?_append, hhead]; rfl) hc
  have hright : (post.reverse ++ cols.reverse).dropWhile (· == 0) = cols.reverse :=
    dropWhile_blank (fun b hb => hpost b (List.mem_reverse.1 hb)) (by rw [List.head?_reverse, hlast]) hd
  rw [glyphContent, hleft, List.reverse_append, hright, List.reverse_reverse]

theorem glyphContent_of_blank {cols : List (BitVec 7)} (h : ∀ b ∈ cols, b = 0) : glyphContent cols = [] := by
  have hall : cols.dropWhile (· == 0) = [] := List.dropWhile_eq_nil_iff.2 fun b hb => by simpa using h b hb
  rw [glyphContent, hall]
  rfl

/-- The column numbers of a glyph from one to another. -/
def columnsBetween (first last : Fin 5) : List (Fin 5) := (List.finRange 5).filter fun k => decide (first ≤ k ∧ k ≤ last)

theorem finRange_eq_columnsBetween {first last : Fin 5} (h : first ≤ last) :
    List.finRange 5 = (List.finRange 5).filter (· < first) ++ (columnsBetween first last ++ (List.finRange 5).filter (last < ·)) := by
  revert first last; decide

theorem columnsBetween_vals {first last : Fin 5} (h : first ≤ last) :
    (columnsBetween first last).map Fin.val = List.range' first.val (last.val + 1 - first.val) := by
  revert first last; decide

theorem columnsBetween_head? {first last : Fin 5} (h : first ≤ last) : (columnsBetween first last).head? = some first := by
  revert first last; decide

theorem columnsBetween_getLast? {first last : Fin 5} (h : first ≤ last) : (columnsBetween first last).getLast? = some last := by
  revert first last; decide

theorem columnsBetween_length {first last : Fin 5} (h : first ≤ last) :
    (columnsBetween first last).length = last.val + 1 - first.val := by
  rw [← List.length_map Fin.val, columnsBetween_vals h, List.length_range']

/-- R182: consecutive columns, the first of them number `a`: each stands as far from the cursor as its number from `a`. -/
theorem columnsPixels_consecutive (glyph : Fin 5 → BitVec 7) (y cx : Int) {ks : List (Fin 5)} {a : Nat}
    (h : ks.map Fin.val = List.range' a ks.length) :
    columnsPixels y cx (ks.map glyph) = ks.flatMap fun k => columnPixels (cx + (k.val - a : Int)) y (glyph k) := by
  induction ks generalizing cx a with
  | nil => rfl
  | cons k ks ih =>
    rw [List.map_cons, List.length_cons, List.range'_succ, List.cons.injEq] at h
    obtain ⟨hk, hks⟩ := h
    rw [List.map_cons, columnsPixels, ih (cx + 1) hks, List.flatMap_cons, hk, sub_self, add_zero]
    refine congrArg (_ ++ ·) (List.flatMap_congr fun j _ => ?_)
    rw [show cx + 1 + ((j.val : Int) - (a + 1 : Nat)) = cx + (j.val - a) by push_cast; ring]

theorem columnsPixels_columnsBetween {first last : Fin 5} (glyph : Fin 5 → BitVec 7) (y cx : Int) (h : first ≤ last) :
    columnsPixels y cx ((columnsBetween first last).map glyph) =
      (columnsBetween first last).flatMap fun k => columnPixels (cx + (k.val - first.val : Int)) y (glyph k) :=
  columnsPixels_consecutive glyph y cx ((columnsBetween_vals h).trans (by rw [columnsBetween_length h]))

section Glyph
variable {glyph : Fin 5 → BitVec 7} {first last : Fin 5}

theorem first_le_last (hfirst : glyph first ≠ 0) (hafter : ∀ k, last < k → glyph k = 0) : first ≤ last :=
  not_lt.1 fun hlt => hfirst (hafter first hlt)

/-- R182: a glyph's content is its columns from the first that is not blank to the last that is not. -/
theorem glyphContent_eq_columnsBetween (hfirst : glyph first ≠ 0) (hlast : glyph last ≠ 0) (hbefore : ∀ k, k < first → glyph k = 0)
    (hafter : ∀ k, last < k → glyph k = 0) :
    glyphContent ((List.finRange 5).map glyph) = (columnsBetween first last).map glyph := by
  have hle := first_le_last hfirst hafter
  rw [finRange_eq_columnsBetween hle, List.map_append, List.map_append]
  refine glyphContent_of_lit_ends (c := glyph first) (d := glyph last) ?_ ?_ ?_ hfirst ?_ hlast
  · exact List.forall_mem_map.2 fun k hk => hbefore k (by simpa using hk)
  · exact List.forall_mem_map.2 fun k hk => hafter k (by simpa using hk)
  · rw [List.head?_map, columnsBetween_head? hle]; rfl
  · rw [List.getLast?_map, columnsBetween_getLast? hle]; rfl

end Glyph

end Sys2Proof.Machine

open Sys2Proof Sys2Proof.Machine

/-! ## The obligations of the framebuffer -/

/-- Settles O1: whether the exponent is above 0 follows from its operand. -/
theorem fbInitEstablishesFramebuffer : Obligations.FbInitEstablishesFramebuffer := by
  intro x
  refine ⟨Exponent.exists_denotes x, fun width height gamma s hx => ?_⟩
  have hexec : exec (.fbInit width height gamma) s = execFbInit width height gamma s := rfl
  have hbad : (width < 1 ∨ height < 1 ∨ ¬ 0 < x) ↔ ¬(1 ≤ width ∧ 1 ≤ height ∧ 0 < x) := by
    simp only [not_and_or, Nat.not_le]
  simp only [hexec, execFbInit, hx.positive_iff, hbad]
  refine ⟨fun hr => if_pos hr, fun hr hno => ?_, fun hr hw hh hx0 => ?_⟩
  · rw [if_neg (Bool.eq_false_iff.1 hr), if_pos hno]
  · rw [if_neg (Bool.eq_false_iff.1 hr), if_neg (not_not.2 ⟨hw, hh, hx0⟩)]
    rfl

/-- Settles O2, entry by entry; the exponents 1 and 2 have one operand each. -/
theorem gammaTableProperties : Obligations.GammaTableProperties := by
  intro x g _ hg
  obtain ⟨h0, h255⟩ := gammaEntry_ends g
  refine ⟨BitVec.eq_of_toNat_eq ((gammaTable_getElem_toNat g 0).trans h0),
    BitVec.eq_of_toNat_eq ((gammaTable_getElem_toNat g 255).trans h255),
    fun i j hij => ?_, fun hx i => ?_, fun hx i => ?_, fun hx i => ?_⟩
  all_goals rw [gammaTable_getElem_toNat]
  · rw [gammaTable_getElem_toNat]
    exact gammaEntry_mono g hij j.isLt
  · exact gammaEntry_le_self (hg.atLeastOne_iff.2 hx) i.isLt
  · rw [Exponent.Denotes.eq_rational (e := g) (q := 1) (by rwa [Rat.cast_one, ← hx]), gammaEntry_one]
  · rw [Exponent.Denotes.eq_rational (e := g) (q := 2) (by rwa [Rat.cast_ofNat, ← hx]), gammaEntry_two]

/-- Settles O3: FB_ORIENT unfolded. -/
theorem fbOrientSetsFlipsOnly : Obligations.FbOrientSetsFlipsOnly :=
  fun _ _ _ => ⟨fun hr => if_neg (Bool.eq_false_iff.1 hr), fun hr => if_pos hr⟩

/-- Settles O4: whole, and after any number of its stores, FB_CLEAR has stored zeroes in a first part of the plane. -/
theorem fbClearZeroesEveryCell : Obligations.FbClearZeroesEveryCell := by
  refine fun s => ⟨fun hr => if_neg (Bool.eq_false_iff.1 hr), fun hr => ?_, fun hr => ?_⟩
  · have hread := s.pp.read?_writeAll_zeroes s.cells
    exact ⟨_, exec_fbClear hr, fun a ha => (hread a).trans (if_pos ha), fun a ha => (hread a).trans (if_neg (Nat.not_lt.2 ha)), rfl⟩
  · refine ⟨s.withHost (.storing s.clearStores Report.done), congrArg some (if_pos hr), fun n hn => ?_⟩
    have hread := s.pp.read?_writeAll_zeroes n
    refine ⟨_, List.range n, storeActions_fbClear hn, List.length_range, List.nodup_range, fun a ha => ?_, fun a ha => ?_, rfl⟩
    · rw [List.mem_range] at ha
      exact ⟨ha.trans_le hn, (hread a).trans (if_pos ha)⟩
    · rw [List.mem_range] at ha
      exact (hread a).trans (if_neg ha)

/-- Settles O5: the test on the coordinates as given decides. -/
theorem fbWriteClips : Obligations.FbWriteClips :=
  fun x y i s hr => ⟨fun hx hxW hy hyH => ⟨_, exec_fbWrite_accepted hr ((s.accepts_iff x y).2 ⟨hx, hxW, hy, hyH⟩) i, rfl⟩,
    fun hout => exec_fbWrite_dropped hr (mt (s.accepts_iff x y).1 hout) i⟩

/-- Settles O6: an accepted write is one store, at `State.cellIndex`. -/
theorem fbWriteStoresGammaAtFlippedCell : Obligations.FbWriteStoresGammaAtFlippedCell := by
  refine fun x y i s => ⟨fun hr => if_neg (Bool.eq_false_iff.1 hr), fun hr hx hxW hy hyH => ?_⟩
  have ha := (s.accepts_iff x y).2 ⟨hx, hxW, hy, hyH⟩
  refine ⟨_, s.cellIndex x.toNat y.toNat, exec_fbWrite_accepted hr ha i, ?_, s.cellIndex_lt (by omega) (by omega),
    storesOnly_write s rfl, rfl⟩
  rw [State.cellIndex, Nat.cast_add, Nat.cast_mul, flipCoord_toNat _ hx hxW, flipCoord_toNat _ hy hyH]

/-- Settles O8: both make the same stores in the same order. -/
theorem fbTextIsItsPixelWrites : Obligations.FbTextIsItsPixelWrites := by
  refine fun text x y i s => ⟨fun hr => if_neg (Bool.eq_false_iff.1 hr), fun hr => ?_⟩
  obtain ⟨u, hu, hpp⟩ := execAll_fbWrites hr (textPixels text x y).1 i
  exact ⟨_, u, exec_fbText hr text x y i, hu, hpp.symm, rfl, rfl⟩

/-- Settles O9: such bytes leave pixels and cursor as they are. -/
theorem fbTextSkipsNonAscii : Obligations.FbTextSkipsNonAscii := by
  intro text x y i s
  have hskip := exec_fbText_congr (textLayout_filter_ascii Config.font Config.blankAdvance y x text).symm i s
  refine ⟨hskip, fun hr hall => ?_⟩
  have hnone : (text.filter fun ch => decide (ch.toNat ≤ 127)) = [] :=
    List.filter_eq_nil_iff.2 fun ch hch => by simpa using hall ch hch
  rw [hskip, hnone, exec_fbText hr]
  rfl

/-- Settles O10: the content of a glyph is its columns between the two lit ends. -/
theorem textLayoutByGlyph : Obligations.TextLayoutByGlyph := by
  refine fun font blank y cx text => ⟨rfl, fun ch h => textLayout_nonAscii font blank y cx text h, fun ch h hzero => ?_,
    fun ch h first last hfirst hlast hbefore hafter => ?_⟩
  · exact textLayout_blank font blank y cx text (glyphContent_of_blank (List.forall_mem_map.2 fun k _ => hzero k))
  · have hle := first_le_last hfirst hafter
    have hlen := columnsBetween_length hle
    have hwidth : ((((columnsBetween first last).map (font ⟨ch.toNat, h⟩)).length : Nat) : Int) = last.val - first.val + 1 := by
      rw [List.length_map, hlen]; omega
    rw [textLayout_lit font blank y cx text (List.ne_nil_of_length_pos (by omega))
      (glyphContent_eq_columnsBetween hfirst hlast hbefore hafter), columnsPixels_columnsBetween _ y cx hle, hwidth]
    rfl

end

section
/-! SUPPORT. The proofs about the scan engine (42_scan_engine.md): the rows and cells of the phases, the arithmetic of the dither
accumulator, ticks one after another, SE_INIT, SE_ENABLE and SE_DISABLE, and what TIMER's turn can change. -/

namespace Sys2Proof.Machine

/-! ## The cells of the four phases (R203, R212) -/

theorem rowsOf_length {p : Nat} (hp : p < 4) (h : Nat) : (rowsOf p h).length = if p < h then (h - p + 3) / 4 else 0 := by
  have hcount : (rowsOf p h).length = h.count (· ≡ p [MOD 4]) := by
    rw [rowsOf, ← List.countP_eq_length_filter, Nat.count]
    exact List.countP_congr fun r _ => by simp [Config.nphase, Nat.ModEq, Nat.mod_eq_of_lt hp]
  rw [hcount, Nat.count_modEq_card _ (by decide), Nat.mod_eq_of_lt hp]
  split <;> split <;> omega

theorem phaseCells_length (w h p : Nat) : (phaseCells w h p).length = w * (rowsOf p h).length := by
  simp [phaseCells, rowCells, List.length_flatMap, Nat.mul_comm]

/-- R61: a cell of the plane lies in one row. -/
theorem row_of_cell {w r c : Nat} (hc : c < w) : (r * w + c) / w = r := by
  rw [Nat.mul_comm, Nat.mul_add_div (by omega), Nat.div_eq_of_lt hc, Nat.add_zero]

/-- The phase that reads a cell is its row mod 4. -/
theorem phase_of_cell {w h p a : Nat} (ha : a ∈ phaseCells w h p) : a / w % 4 = p := by
  obtain ⟨r, c, -, hp, hc, rfl⟩ := mem_phaseCells.1 ha
  rwa [row_of_cell hc]

theorem phaseCells_disjoint {w h p q : Nat} (hpq : p ≠ q) : (phaseCells w h p).Disjoint (phaseCells w h q) :=
  fun _ hp hq => hpq ((phase_of_cell hp).symm.trans (phase_of_cell hq))

/-- R61: every cell of the plane is read in the phase of its row. -/
theorem mem_phaseCells_of_lt {w h a : Nat} (ha : a < w * h) : a ∈ phaseCells w h (a / w % 4) := by
  have hw : 0 < w := Nat.pos_of_lt_mul_right ha
  exact mem_phaseCells.2 ⟨a / w, a % w, Nat.div_lt_of_lt_mul ha, rfl, Nat.mod_lt a hw, (Nat.div_add_mod' a w).symm⟩

/-- R212: the four phases together read each cell of the plane once. -/
theorem allPhases_perm (w h : Nat) : ((List.range 4).flatMap (phaseCells w h)).Perm (List.range (w * h)) := by
  have hnodup : ((List.range 4).flatMap (phaseCells w h)).Nodup :=
    List.nodup_flatMap.2 ⟨fun p _ => phaseCells_nodup w h p, List.nodup_range.imp phaseCells_disjoint⟩
  refine (List.perm_ext_iff_of_nodup hnodup List.nodup_range).2 fun a => ?_
  rw [List.mem_flatMap, List.mem_range]
  constructor
  · rintro ⟨p, -, ha⟩; exact phaseCells_lt ha
  · exact fun ha => ⟨a / w % 4, List.mem_range.2 (Nat.mod_lt _ (by decide)), mem_phaseCells_of_lt ha⟩

/-! ## The dither accumulator (R214, R217, R218) -/

theorem binaryBit_iff (i : Byte) : binaryBit i = true ↔ 1 ≤ i.toNat := decide_eq_true_iff

theorem ditherBit_iff (a i : Byte) : ditherBit a i = true ↔ 256 ≤ a.toNat + i.toNat := decide_eq_true_iff

theorem ditherRest_toNat (a i : Byte) : (ditherRest a i).toNat = (a.toNat + i.toNat) % 256 := BitVec.toNat_add a i

/-- R214: the carry and the remainder together are the whole sum. -/
theorem dither_sum (a i : Byte) : 256 * (ditherBit a i).toNat + (ditherRest a i).toNat = a.toNat + i.toNat := by
  have ha := a.isLt
  have hi := i.isLt
  rw [ditherRest_toNat, ditherBit]
  by_cases hcarry : 255 < a.toNat + i.toNat
  · rw [decide_eq_true hcarry, Bool.toNat_true]; omega
  · rw [decide_eq_false hcarry, Bool.toNat_false]; omega

theorem scans_cons_rest (a i : Byte) (is : List Byte) : (scans a (i :: is)).2 = (scans (ditherRest a i) is).2 := rfl

theorem scans_cons_count (a i : Byte) (is : List Byte) :
    (scans a (i :: is)).1.count true = (scans (ditherRest a i) is).1.count true + (ditherBit a i).toNat := by
  rw [scans, List.count_cons]
  cases ditherBit a i <;> rfl

/-- R217, R218: nothing is lost: 256 for each lit bit, and what stands in the accumulator, are what went in. -/
theorem scans_total (a : Byte) (is : List Byte) :
    256 * (scans a is).1.count true + (scans a is).2.toNat = a.toNat + (is.map BitVec.toNat).sum := by
  induction is generalizing a with
  | nil => simp [scans]
  | cons i is ih =>
    have hfirst := dither_sum a i
    have hrest := ih (ditherRest a i)
    rw [scans_cons_count, scans_cons_rest, List.map_cons, List.sum_cons]
    omega

/-- `scans_total` for a constant intensity. -/
theorem scans_replicate_total (a i : Byte) (n : Nat) :
    256 * (scans a (List.replicate n i)).1.count true + (scans a (List.replicate n i)).2.toNat = a.toNat + n * i.toNat := by
  rw [scans_total, List.map_replicate, List.sum_replicate, smul_eq_mul]

/-- R214: a bit of a run with a constant intensity, from the accumulator before the run. -/
theorem scans_replicate_getElem {a i : Byte} {n j : Nat} {b : Bool} (h : (scans a (List.replicate n i)).1[j]? = some b) :
    b = decide (256 ≤ (a.toNat + j * i.toNat) % 256 + i.toNat) := by
  induction j generalizing a n with
  | zero =>
    cases n with
    | zero => cases h
    | succ n =>
      obtain rfl : ditherBit a i = b := Option.some.inj h
      rw [Nat.zero_mul, Nat.add_zero, Nat.mod_eq_of_lt a.isLt]
      rfl
  | succ j ih =>
    cases n with
    | zero => cases h
    | succ n =>
      have hj : (scans (ditherRest a i) (List.replicate n i)).1[j]? = some b := h
      rw [ih hj, ditherRest_toNat, Nat.mod_add_mod, Nat.succ_mul, Nat.add_assoc, Nat.add_comm i.toNat]

/-- Between two lit scans the sum does not wrap: it rises by the intensity at each scan. -/
theorem sum_of_dark {x i d : Nat} (hi : i < 256) (hlit : 256 ≤ x % 256 + i)
    (hdark : ∀ m, 0 < m → m < d → (x + m * i) % 256 + i < 256) (hd : 0 < d) : (x + d * i) % 256 + 256 = x % 256 + d * i := by
  induction d, hd using Nat.le_induction with
  | base => omega
  | succ d hd ih =>
    have hsum := ih fun m h0 hm => hdark m h0 (by omega)
    have hno := hdark d hd (by omega)
    rw [Nat.succ_mul]
    omega

/-- R217 (c): two consecutive lit scans are as far apart as it takes the intensity to fill up 256, rounded down or up. -/
theorem gap_eq_floor_or_ceil {x i d : Nat} (h0 : 1 ≤ i) (hi : i < 256) (hd : 0 < d) (hlit : 256 ≤ x % 256 + i)
    (hnext : 256 ≤ (x + d * i) % 256 + i) (hdark : ∀ m, 0 < m → m < d → (x + m * i) % 256 + i < 256) :
    d = 256 / i ∨ d = (256 + i - 1) / i := by
  have hsum := sum_of_dark hi hlit hdark hd
  have hlow : 256 / i < d + 1 := (Nat.div_lt_iff_lt_mul h0).2 (by rw [Nat.succ_mul]; omega)
  have hhigh : d ≤ (256 + i - 1) / i := (Nat.le_div_iff_mul_le h0).2 (by omega)
  have hceil : (256 + i - 1) / i ≤ 256 / i + 1 := by
    rw [← Nat.add_div_right _ h0]
    exact Nat.div_le_div_right (by omega)
  omega

/-- R217 (b): the lit bits of N scans are within one of N * I / 256. -/
theorem scans_replicate_bounds (a i : Byte) (n : Nat) :
    ((scans a (List.replicate n i)).1.count true * 256 : Int) - n * i.toNat < 256 ∧
      -256 < ((scans a (List.replicate n i)).1.count true * 256 : Int) - n * i.toNat := by
  have htotal := scans_replicate_total a i n
  have ha := a.isLt
  have hrest := (scans a (List.replicate n i)).2.isLt
  zify at htotal ha hrest
  omega

/-- R217 (b): the lit fraction of a constant intensity tends to I / 256. -/
theorem litFraction_tendsto (a i : Byte) :
    Filter.Tendsto (fun n : ℕ => ((scans a (List.replicate n i)).1.count true : ℝ) / n) Filter.atTop
      (nhds ((i.toNat : ℝ) / 256)) := by
  rw [← tendsto_sub_nhds_zero_iff]
  refine squeeze_zero_norm' ?_ tendsto_one_div_atTop_nhds_zero_nat
  filter_upwards [Filter.eventually_gt_atTop 0] with n hn
  obtain ⟨hupper, hlower⟩ := scans_replicate_bounds a i n
  generalize (scans a (List.replicate n i)).1.count true = c at hupper hlower ⊢
  have hn' : (0 : ℝ) < n := Nat.cast_pos.2 hn
  have hu : (c * 256 : ℝ) - n * i.toNat < 256 := by exact_mod_cast hupper
  have hl : -256 < (c * 256 : ℝ) - n * i.toNat := by exact_mod_cast hlower
  have hdiff : (c : ℝ) / n - i.toNat / 256 = (c * 256 - n * i.toNat) / 256 / n := by field_simp
  rw [hdiff, norm_div, Real.norm_natCast, Real.norm_eq_abs]
  exact div_le_div_of_nonneg_right (abs_le.2 ⟨by linarith, by linarith⟩) hn'.le

/-! ## Ticks one after another (R33, R34, R216) -/

/-- How many ticks FRAMECNT and PHASE count together: four for each frame, and those of the frame begun. -/
def State.tickCount (s : State) : Nat := 4 * s.frameCnt + s.phase.toNat

/-- R33: PHASE advances by one, and loses four where it wraps. -/
theorem phase_succ_toNat (p : BitVec 2) : (if p = 3 then 4 else 0) + (p + 1).toNat = p.toNat + 1 := by
  revert p; decide

theorem frameNumbers_shifts (s : State) (as : List Nat) : frameNumbers (s.shifts as) = [] := by
  induction as with
  | nil => rfl
  | cons a as ih => exact ih

theorem frameNumbers_closingEvents (s : State) : frameNumbers s.closingEvents = if s.phase = 3 then [s.frameCnt] else [] := by
  unfold State.closingEvents; split <;> rfl

/-- So many frame boundaries from one state to another: FRAMECNT has counted them, and the trace has reported them by their numbers. -/
def CountsFrames (k : Nat) (s t : State) : Prop :=
  t.frameCnt = s.frameCnt + k ∧ frameNumbers t.trace = frameNumbers s.trace ++ List.range' s.frameCnt k

theorem CountsFrames.trans {k l : Nat} {s t u : State} (h : CountsFrames k s t) (h' : CountsFrames l t u) : CountsFrames (k + l) s u := by
  obtain ⟨hcnt, hframes⟩ := h
  obtain ⟨hcnt', hframes'⟩ := h'
  refine ⟨by omega, ?_⟩
  rw [hframes', hframes, hcnt, List.append_assoc, List.range'_append_1]

/-- R216: a tick is counted, and reports its frame boundary where it makes PHASE wrap. -/
theorem exec_seTick_counts {s : State} (h : s.CanTick) :
    ∃ t k, exec .seTick s = .next t ∧ t.CanTick ∧ t.tickCount = s.tickCount + 1 ∧ CountsFrames k s t := by
  have ⟨hr, he, hf, ht, hl⟩ := h
  refine ⟨_, if s.phase = 3 then 1 else 0, exec_seTick_of_canTick h, ⟨hr, he, hf, ht, (s.accAll_length _).trans hl⟩, ?_, ?_, ?_⟩
  · have hphase := phase_succ_toNat s.phase
    simp only [State.tickCount]
    split_ifs at hphase ⊢ <;> omega
  · simp only
    split_ifs <;> rfl
  · simp only [frameNumbers_append, frameNumbers_shifts, frameNumbers_closingEvents]
    split_ifs <;> rfl

/-- So is each of any number of ticks. -/
theorem execAll_seTicks (n : Nat) {s : State} (h : s.CanTick) : ∃ t k, execAll (List.replicate n .seTick) s = .next t ∧ t.CanTick ∧
    t.tickCount = s.tickCount + n ∧ CountsFrames k s t := by
  induction n generalizing s with
  | zero => exact ⟨s, 0, rfl, h, rfl, rfl, (List.append_nil _).symm⟩
  | succ n ih =>
    obtain ⟨t, k, ht, hcan, hcount, hframes⟩ := exec_seTick_counts h
    obtain ⟨u, l, hu, hcan', hcount', hframes'⟩ := ih hcan
    refine ⟨u, k + l, ?_, hcan', by omega, hframes.trans hframes'⟩
    rw [List.replicate_succ, execAll, ht, andThen_next, hu]

/-! ## SE_INIT, SE_ENABLE and SE_DISABLE (R201, R202, R220, R221) -/

theorem seeds_length (first n : Nat) : (seeds first n).length = n := by simp [seeds]

theorem seeds_getElem? {first n a : Nat} (ha : a < n) : (seeds first n)[a]? = some (Config.draw (first + a)) := by
  simp [seeds, ha]

theorem finishPhaseStep_of_tick_none {s : State} (h : s.tick = none) : finishPhaseStep s = .next s := by
  rw [finishPhaseStep, h]

theorem finishPhaseStep_of_tick_some {s : State} {todo : List Nat} (h : s.tick = some todo) :
    finishPhaseStep s = scanAll todo s := by
  rw [finishPhaseStep, h]

/-- R254: no phase step is in progress after one has come to its end. -/
theorem scanAll_tick {as : List Nat} {s t : State} (h : scanAll as s = .next t) : t.tick = none := by
  induction as generalizing s with
  | nil => cases h; exact s.endPhaseStep_tick
  | cons a as ih =>
    obtain ⟨u, -, hu⟩ := andThen_eq_next.1 h
    exact ih hu

/-- R221: what SE_DISABLE does once no phase step is in progress. -/
def State.disabled (s : State) : State :=
  ((s.emitAll [.blank, .detach, .power false]).withEn false).endHostOp Report.done

theorem exec_seDisable {s : State} (h : s.seReady = true) :
    exec .seDisable s = andThen (finishPhaseStep s) fun t => .next t.disabled := if_pos h

theorem exec_seDisable_between {s : State} (h : s.seReady = true) (ht : s.tick = none) : exec .seDisable s = .next s.disabled := by
  rw [exec_seDisable h, finishPhaseStep_of_tick_none ht, andThen_next]

/-! ## TIMER's turn (R224, R252) -/

theorem timerChanges_scanAction {todo : List Nat} {s t : State} (h : scanAction todo s = .next t) : TimerChanges s t := by
  cases todo with
  | nil => cases h; exact timerChanges_endPhaseStep s
  | cons a as => exact (timerChanges_withTick s _).trans (timerChanges_scanCell h)

/-- Whatever TIMER's turn does, it changes only what TIMER can. -/
theorem timerChanges_timerTurn {g : Grain} {s t : State} (h : (timerTurn g s).outcome = .next t) : TimerChanges s t := by
  cases ht : s.tick with
  | some todo =>
    rw [timerTurn_scanning ht] at h
    exact timerChanges_scanAction h
  | none =>
    cases g with
    | whole => rw [timerTurn_whole ht] at h; exact timerChanges_execSeTick h
    | split => rw [timerTurn_split ht] at h; exact timerChanges_beginTick h

end Sys2Proof.Machine

open Sys2Proof Sys2Proof.Machine

/-! ## The obligations of the scan engine -/

/-- Settles O33: SE_DISABLE ends a phase step in progress as TIMER's actions do, and then is SE_DISABLE between phase steps. -/
theorem seDisableBlanksFirst : Obligations.SeDisableBlanksFirst := by
  refine fun s => ⟨fun hn => if_neg (Bool.eq_false_iff.1 hn), fun hr ht => ?_, fun hr todo ht => ?_⟩
  · rw [exec_seDisable_between hr ht, State.disabled, State.emitAll_eq]
    rfl
  · rw [exec_seDisable hr, finishPhaseStep_of_tick_some ht, scanActions_eq_scanAll ht]
    refine andThen_congr fun t hscan => ?_
    have hr' : t.seReady = true := by rw [(timerChanges_scanAll hscan).1]; exact hr
    exact (exec_seDisable_between hr' (scanAll_tick hscan)).symm

/-- Settles O36: the rows are a filtered range, counted by their remainder mod 4. -/
theorem rowsOfPhase : Obligations.RowsOfPhase :=
  fun p h hp => ⟨fun _ => mem_rowsOf, rowsOf_pairwise p h, rowsOf_length hp h⟩

/-- Settles O37: a cell is read in the phase of its row and in no other. -/
theorem everyCellReadOncePerCycle : Obligations.EveryCellReadOncePerCycle :=
  fun w h => ⟨allPhases_perm w h, fun p => ⟨phaseCells_pairwise w h p, phaseCells_length w h p⟩⟩

/-- Settles O38: all of it follows from what the accumulator keeps and gives out, `scans_total`, and from each bit's sum. -/
theorem ditherDutyCycle : Obligations.DitherDutyCycle := by
  refine ⟨fun a is => ?_, fun a i => ?_, scans_replicate_bounds, litFraction_tendsto, fun a i n j k h0 hjk hj hk hdark => ?_,
    fun a n j b c hb hc => ?_⟩
  · have htotal := scans_total a is
    have hrest := (scans a is).2.isLt
    omega
  · have htotal := scans_replicate_total a i 256
    have ha := a.isLt
    have hrest := (scans a (List.replicate 256 i)).2.isLt
    omega
  · obtain ⟨d, rfl⟩ := Nat.exists_eq_add_of_lt hjk
    have sum_after (m : Nat) : a.toNat + j * i.toNat + m * i.toNat = a.toNat + (j + m) * i.toNat := by rw [Nat.add_mul, Nat.add_assoc]
    rw [Nat.add_assoc] at hk ⊢
    rw [Nat.add_sub_cancel_left]
    refine gap_eq_floor_or_ceil (x := a.toNat + j * i.toNat) h0 i.isLt d.succ_pos ?_ ?_ fun m hm hmd => ?_
    · simpa using scans_replicate_getElem hj
    · rw [sum_after]; simpa using scans_replicate_getElem hk
    · rw [sum_after]; simpa using scans_replicate_getElem (hdark (j + m) (by omega) (by omega))
  · rw [scans_replicate_getElem hb, scans_replicate_getElem hc, ← decide_not, decide_eq_decide, show (128 : Byte).toNat = 128 from rfl]
    omega

/-- Settles O39: FRAMECNT and PHASE together count the four ticks. -/
theorem fourTicksOneFrame : Obligations.FourTicksOneFrame := by
  intro s h
  obtain ⟨t, k, ht, hcan, hcount, hcnt, hframes⟩ := execAll_seTicks 4 h
  have hs := s.phase.isLt
  have ht' := t.phase.isLt
  unfold State.tickCount at hcount
  obtain rfl : k = 1 := by omega
  exact ⟨t, ht, BitVec.eq_of_toNat_eq (by omega), hcnt, hframes, hcan⟩

/-- Settles O45: what TIMER can change leaves all of these out. -/
theorem timerLeavesHostAlone : Obligations.TimerLeavesHostAlone := by
  intro s t g ts hs h
  rw [step_of_timerGoes ⟨ts, hs, rfl⟩] at h
  obtain ⟨ht, -⟩ := timerChanges_timerTurn h
  rw [ht]
  simp [SameFramebuffer, SamePorts]

/-- Settles O31: SE_INIT's tests in their order. -/
theorem seInitSeedsAndBlanks : Obligations.SeInitSeedsAndBlanks := by
  refine fun m s => ⟨fun hr => if_pos hr, fun hn hf => ?_, fun hn hf => ?_⟩
  · exact (if_neg (Bool.eq_false_iff.1 hn)).trans (if_neg (Bool.eq_false_iff.1 hf))
  · exact ⟨_, (if_neg (Bool.eq_false_iff.1 hn)).trans (if_pos hf), seeds_length _ _, fun a ha => seeds_getElem? ha, rfl⟩

/-- Settles O32: SE_ENABLE's tests in their order. -/
theorem seEnablePowersAndAttaches : Obligations.SeEnablePowersAndAttaches := by
  refine fun s => ⟨fun hn => if_neg (Bool.eq_false_iff.1 hn), fun hr he => ?_, fun hr he ht => ?_⟩
  · exact (if_pos hr).trans (if_pos he)
  · refine (if_pos hr).trans ((if_neg (Bool.eq_false_iff.1 he)).trans ?_)
    rw [finishPhaseStep_of_tick_none ht, andThen_next]
    show Host.Outcome.next (((s.emitAll [.power true, .attach]).withEn true).endHostOp Report.done) = _
    rw [State.emitAll_eq]
    rfl

/-- Settles O35: the bits are comparisons, and the remainder is the 8-bit sum. -/
theorem shiftedBitArithmetic : Obligations.ShiftedBitArithmetic :=
  fun a i => ⟨binaryBit_iff i, ditherBit_iff a i, ditherRest_toNat a i⟩

end

section
/-! SUPPORT. The proofs about the exceptions (60_exceptions.md): at what place in a phase step each cell is read, what the reference panel
shows after the step's events, and what is refused for want of an initialisation. -/

namespace Sys2Proof.Machine

/-! ## The place of a cell in its phase step (R203, R212, R266) -/

/-- Row `r` has `r / 4` rows of its phase before it. -/
theorem rowsOf_getElem? {p h r : Nat} (hr : r < h) (hp : r % 4 = p) : (rowsOf p h)[r / 4]? = some r := by
  obtain ⟨n, rfl⟩ := Nat.exists_eq_add_of_lt hr
  have hbefore : (rowsOf p r).length = r / 4 := by
    rw [rowsOf_length (by omega)]
    split <;> omega
  obtain ⟨rest, hsplit⟩ : ∃ rest, rowsOf p (r + n + 1) = rowsOf p r ++ r :: rest := by
    simp [rowsOf, Config.nphase, Nat.add_assoc, List.range_add, List.range_succ_eq_map, hp]
  rw [hsplit, ← hbefore, List.getElem?_append_right (Nat.le_refl _), Nat.sub_self, List.getElem?_cons_zero]

theorem rowCells_getElem? {w c : Nat} (hc : c < w) (r : Nat) : (rowCells w r)[c]? = some (r * w + c) := by
  simp [rowCells, hc]

/-- Every row has `w` cells, so column `c` of the row at place `k` stands at place `k * w + c`. -/
theorem flatMap_rowCells_getElem? {w c k r : Nat} {rows : List Nat} (hc : c < w) (hk : rows[k]? = some r) :
    (rows.flatMap (rowCells w))[k * w + c]? = some (r * w + c) := by
  have hlen (q : Nat) : (rowCells w q).length = w := by simp [rowCells]
  induction rows generalizing k with
  | nil => simp at hk
  | cons q rows ih =>
    rw [List.flatMap_cons]
    cases k with
    | zero =>
      obtain rfl : q = r := by simpa using hk
      rw [Nat.zero_mul, Nat.zero_add, List.getElem?_append_left (by rwa [hlen]), rowCells_getElem? hc]
    | succ k =>
      have hplace : (k + 1) * w + c = w + (k * w + c) := by rw [Nat.succ_mul]; omega
      rw [hplace, List.getElem?_append_right (by rw [hlen]; omega), hlen, Nat.add_sub_cancel_left]
      exact ih hk

/-- R266: bit number `k * W + c` of a phase step for phase `p` is that of row `p + 4k`, column `c`. -/
theorem phaseCells_getElem? {w h p r c : Nat} (hr : r < h) (hc : c < w) (hp : r % 4 = p) :
    (phaseCells w h p)[r / 4 * w + c]? = some (r * w + c) :=
  flatMap_rowCells_getElem? hc (rowsOf_getElem? hr hp)

/-! ## The reference panel (R45, R47, R266) -/

/-- R47 (a): a run of SHIFTs lengthens the chain by its bits. -/
theorem foldl_shifts_chain (s : State) (as : List Nat) (v : PanelView) :
    ((s.shifts as).foldl PanelView.apply v).chain = v.chain ++ as.map s.bitOf := by
  induction as generalizing v with
  | nil => simp [State.shifts]
  | cons a as ih =>
    rw [State.shifts_cons, List.foldl_cons, ih]
    simp [PanelView.apply]

/-- R47 (b): the end of a phase step latches what stands in the chain. -/
theorem foldl_closingEvents_latched (s : State) (v : PanelView) : (s.closingEvents.foldl PanelView.apply v).latched = v.chain := by
  unfold State.closingEvents
  split <;> rfl

/-- R266: from an empty chain a phase step latches its own bits and no others. -/
theorem panelOf_phaseStep_latched {s : State} {es : List Event} (h : (panelOf es).chain = []) (as : List Nat) :
    (panelOf (es ++ ([.blank] ++ s.shifts as ++ s.closingEvents))).latched = as.map s.bitOf := by
  have hblank : (PanelView.apply (panelOf es) .blank).chain = [] := h
  rw [panelOf_append, List.foldl_append, foldl_closingEvents_latched, List.foldl_append, foldl_shifts_chain]
  simp [hblank]

/-- R45: the panel sees the pins as they are. -/
theorem State.Inv.panelOf_pins {s : State} (h : s.Inv) : (panelOf s.trace).pins = s.pins :=
  (Machine.panelOf_pins s.trace).trans h.pinsFollowTrace.symm

/-- R266: an LED of the panel after a tick: powered, its row group driven, its own bit latched. -/
theorem panelOf_seTick_lit {s t : State} (h : s.Inv) (hcan : s.CanTick) (ht : exec .seTick s = .next t) {r c : Nat} (hr : r < s.fbH)
    (hc : c < s.fbW) : (panelOf t.trace).lit s.fbW r c = (decide (r % 4 = s.phase.toNat) && s.bitOf (r * s.fbW + c)) := by
  have hpins := (h.seTick ht).panelOf_pins
  have hpower := (h.seTick ht).poweredWhileEnabled
  have ⟨_, hen, _, htick, _⟩ := hcan
  obtain rfl := Host.Outcome.next.inj ((exec_seTick_of_canTick hcan).symm.trans ht)
  have hlatched := panelOf_phaseStep_latched (s := s) (h.chainBetween htick) s.currentCells
  rw [PanelView.lit, hpins, hpower, hlatched, hen, Bool.true_and, Bool.true_and]
  by_cases hp : r % 4 = s.phase.toNat
  · simp [Config.nphase, hp, State.currentCells, phaseCells_getElem? hr hc hp, List.getD_eq_getElem?_getD]
  · simp [Config.nphase, hp]

/-- R266: no LED is lit while no row group is driven. -/
theorem State.Inv.lit_of_blanked {s : State} (h : s.Inv) (hb : s.pins.rowEn = false) (w r c : Nat) :
    (panelOf s.trace).lit w r c = false := by
  simp [PanelView.lit, h.panelOf_pins, hb]

/-- R210, R269: during a phase step and while SE is disabled no row group is driven. -/
theorem State.Inv.blanked {s : State} (h : s.Inv) (hs : s.tick ≠ none ∨ s.en = false) : s.pins.rowEn = false := by
  rcases hs with ht | he
  · obtain ⟨todo, ht⟩ := Option.ne_none_iff_exists'.1 ht
    obtain ⟨-, hdark, -⟩ := h.phaseStep todo ht
    exact hdark
  · exact h.darkWhileDisabled he

end Sys2Proof.Machine

open Sys2Proof Sys2Proof.Machine

/-! ## The obligations of the exceptions -/

/-- Settles O40: the latch holds the bits of the tick's own cells in order, and otherwise the rows are blanked. -/
theorem panelShowsThePhase : Obligations.PanelShowsThePhase :=
  ⟨fun _ _ h hcan ht _ _ hr hc => panelOf_seTick_lit h hcan ht hr hc, fun _ h hs => h.lit_of_blanked (h.blanked hs)⟩

/-- Settles O41: each unit's test for its initialisation comes first. -/
theorem uninitialisedOperationsRefused : Obligations.UninitialisedOperationsRefused := by
  refine fun s => ⟨fun hf h v x y k text => ?_, fun hpf bytes i => ?_, fun hs => ?_⟩
  · have hn : ¬ s.fbReady = true := Bool.eq_false_iff.1 hf
    exact ⟨if_neg hn, if_neg hn, if_neg hn, if_neg hn⟩
  · have hc : s.canParse = false := Bool.and_eq_false_iff.2 hpf
    exact ⟨exec_datagram_refused hc (.inl rfl), exec_datagram_refused hc (.inr rfl), fun hi => exec_record_refused hi hc⟩
  · have hn : ¬ s.seReady = true := Bool.eq_false_iff.1 hs
    exact ⟨if_neg hn, if_neg hn⟩

end

section
/-! SUPPORT. The proofs about reset (70_reset_and_hazards.md): the plane lists no cell, and the invariant holds. -/

namespace Sys2Proof.Machine

/-- R281: no cell of the plane has been written. -/
theorem State.reset_read? (a : Nat) : State.reset.pp.read? a = none := rfl

/-- At reset no unit is initialised, no operation or phase step is in progress and the trace is empty. So the parts of the invariant
about an initialised unit or about work in progress have a false hypothesis, and those about the trace are facts about `[]`. -/
theorem State.inv_reset : State.reset.Inv where
  planeCanonical := Memory.wf_reset
  planeInRange a _ hv := nomatch (State.reset_read? a).symm.trans hv
  planeUntouched _ := rfl
  dimensions := Bool.noConfusion
  gammaEnds := Bool.noConfusion
  gammaMonotone := Bool.noConfusion
  portsDistinct := Bool.noConfusion
  engineAfterFramebuffer := Bool.noConfusion
  enabledAfterInit := Bool.noConfusion
  accumulators := Bool.noConfusion
  silentBeforeInit _ := ⟨rfl, rfl, rfl⟩
  pinsFollowTrace := rfl
  framesNumbered := rfl
  noBleed := rfl
  poweredWhileEnabled := rfl
  darkWhileDisabled _ := rfl
  phaseStep _ ht := nomatch ht
  chainBetween _ := rfl
  chainDuring _ ht := nomatch ht
  pendingStores _ _ hh := nomatch hh
  parser _ _ hh := nomatch hh

end Sys2Proof.Machine

open Sys2Proof Sys2Proof.Machine

/-! ## The obligations of reset -/

/-- Settles O52: each register holds its reset value, and the plane lists no cell. -/
theorem resetState : Obligations.ResetState :=
  ⟨rfl, rfl, rfl, rfl, rfl, rfl, rfl, State.reset_read?⟩

/-- Settles O53: nothing has been initialised, begun or put out. -/
theorem resetMeetsInvariant : Obligations.ResetMeetsInvariant := State.inv_reset

end
